-- ==== Sys2Proof/Word.lean ====
section
/-! DEFINITION. The byte, the host word and the two small byte tuples of the block (spec/10_state.md R22,
R29, R38, R40; spec/30_encoding.md R86, R96). Every quantity is unsigned (spec/00_scope.md R11). -/

namespace Sys2Proof

/-- One byte of a buffer or of the wire (spec/00_scope.md R11). -/
abbrev Byte := BitVec 8

/-- The 32-bit host operation word `HOSTW` (spec/30_encoding.md R96). -/
abbrev HostWord := BitVec 32

/-- Format `ADDR5`: five address bytes, index 0 first on the wire (spec/30_encoding.md R86, spec/20_memory.md R63). -/
structure Addr5 where
  b0 : Byte
  b1 : Byte
  b2 : Byte
  b3 : Byte
  b4 : Byte
deriving DecidableEq, Repr

/-- The two status bytes of a response, first arrived at index 0 (spec/10_state.md R22, R40). -/
structure Status2 where
  s0 : Byte
  s1 : Byte
deriving DecidableEq, Repr

end Sys2Proof
end

