-- ==== Sys2Proof/Config.lean ====
section
/-! DEFINITION. The constants the source fixes (spec/00_scope.md R6), the defaults of the configuration
surface (R7) and the parameters the source leaves open (R8; spec/92_eei_decisions.md). -/

namespace Sys2Proof.Config

/-- `FILL`: the value of every preamble byte (spec/00_scope.md R6). -/
def fill : Byte := 0xFF

/-- `REQ_DATA_MAX` (spec/00_scope.md R6; spec/90_conflicts.md C11). -/
def reqDataMax : Nat := 255

/-- `RSP_DATA_MAX` (spec/00_scope.md R6; spec/90_conflicts.md C11). -/
def rspDataMax : Nat := 253

/-- Size of `TXBUF` (spec/10_state.md R43). -/
def txBufSize : Nat := 519

/-- `T_SETTLE_MS` (spec/00_scope.md R6). -/
def settleMs : Nat := 100

/-- `T_GUARD_MS` (spec/00_scope.md R6). -/
def guardMs : Nat := 5

/-- `HOLD_PER_BYTE_MS` = 9.1525 ms, in units of 1/10000 ms (spec/42_turnaround.md R161). -/
def holdPerByte : Nat := 91525

/-- The unit of `holdPerByte` (spec/42_turnaround.md R161). -/
def holdUnit : Nat := 10000

/-- `HOLD_FIXED_MS` (spec/00_scope.md R6). -/
def holdFixedMs : Nat := 50

/-- `LINK_BAUD` (spec/00_scope.md R6). -/
def linkBaud : Nat := 1200

/-- `LINK_DATA_BITS` (spec/00_scope.md R6). -/
def linkDataBits : Nat := 8

/-- `LINK_STOP_BITS` (spec/00_scope.md R6). -/
def linkStopBits : Nat := 1

/-- `ZERO_CMD` (spec/00_scope.md R6). -/
def zeroCmd : Byte := 0

/-- `CFG_PREAMBLE` at reset (spec/00_scope.md R7). -/
def defaultPreamble : Byte := 10

/-- `CFG_MAXRETRIES` at reset (spec/00_scope.md R7). -/
def defaultMaxRetries : Byte := 2

/-- `CFG_TIMEOUT_MS` at reset (spec/00_scope.md R7). -/
def defaultTimeoutMs : BitVec 16 := 4000

/-- `DELIM_REQ_LONG`, at the default of decision D2 (spec/30_encoding.md R85).
PRESUMED: the spec marks the value as general knowledge (log entry 7). Unsafe. -/
def delimReqLong : Byte := 0x82

/-- `DELIM_REQ_SHORT`, at the default of decision D2 (spec/30_encoding.md R85).
PRESUMED: the spec marks the value as general knowledge (log entry 7). Unsafe. -/
def delimReqShort : Byte := 0x02

/-- `is_long(d) = d[7]`, the default of decision D2 (spec/30_encoding.md R85).
PRESUMED (log entry 7). Unsafe. -/
def isLong (d : Byte) : Bool := d.getLsbD 7

/-- What a byte of a buffer that nothing has written reads as.
DESIGN CHOICE: the spec leaves it unspecified (spec/10_state.md R50; log entry 2). Unsafe. -/
def unlisted : Byte := 0

/-- The two discrete output lines (spec/10_state.md R44, R45). -/
inductive Line where
  | txEn
  | rxEn
deriving DecidableEq, Repr

/-- `LINE_POLARITY`: whether a line's electrical level is the inverse of its logical level. Left open by
the spec (spec/00_scope.md R8, spec/92_eei_decisions.md D8), so it has no body here (log entry 18). -/
opaque linePolarity : Line → Bool

end Sys2Proof.Config
end

