-- ==== Sys2Proof/Syntax.lean ====
section
/-! DEFINITION. The operations of the block as data: one constructor of `Instr` per row of
spec/opcode_table.json, with the descriptors and codes their operands use. -/

namespace Sys2Proof

/-- A Command descriptor (spec/40_codec.md R110). `status` is always empty in this block. -/
structure Command where
  preambleLength : Byte
  address        : Option Addr5
  commandNumber  : Byte
  status         : List Byte
  data           : List Byte
deriving DecidableEq, Repr

/-- A `CommandResult`: the decoded response (spec/10_state.md R22, spec/40_codec.md R116). -/
structure CommandResult where
  address       : Option Addr5
  commandNumber : Byte
  responseCode  : Status2
  data          : List Byte
deriving DecidableEq, Repr

/-- The codes `RETRY_OR` is called with (spec/43_session.md R195). -/
inductive RetryCode where
  | none
  | commfault
deriving DecidableEq, Repr

/-- The codes `FINISH` is called with (spec/43_session.md R197). -/
inductive FinishCode where
  | success
  | commfault
  | none
deriving DecidableEq, Repr

/-- The completion codes carried by `DONE(code)` (spec/30_encoding.md R98). -/
inductive DoneCode where
  | opened
  | closed
  | success
  | commfault
  | none
  | cfgOk
  | errNotExisting
  | errAlreadyOpen
  | errUnknown
  | errNotOpen
  | badop
deriving DecidableEq, Repr

/-- The parser's states (spec/10_state.md R36). `readDelimiter` and `complete` are transient. -/
inductive PState where
  | seekPreamble
  | readDelimiter
  | readAddress
  | readCommand
  | readByteCount
  | readStatus
  | readData
  | readChecksum
  | complete
deriving DecidableEq, Repr

/-- The sequencer's states (spec/10_state.md R30). -/
inductive SState where
  | idle
  | settle
  | guard
  | write
  | hold
  | wait
deriving DecidableEq, Repr

/-- A host operation word, decoded, without the operand bytes that follow `SEND` (spec/30_encoding.md R97). -/
inductive HostOp where
  | opOpen
  | opClose
  | opSend (cmd len : Byte)
  | opSendz
  | cfgPreamble (v : Byte)
  | cfgMaxRetries (v : Byte)
  | cfgTimeout (v : BitVec 16)
  | cfgAutoZero (v : Bool)
deriving DecidableEq, Repr

/-- One constructor per row of spec/opcode_table.json. -/
inductive Instr where
  -- host operation words, format HOSTW (spec/30_encoding.md R97)
  | hostOpen
  | hostClose
  /-- `data` are the operand bytes that follow the word; `len` is its length field. -/
  | hostSend (cmd len : Byte) (data : List Byte)
  | hostSendz
  | cfgwrPreamble (v : Byte)
  | cfgwrMaxRetries (v : Byte)
  | cfgwrTimeout (v : BitVec 16)
  | cfgwrAutoZero (v : Bool)
  -- delimiter bytes, format DELIM (spec/30_encoding.md R85); `t` is bits 6:0, not examined
  | delimPreamble
  | delimLong (t : BitVec 7)
  | delimShort (t : BitVec 7)
  | delimReqLong
  | delimReqShort
  -- first status byte, format STATUS1 (spec/30_encoding.md R88); the operand is bits 6:0
  | status1Comm (x : BitVec 7)
  | status1CmdSpecific (x : BitVec 7)
  -- the parser's handler for one byte, selected by P_STATE (spec/41_parser.md R133 to R141)
  | rxSeekPreamble (b : Byte)
  | rxReadDelimiter (b : Byte)
  | rxReadAddress (b : Byte)
  | rxReadCommand (b : Byte)
  | rxReadByteCount (b : Byte)
  | rxReadStatus (b : Byte)
  | rxReadData (b : Byte)
  | rxReadChecksum (b : Byte)
  | rxComplete
  -- the sequencer's handler for one millisecond, selected by S_STATE (spec/42_turnaround.md R160)
  | tickIdle
  | tickSettle
  | tickGuard
  | tickWrite
  | tickHold
  | tickWait
  -- completion codes, format DONE (spec/30_encoding.md R98)
  | doneOpened
  | doneClosed
  | doneSuccess
  | doneCommfault
  | doneNone
  | doneCfgOk
  | doneErrNotExisting
  | doneErrAlreadyOpen
  | doneErrUnknown
  | doneErrNotOpen
  | doneBadop
  -- frames, format FRAME (spec/30_encoding.md R81 to R84); `t` is bits 6:0 of the delimiter
  | reqLong (pre : Byte) (addr : Addr5) (cmd : Byte) (data : List Byte)
  | reqShort (pre : Byte) (cmd : Byte) (data : List Byte)
  | rspLong (pre : Nat) (t : BitVec 7) (addr : Addr5) (cmd : Byte) (status : Status2) (data : List Byte)
  | rspShort (pre : Nat) (t : BitVec 7) (cmd : Byte) (status : Status2) (data : List Byte)
  -- internal operations and input events, no encoding
  | xor8 (bytes : List Byte)
  | zero
  | build
  | encode (c : Command)
  | decode
  | rxbyte (b : Byte)
  | parserReset
  | notify (f : CommandResult)
  | tick
  | holdMs (n : Nat)
  | txBegin
  | keyup
  | startWrite
  | txwrite
  | txdone
  | hold
  | unkey
  | hostop (w : HostWord) (bytes : List Byte)
  | exchange (c : Command)
  | arm
  | enterWait
  | resolve
  | timeout
  | classify
  | retryOr (code : RetryCode)
  | flags (s : Byte)
  | finish (code : FinishCode)
  | learn (f : CommandResult)
  | xfault
deriving DecidableEq, Repr

end Sys2Proof
end

