-- ==== Sys2Proof/WellFormed.lean ====
section
/-! DEFINITION. Which terms of `Instr` the spec's formats and operand ranges allow. -/

namespace Sys2Proof

/-- A Command the encoder may be given: no status bytes, data within the byte-count field
(spec/40_codec.md R110, R115). -/
def Command.wellFormed (c : Command) : Bool :=
  c.status.isEmpty && decide (c.data.length ≤ Config.reqDataMax)

/-- A result a received frame can carry (spec/30_encoding.md R87). -/
def CommandResult.wellFormed (f : CommandResult) : Bool :=
  decide (f.data.length ≤ Config.rspDataMax)

/-- A delimiter with these low bits and bit 7 set is not the preamble byte (spec/30_encoding.md R83, R85). -/
def longDelimiterBits (t : BitVec 7) : Bool := t != 0x7F

/-- The operand bytes a host word is followed by: `len` for `SEND`, none otherwise (spec/30_encoding.md
R96, R97; spec/43_session.md R180). -/
def operandCountOk (w : HostWord) (bytes : List Byte) : Bool :=
  if w &&& 0xFF0000FF = 0x00000003 then bytes.length == (w.extractLsb' 16 8).toNat
  else bytes.isEmpty

/-- Well-formed operations. Each check names the rule that sets the range. -/
def Instr.wellFormed : Instr → Bool
  | .hostOpen => true
  | .hostClose => true
  | .hostSend _ len data => data.length == len.toNat          -- spec/43_session.md R180
  | .hostSendz => true
  | .cfgwrPreamble _ => true
  | .cfgwrMaxRetries _ => true
  | .cfgwrTimeout _ => true
  | .cfgwrAutoZero _ => true
  | .delimPreamble => true
  | .delimLong t => longDelimiterBits t                       -- spec/30_encoding.md R85
  | .delimShort _ => true
  | .delimReqLong => true
  | .delimReqShort => true
  | .status1Comm _ => true
  | .status1CmdSpecific _ => true
  | .rxSeekPreamble _ => true
  | .rxReadDelimiter b => b != Config.fill                    -- spec/41_parser.md R134
  | .rxReadAddress _ => true
  | .rxReadCommand _ => true
  | .rxReadByteCount _ => true
  | .rxReadStatus _ => true
  | .rxReadData _ => true
  | .rxReadChecksum _ => true
  | .rxComplete => true
  | .tickIdle => true
  | .tickSettle => true
  | .tickGuard => true
  | .tickWrite => true
  | .tickHold => true
  | .tickWait => true
  | .doneOpened => true
  | .doneClosed => true
  | .doneSuccess => true
  | .doneCommfault => true
  | .doneNone => true
  | .doneCfgOk => true
  | .doneErrNotExisting => true
  | .doneErrAlreadyOpen => true
  | .doneErrUnknown => true
  | .doneErrNotOpen => true
  | .doneBadop => true
  | .reqLong _ _ _ data => decide (data.length ≤ Config.reqDataMax)      -- spec/30_encoding.md R81
  | .reqShort _ _ data => decide (data.length ≤ Config.reqDataMax)       -- spec/30_encoding.md R82
  | .rspLong _ t _ _ _ data =>                                           -- spec/30_encoding.md R83
      longDelimiterBits t && decide (data.length ≤ Config.rspDataMax)
  | .rspShort _ _ _ _ data => decide (data.length ≤ Config.rspDataMax)   -- spec/30_encoding.md R84
  | .xor8 _ => true
  | .zero => true
  | .build => true
  | .encode c => c.wellFormed                                 -- spec/40_codec.md R115
  | .decode => true
  | .rxbyte _ => true
  | .parserReset => true
  | .notify f => f.wellFormed
  | .tick => true
  | .holdMs n => decide (4 ≤ n ∧ n ≤ Config.txBufSize)        -- spec/42_turnaround.md R161
  | .txBegin => true
  | .keyup => true
  | .startWrite => true
  | .txwrite => true
  | .txdone => true
  | .hold => true
  | .unkey => true
  | .hostop w bytes => operandCountOk w bytes                 -- spec/43_session.md R180
  | .exchange c => c.wellFormed
  | .arm => true
  | .enterWait => true
  | .resolve => true
  | .timeout => true
  | .classify => true
  | .retryOr _ => true
  | .flags s => s.getLsbD 7                                   -- spec/43_session.md R196
  | .finish _ => true
  | .learn f => f.wellFormed && f.commandNumber == Config.zeroCmd   -- spec/43_session.md R198
  | .xfault => true

end Sys2Proof
end

