-- ==== Sys2Proof/Decode.lean ====
section
/-! DEFINITION. Decoder and encoder of every format of spec/30_encoding.md R80, the checksum generator
and the byte layouts of the frames. Decoding is total on any words and bytes and rejects by name. -/

namespace Sys2Proof

/-! ## Checksum and frame layouts -/

/-- `XOR8`: the running exclusive-or from 0 (spec/40_codec.md R111). -/
def xor8 (s : List Byte) : Byte := s.foldl (fun x b => x ^^^ b) 0

/-- The address bytes in wire order (spec/20_memory.md R63). -/
def Addr5.toList (a : Addr5) : List Byte := [a.b0, a.b1, a.b2, a.b3, a.b4]

/-- The address field: five bytes, or none in short form (spec/30_encoding.md R81, R82). -/
def addrField : Option Addr5 → List Byte
  | some a => a.toList
  | none => []

/-- The delimiter the encoder emits (spec/40_codec.md R114). -/
def reqDelimiter : Option Addr5 → Byte
  | some _ => Config.delimReqLong
  | none => Config.delimReqShort

/-- A request's bytes from the delimiter through the last data byte (spec/40_codec.md R114 `body`). -/
def requestBody (c : Command) : List Byte :=
  reqDelimiter c.address ::
    (addrField c.address ++ c.commandNumber :: BitVec.ofNat 8 c.data.length :: c.data)

/-- A whole request frame (spec/40_codec.md R114 `frame`; spec/30_encoding.md R81, R82). -/
def requestFrame (c : Command) : List Byte :=
  List.replicate c.preambleLength.toNat Config.fill ++ requestBody c ++ [xor8 (requestBody c)]

/-- A response's bytes from the delimiter through the last data byte (spec/30_encoding.md R83, R84);
the byte count counts the two status bytes and the data (R87). -/
def responseBody (delim : Byte) (f : CommandResult) : List Byte :=
  delim :: (addrField f.address ++
    f.commandNumber :: BitVec.ofNat 8 (f.data.length + 2) :: f.responseCode.s0 :: f.responseCode.s1 :: f.data)

/-- A whole response frame after `pre` preamble bytes (spec/30_encoding.md R83, R84). -/
def responseFrame (pre : Nat) (delim : Byte) (f : CommandResult) : List Byte :=
  List.replicate pre Config.fill ++ responseBody delim f ++ [xor8 (responseBody delim f)]

/-- The byte whose bit 7 is `hi` and whose bits 6:0 are `t` (spec/30_encoding.md R85, R88). -/
def byteOf (hi : Bool) (t : BitVec 7) : Byte := BitVec.ofBool hi ++ t

/-- Bits 6:0 of a byte. -/
def lowBits (b : Byte) : BitVec 7 := b.extractLsb' 0 7

/-! ## What a decoder is given, and why it may refuse -/

/-- The words or bytes of an operation, by format (spec/30_encoding.md R80). -/
inductive Encoded where
  /-- a host word and the operand bytes that follow it (R96) -/
  | hostw (w : HostWord) (bytes : List Byte)
  /-- a byte met in `SeekPreamble` (R85) -/
  | delim (b : Byte)
  /-- a delimiter byte the encoder emits (R85) -/
  | delimReq (b : Byte)
  /-- a first status byte (R88) -/
  | status1 (b : Byte)
  /-- a code of `P_STATE` and the byte its handler is given (R92) -/
  | pstate (code : BitVec 4) (b : Byte)
  /-- a code of `S_STATE` (R93) -/
  | sstate (code : BitVec 3)
  /-- a completion code (R98) -/
  | done (code : BitVec 4)
  /-- the bytes of a request frame (R81, R82) -/
  | request (bytes : List Byte)
  /-- the bytes of a response frame (R83, R84) -/
  | response (bytes : List Byte)
deriving DecidableEq, Repr

/-- Why a word or a byte string is no operation. -/
inductive Reject where
  /-- no row of spec/30_encoding.md R97 matches the host word (R99) -/
  | badop
  /-- a `SEND` whose operand bytes do not number `len` (spec/43_session.md R180) -/
  | operandCount
  /-- not a delimiter the encoder emits (spec/30_encoding.md R85, R101) -/
  | notARequestDelimiter
  /-- 0xFF handed to `ReadDelimiter` (spec/41_parser.md R134) -/
  | preambleByteAsDelimiter
  /-- a code of `P_STATE` that is never held (spec/10_state.md R36) -/
  | reservedParserState
  /-- a code of `S_STATE` that is never held (spec/10_state.md R30) -/
  | reservedSequencerState
  /-- a completion code that is never emitted (spec/30_encoding.md R98) -/
  | reservedDoneCode
  /-- a request with more preamble bytes than `CFG_PREAMBLE` can hold (spec/10_state.md R24) -/
  | preambleTooLong
  /-- bytes missing or left over (spec/30_encoding.md R91) -/
  | frameLength
  /-- a byte count below 2 in a response (spec/30_encoding.md R87) -/
  | byteCountBelowTwo
  /-- the checksum byte differs from the exclusive-or (spec/30_encoding.md R90) -/
  | checksum
deriving DecidableEq, Repr

/-! ## Host words -/

/-- A row of spec/30_encoding.md R97: a word matches when its bits under the mask are the pattern. -/
structure HostRow where
  pattern : HostWord
  mask : HostWord
deriving DecidableEq, Repr

/-- A word matches a row (spec/30_encoding.md R97). -/
def rowMatches (r : HostRow) (w : HostWord) : Bool := w &&& r.mask == r.pattern

def rowOpen : HostRow := ⟨0x00000001, 0xFFFFFFFF⟩
def rowClose : HostRow := ⟨0x00000002, 0xFFFFFFFF⟩
def rowSend : HostRow := ⟨0x00000003, 0xFF0000FF⟩
def rowSendz : HostRow := ⟨0x00000004, 0xFFFFFFFF⟩
def rowCfgPreamble : HostRow := ⟨0x00000005, 0xFF00FFFF⟩
def rowCfgMaxRetries : HostRow := ⟨0x00000105, 0xFF00FFFF⟩
def rowCfgTimeout : HostRow := ⟨0x00000205, 0x0000FFFF⟩
def rowCfgAutoZero : HostRow := ⟨0x00000305, 0xFFFEFFFF⟩

/-- The eight rows in the order of spec/30_encoding.md R97. -/
def hostRows : List HostRow :=
  [rowOpen, rowClose, rowSend, rowSendz, rowCfgPreamble, rowCfgMaxRetries, rowCfgTimeout, rowCfgAutoZero]

/-- Two rows overlap when some word matches both. -/
def rowsOverlap (a b : HostRow) : Bool := a.pattern &&& b.mask == b.pattern &&& a.mask

/-- The host word's operation: the first matching row (spec/30_encoding.md R97, spec/43_session.md R180). -/
def decodeHostOp (w : HostWord) : Option HostOp :=
  if rowMatches rowOpen w then some .opOpen
  else if rowMatches rowClose w then some .opClose
  else if rowMatches rowSend w then some (.opSend (w.extractLsb' 8 8) (w.extractLsb' 16 8))
  else if rowMatches rowSendz w then some .opSendz
  else if rowMatches rowCfgPreamble w then some (.cfgPreamble (w.extractLsb' 16 8))
  else if rowMatches rowCfgMaxRetries w then some (.cfgMaxRetries (w.extractLsb' 16 8))
  else if rowMatches rowCfgTimeout w then some (.cfgTimeout (w.extractLsb' 16 16))
  else if rowMatches rowCfgAutoZero w then some (.cfgAutoZero (w.getLsbD 16))
  else none

/-- A host word with the operand bytes that follow it. Only `SEND` has operand bytes; bytes after
another word are not looked at (DESIGN CHOICE, log entry 9). -/
def decodeHostWord (w : HostWord) (bytes : List Byte) : Except Reject Instr :=
  match decodeHostOp w with
  | none => .error .badop
  | some .opOpen => .ok .hostOpen
  | some .opClose => .ok .hostClose
  | some (.opSend cmd len) =>
      if bytes.length = len.toNat then .ok (.hostSend cmd len bytes) else .error .operandCount
  | some .opSendz => .ok .hostSendz
  | some (.cfgPreamble v) => .ok (.cfgwrPreamble v)
  | some (.cfgMaxRetries v) => .ok (.cfgwrMaxRetries v)
  | some (.cfgTimeout v) => .ok (.cfgwrTimeout v)
  | some (.cfgAutoZero v) => .ok (.cfgwrAutoZero v)

/-- The word of a host operation (spec/30_encoding.md R96, R97): fields in their places over the row's pattern. -/
def encodeHostOp : HostOp → HostWord
  | .opOpen => rowOpen.pattern
  | .opClose => rowClose.pattern
  | .opSend cmd len => (0x00 : Byte) ++ len ++ cmd ++ (0x03 : Byte)
  | .opSendz => rowSendz.pattern
  | .cfgPreamble v => (0x00 : Byte) ++ v ++ (0x0005 : BitVec 16)
  | .cfgMaxRetries v => (0x00 : Byte) ++ v ++ (0x0105 : BitVec 16)
  | .cfgTimeout v => v ++ (0x0205 : BitVec 16)
  | .cfgAutoZero v => (0 : BitVec 15) ++ BitVec.ofBool v ++ (0x0305 : BitVec 16)

/-- The operation code of a host operation, bits 2:0 of its word (spec/30_encoding.md R96). -/
def opCode : HostOp → BitVec 3
  | .opOpen => 1
  | .opClose => 2
  | .opSend _ _ => 3
  | .opSendz => 4
  | .cfgPreamble _ => 5
  | .cfgMaxRetries _ => 5
  | .cfgTimeout _ => 5
  | .cfgAutoZero _ => 5

/-! ## Bytes and codes -/

/-- A byte met in `SeekPreamble`: 0xFF is preamble, any other is a delimiter whose bit 7 gives the
address mode (spec/30_encoding.md R85; spec/41_parser.md R133, R134). -/
def decodeDelim (b : Byte) : Instr :=
  if b = Config.fill then .delimPreamble
  else if Config.isLong b then .delimLong (lowBits b)
  else .delimShort (lowBits b)

/-- A delimiter byte of a request (spec/30_encoding.md R85, R101). -/
def decodeDelimReq (b : Byte) : Except Reject Instr :=
  if b = Config.delimReqLong then .ok .delimReqLong
  else if b = Config.delimReqShort then .ok .delimReqShort
  else .error .notARequestDelimiter

/-- A first status byte: bit 7 decides (spec/30_encoding.md R88). -/
def decodeStatus1 (b : Byte) : Instr :=
  if b.getLsbD 7 then .status1Comm (lowBits b) else .status1CmdSpecific (lowBits b)

/-- The code of a parser state (spec/30_encoding.md R92). -/
def PState.code : PState → BitVec 4
  | .seekPreamble => 0
  | .readDelimiter => 1
  | .readAddress => 2
  | .readCommand => 3
  | .readByteCount => 4
  | .readStatus => 5
  | .readData => 6
  | .readChecksum => 7
  | .complete => 8

/-- The code of a sequencer state (spec/30_encoding.md R93). -/
def SState.code : SState → BitVec 3
  | .idle => 0
  | .settle => 1
  | .guard => 2
  | .write => 3
  | .hold => 4
  | .wait => 5

/-- The number of a completion code (spec/30_encoding.md R98). -/
def DoneCode.code : DoneCode → BitVec 4
  | .opened => 0
  | .closed => 1
  | .success => 2
  | .commfault => 3
  | .none => 4
  | .cfgOk => 5
  | .errNotExisting => 8
  | .errAlreadyOpen => 9
  | .errUnknown => 10
  | .errNotOpen => 11
  | .badop => 15

/-- The parser's handler that a code of `P_STATE` selects for the byte `b` (spec/30_encoding.md R92).
`Complete` has no operand (spec/41_parser.md R141). -/
def decodePState (code : BitVec 4) (b : Byte) : Except Reject Instr :=
  if code = 0 then .ok (.rxSeekPreamble b)
  else if code = 1 then
    if b = Config.fill then .error .preambleByteAsDelimiter else .ok (.rxReadDelimiter b)
  else if code = 2 then .ok (.rxReadAddress b)
  else if code = 3 then .ok (.rxReadCommand b)
  else if code = 4 then .ok (.rxReadByteCount b)
  else if code = 5 then .ok (.rxReadStatus b)
  else if code = 6 then .ok (.rxReadData b)
  else if code = 7 then .ok (.rxReadChecksum b)
  else if code = 8 then .ok .rxComplete
  else .error .reservedParserState

/-- The sequencer's handler that a code of `S_STATE` selects for a `TICK` (spec/30_encoding.md R93). -/
def decodeSState (code : BitVec 3) : Except Reject Instr :=
  if code = 0 then .ok .tickIdle
  else if code = 1 then .ok .tickSettle
  else if code = 2 then .ok .tickGuard
  else if code = 3 then .ok .tickWrite
  else if code = 4 then .ok .tickHold
  else if code = 5 then .ok .tickWait
  else .error .reservedSequencerState

/-- The completion that a code stands for (spec/30_encoding.md R98). -/
def decodeDone (code : BitVec 4) : Except Reject Instr :=
  if code = 0 then .ok .doneOpened
  else if code = 1 then .ok .doneClosed
  else if code = 2 then .ok .doneSuccess
  else if code = 3 then .ok .doneCommfault
  else if code = 4 then .ok .doneNone
  else if code = 5 then .ok .doneCfgOk
  else if code = 8 then .ok .doneErrNotExisting
  else if code = 9 then .ok .doneErrAlreadyOpen
  else if code = 10 then .ok .doneErrUnknown
  else if code = 11 then .ok .doneErrNotOpen
  else if code = 15 then .ok .doneBadop
  else .error .reservedDoneCode

/-! ## Frames -/

/-- Number of leading preamble bytes and the bytes after them (spec/30_encoding.md R91). -/
def splitPreamble : List Byte → Nat × List Byte
  | [] => (0, [])
  | b :: bs => if b = Config.fill then ((splitPreamble bs).1 + 1, (splitPreamble bs).2) else (0, b :: bs)

/-- The five address bytes at the front of a byte string. -/
def takeAddr : List Byte → Option (Addr5 × List Byte)
  | a0 :: a1 :: a2 :: a3 :: a4 :: rest => some (⟨a0, a1, a2, a3, a4⟩, rest)
  | _ => none

/-- Command, byte count, data and checksum of a request (spec/30_encoding.md R81, R82). -/
def decodeRequestTail (pre : Byte) (addr : Option Addr5) : List Byte → Except Reject Command
  | cmd :: n :: rest =>
      match rest.drop n.toNat with
      | [x] =>
          let c : Command := ⟨pre, addr, cmd, [], rest.take n.toNat⟩
          if x = xor8 (requestBody c) then .ok c else .error .checksum
      | _ => .error .frameLength
  | _ => .error .frameLength

/-- A request frame, read back from its bytes (spec/30_encoding.md R81, R82, R85). -/
def decodeRequest (bytes : List Byte) : Except Reject Instr :=
  if 255 < (splitPreamble bytes).1 then .error .preambleTooLong
  else
    let pre := BitVec.ofNat 8 (splitPreamble bytes).1
    match (splitPreamble bytes).2 with
    | [] => .error .frameLength
    | d :: rest =>
        if d = Config.delimReqLong then
          match takeAddr rest with
          | none => .error .frameLength
          | some (a, rest') =>
              match decodeRequestTail pre (some a) rest' with
              | .ok c => .ok (.reqLong pre a c.commandNumber c.data)
              | .error e => .error e
        else if d = Config.delimReqShort then
          match decodeRequestTail pre none rest with
          | .ok c => .ok (.reqShort pre c.commandNumber c.data)
          | .error e => .error e
        else .error .notARequestDelimiter

/-- Command, byte count, status, data and checksum of a response (spec/30_encoding.md R83, R84, R87). -/
def decodeResponseTail (delim : Byte) (addr : Option Addr5) : List Byte → Except Reject CommandResult
  | cmd :: n :: rest =>
      if n.toNat < 2 then .error .byteCountBelowTwo
      else
        match rest with
        | s0 :: s1 :: rest' =>
            match rest'.drop (n.toNat - 2) with
            | [x] =>
                let f : CommandResult := ⟨addr, cmd, ⟨s0, s1⟩, rest'.take (n.toNat - 2)⟩
                if x = xor8 (responseBody delim f) then .ok f else .error .checksum
            | _ => .error .frameLength
        | _ => .error .frameLength
  | _ => .error .frameLength

/-- A response frame, read whole from its bytes (spec/30_encoding.md R83, R84). The incremental reading
is the parser's, Machine/Parser.lean. -/
def decodeResponse (bytes : List Byte) : Except Reject Instr :=
  let pre := (splitPreamble bytes).1
  match (splitPreamble bytes).2 with
  | [] => .error .frameLength
  | d :: rest =>
      if Config.isLong d then
        match takeAddr rest with
        | none => .error .frameLength
        | some (a, rest') =>
            match decodeResponseTail d (some a) rest' with
            | .ok f => .ok (.rspLong pre (lowBits d) a f.commandNumber f.responseCode f.data)
            | .error e => .error e
      else
        match decodeResponseTail d none rest with
        | .ok f => .ok (.rspShort pre (lowBits d) f.commandNumber f.responseCode f.data)
        | .error e => .error e

/-! ## The decoder -/

/-- The operation that words or bytes of a format stand for, or the reason there is none. -/
def decode : Encoded → Except Reject Instr
  | .hostw w bytes => decodeHostWord w bytes
  | .delim b => .ok (decodeDelim b)
  | .delimReq b => decodeDelimReq b
  | .status1 b => .ok (decodeStatus1 b)
  | .pstate code b => decodePState code b
  | .sstate code => decodeSState code
  | .done code => decodeDone code
  | .request bytes => decodeRequest bytes
  | .response bytes => decodeResponse bytes

/-- `none` for a rejection. -/
def accepted : Except Reject Instr → Option Instr
  | .ok i => some i
  | .error _ => none

/-- The row of the opcode table that a single byte is most specifically a word of: a row that fixes all
the bits comes before a row that fixes bit 7 only, and of two such rows the earlier in the table.
DESIGN CHOICE: the table gives six formats words of 8 bits or fewer that overlap, and a bare byte does
not say its format (log entry 13). Safe: no step reads this definition. -/
def decodeTableByte (b : Byte) : Option Instr :=
  if b = Config.fill then some .delimPreamble
  else match accepted (decodeDelimReq b) with
    | some i => some i
    | none =>
      if b.toNat < 16 then
        match accepted (decodePState (b.extractLsb' 0 4) 0) with
        | some i => some i
        | none => accepted (decodeDone (b.extractLsb' 0 4))
      else some (decodeDelim b)

/-- The operation the decoder reads from a row's word of `nbits` bits, operand bytes being zeros.
Words of 32 bits are host words; of 8 bits, see `decodeTableByte`; of 4 bits codes of `P_STATE`, then
completion codes; of 3 bits codes of `S_STATE` (log entry 13). -/
def decodeTableWord (nbits w : Nat) : Option Instr :=
  if nbits = 32 then
    let hw := BitVec.ofNat 32 w
    let zeros := if rowMatches rowSend hw then List.replicate (hw.extractLsb' 16 8).toNat (0 : Byte) else []
    accepted (decode (.hostw hw zeros))
  else if nbits = 8 then decodeTableByte (BitVec.ofNat 8 w)
  else if nbits = 4 then
    match accepted (decode (.pstate (BitVec.ofNat 4 w) 0)) with
    | some i => some i
    | none => accepted (decode (.done (BitVec.ofNat 4 w)))
  else if nbits = 3 then accepted (decode (.sstate (BitVec.ofNat 3 w)))
  else none

/-! ## The encoder -/

/-- The words of an operation, written from the tables of spec/30_encoding.md; `none` for the internal
operations and the events, which have no encoding (spec/opcode_table.json, format INTERNAL). -/
def encode : Instr → Option Encoded
  | .hostOpen => some (.hostw (encodeHostOp .opOpen) [])
  | .hostClose => some (.hostw (encodeHostOp .opClose) [])
  | .hostSend cmd len data => some (.hostw (encodeHostOp (.opSend cmd len)) data)
  | .hostSendz => some (.hostw (encodeHostOp .opSendz) [])
  | .cfgwrPreamble v => some (.hostw (encodeHostOp (.cfgPreamble v)) [])
  | .cfgwrMaxRetries v => some (.hostw (encodeHostOp (.cfgMaxRetries v)) [])
  | .cfgwrTimeout v => some (.hostw (encodeHostOp (.cfgTimeout v)) [])
  | .cfgwrAutoZero v => some (.hostw (encodeHostOp (.cfgAutoZero v)) [])
  | .delimPreamble => some (.delim Config.fill)
  | .delimLong t => some (.delim (byteOf true t))
  | .delimShort t => some (.delim (byteOf false t))
  | .delimReqLong => some (.delimReq Config.delimReqLong)
  | .delimReqShort => some (.delimReq Config.delimReqShort)
  | .status1Comm x => some (.status1 (byteOf true x))
  | .status1CmdSpecific x => some (.status1 (byteOf false x))
  | .rxSeekPreamble b => some (.pstate PState.seekPreamble.code b)
  | .rxReadDelimiter b => some (.pstate PState.readDelimiter.code b)
  | .rxReadAddress b => some (.pstate PState.readAddress.code b)
  | .rxReadCommand b => some (.pstate PState.readCommand.code b)
  | .rxReadByteCount b => some (.pstate PState.readByteCount.code b)
  | .rxReadStatus b => some (.pstate PState.readStatus.code b)
  | .rxReadData b => some (.pstate PState.readData.code b)
  | .rxReadChecksum b => some (.pstate PState.readChecksum.code b)
  | .rxComplete => some (.pstate PState.complete.code 0)
  | .tickIdle => some (.sstate SState.idle.code)
  | .tickSettle => some (.sstate SState.settle.code)
  | .tickGuard => some (.sstate SState.guard.code)
  | .tickWrite => some (.sstate SState.write.code)
  | .tickHold => some (.sstate SState.hold.code)
  | .tickWait => some (.sstate SState.wait.code)
  | .doneOpened => some (.done DoneCode.opened.code)
  | .doneClosed => some (.done DoneCode.closed.code)
  | .doneSuccess => some (.done DoneCode.success.code)
  | .doneCommfault => some (.done DoneCode.commfault.code)
  | .doneNone => some (.done DoneCode.none.code)
  | .doneCfgOk => some (.done DoneCode.cfgOk.code)
  | .doneErrNotExisting => some (.done DoneCode.errNotExisting.code)
  | .doneErrAlreadyOpen => some (.done DoneCode.errAlreadyOpen.code)
  | .doneErrUnknown => some (.done DoneCode.errUnknown.code)
  | .doneErrNotOpen => some (.done DoneCode.errNotOpen.code)
  | .doneBadop => some (.done DoneCode.badop.code)
  | .reqLong pre addr cmd data => some (.request (requestFrame ⟨pre, some addr, cmd, [], data⟩))
  | .reqShort pre cmd data => some (.request (requestFrame ⟨pre, none, cmd, [], data⟩))
  | .rspLong pre t addr cmd status data =>
      some (.response (responseFrame pre (byteOf true t) ⟨some addr, cmd, status, data⟩))
  | .rspShort pre t cmd status data =>
      some (.response (responseFrame pre (byteOf false t) ⟨none, cmd, status, data⟩))
  | .xor8 _ => none
  | .zero => none
  | .build => none
  | .encode _ => none
  | .decode => none
  | .rxbyte _ => none
  | .parserReset => none
  | .notify _ => none
  | .tick => none
  | .holdMs _ => none
  | .txBegin => none
  | .keyup => none
  | .startWrite => none
  | .txwrite => none
  | .txdone => none
  | .hold => none
  | .unkey => none
  | .hostop _ _ => none
  | .exchange _ => none
  | .arm => none
  | .enterWait => none
  | .resolve => none
  | .timeout => none
  | .classify => none
  | .retryOr _ => none
  | .flags _ => none
  | .finish _ => none
  | .learn _ => none
  | .xfault => none

end Sys2Proof
end

