-- ==== Sys2Proof/Machine/State.lean ====
section
/-! DEFINITION. The state of the block: every register of spec/10_state.md as plain data, the input events
still to come, the outputs emitted so far, and the state after reset (spec/10_state.md R50). -/

namespace Sys2Proof.Machine

/-- One byte buffer, an address space of spec/20_memory.md R60: (index, byte) pairs in canonical form
(indices strictly rising, no byte equal to what an unlisted index reads as; see `Memory.wf` in Ops). -/
abbrev Memory := List Host.Cell

/-- The register arrays and buffers an index can fall outside of (spec/10_state.md R38, R40, R41, R43). -/
inductive Space where
  | pAddr
  | pStatus
  | pData
  | txBuf
deriving DecidableEq, Repr

/-- The transport's answer to an open request (spec/00_scope.md R10, spec/43_session.md R181). -/
inductive OpenAnswer where
  | ok
  | notExisting
  | alreadyOpen
  | unknown
deriving DecidableEq, Repr

/-- The input events (spec/00_scope.md R10). -/
inductive Input where
  /-- from HOST: an operation word and its operand bytes -/
  | hostop (w : HostWord) (bytes : List Byte)
  /-- from DELIVERY: one received byte -/
  | rxbyte (b : Byte)
  /-- from TIMEBASE: one millisecond has passed -/
  | tick
  /-- from TRANSPORT: the blocking write has returned -/
  | txdone
  /-- from TRANSPORT: an unexpected fault -/
  | xfault
  /-- from TRANSPORT: the answer that `OPEN` samples becomes `a` -/
  | openAnswer (a : OpenAnswer)
deriving DecidableEq, Repr

/-- The five communication-fault flags (spec/43_session.md R196). -/
structure CommFlags where
  parity             : Bool
  overrun            : Bool
  framing            : Bool
  longitudinalParity : Bool
  bufferOverflow     : Bool
deriving DecidableEq, Repr

/-- The character parity asked of the transport (spec/00_scope.md R6 `LINK_PARITY`). -/
inductive Parity where
  | even
  | odd
deriving DecidableEq, Repr

/-- The output events (spec/00_scope.md R10). The two lines are levels and stand in `State`. -/
inductive Output where
  | done (code : DoneCode)
  | txwrite (bytes : List Byte)
  | cfgport (baud : Nat) (parity : Parity) (dataBits stopBits : Nat)
  | subscribe
  | unsubscribe
  | release
  | evTxdump (bytes : List Byte)
  | evRxdump (bytes : List Byte)
  | evCommfault (flags : CommFlags)
deriving DecidableEq, Repr

/-- What a value-returning internal operation returned (spec/40_codec.md R111 to R113, R116;
spec/42_turnaround.md R161; spec/43_session.md R196; log entry 6). -/
inductive Returned where
  | nothing
  | byte (b : Byte)
  | command (c : Command)
  | result (f : CommandResult)
  | duration (ms : Nat)
  | flags (f : CommFlags)
deriving DecidableEq, Repr

/-- Every register of spec/10_state.md under its own name, then the model's four own fields. -/
structure State where
  -- request and result registers (R21, R22)
  reqOp        : BitVec 3
  reqCmd       : Byte
  reqLen       : Byte
  reqData      : Memory
  resLong      : Bool
  resAddr      : Addr5
  resCmd       : Byte
  resStatus    : Status2
  resLen       : Byte
  resData      : Memory
  -- configuration registers (R24 to R27)
  cfgPreamble   : Byte
  cfgMaxRetries : Byte
  cfgTimeoutMs  : BitVec 16
  cfgAutoZero   : Bool
  -- session registers (R28 to R35)
  opened       : Bool
  curAddr      : Addr5
  curAddrValid : Bool
  sState       : SState
  sPhase       : Bool
  zeroDone     : Bool
  retryBudget  : Byte
  handlerArmed : Bool
  respValid    : Bool
  -- parser registers (R36 to R42)
  pState       : PState
  pDelim       : Byte
  pLong        : Bool
  pAddr        : Addr5
  pCmd         : Byte
  pBc          : Byte
  pStatus      : Status2
  pData        : Memory
  pCnt         : Byte
  pXor         : Byte
  -- transmit buffer, lines and timers (R43 to R47)
  txBuf        : Memory
  txLen        : BitVec 10
  txEn         : Bool
  rxEnLine     : Bool
  sElapsed     : BitVec 16
  sTxElapsed   : BitVec 16
  sHoldTarget  : BitVec 13
  -- the model's own: inputs to come, the answer `OPEN` samples, outputs newest first, a returned value
  schedule     : List Input
  openAnswer   : OpenAnswer
  outs         : List Output
  ret          : Returned
deriving DecidableEq, Repr

/-- Why the machine stops. Neither is raised in a state that a run from reset reaches (spec/10_state.md
R51, spec/60_exceptions.md R225); both are the model's own, log entry 10. -/
inductive Fault where
  /-- An index outside a register array or buffer. Raised by the parser handlers that store at `P_CNT`
  and by `START_WRITE` and `TXWRITE` when `TX_LEN` exceeds the size of `TXBUF`. Safe: the spec has no such byte. -/
  | outOfRange (space : Space) (index : Nat)
  /-- `P_BC - 2` with `P_BC < 2`. Raised by `ReadData`, `Complete` and `DECODE`. Safe: the spec does the
  subtraction only when it does not borrow (spec/40_codec.md R117). -/
  | byteCountBelowTwo
deriving DecidableEq, Repr

/-- Why an event or operation has no step. -/
inductive Refusal where
  /-- Raised by `exec` for an instruction without a meaning yet. Safe. -/
  | notModelled (mnemonic : String)
  /-- A host operation while `S_STATE` is not `IDLE`: "the event has no step" (spec/43_session.md R180,
  spec/93_implementation_defined.md U6, U7). Raised by the host operations. Safe. -/
  | hostBusy
  /-- A `SEND` whose operand bytes do not number `len`: "not a well-formed event and has no step"
  (spec/43_session.md R180, 93 U9). Raised by `SEND` and `HOSTOP`. Safe. -/
  | operandCount
  /-- A Command or a result with more data than its format can carry; it must be refused, not truncated
  (spec/40_codec.md R115, spec/60_exceptions.md R225, 93 U1). Raised by the operations given such a
  descriptor. Safe. -/
  | dataTooLong
  /-- `TXDONE` outside `WRITE`: "has no step in any other state" (spec/42_turnaround.md R166). Safe. -/
  | noWriteInProgress
deriving DecidableEq, Repr

/-- The state after reset (spec/10_state.md R50). Where that table says "unspecified" the value is 0, and
an unlisted byte: DESIGN CHOICE, log entries 1 and 2. The model's own fields: log entries 3 to 6. -/
def State.reset : State where
  reqOp := 0
  reqCmd := 0
  reqLen := 0
  reqData := []
  resLong := false
  resAddr := ⟨0, 0, 0, 0, 0⟩
  resCmd := 0
  resStatus := ⟨0, 0⟩
  resLen := 0
  resData := []
  cfgPreamble := Config.defaultPreamble
  cfgMaxRetries := Config.defaultMaxRetries
  cfgTimeoutMs := Config.defaultTimeoutMs
  cfgAutoZero := true
  opened := false
  curAddr := ⟨0, 0, 0, 0, 0⟩
  curAddrValid := false
  sState := .idle
  sPhase := false
  zeroDone := false
  retryBudget := 0
  handlerArmed := false
  respValid := false
  pState := .seekPreamble
  pDelim := 0
  pLong := false
  pAddr := ⟨0, 0, 0, 0, 0⟩
  pCmd := 0
  pBc := 0
  pStatus := ⟨0, 0⟩
  pData := []
  pCnt := 0
  pXor := 0
  txBuf := []
  txLen := 0
  txEn := false
  rxEnLine := false
  sElapsed := 0
  sTxElapsed := 0
  sHoldTarget := 0
  schedule := []
  openAnswer := .ok
  outs := []
  ret := .nothing

end Sys2Proof.Machine
end

