-- ==== Sys2Proof/Machine/Flags.lean ====
section
/-! DEFINITION. The flags the block decodes: the five communication-fault flags of a first status byte and
the bit that makes it one (spec/30_encoding.md R88, spec/43_session.md R196). -/

namespace Sys2Proof.Machine

/-- `FLAGS(s)`: bits 6, 5, 4, 3 and 1 of a first status byte (spec/43_session.md R196). -/
def commFlags (s : Byte) : CommFlags where
  parity := s.getLsbD 6
  overrun := s.getLsbD 5
  framing := s.getLsbD 4
  longitudinalParity := s.getLsbD 3
  bufferOverflow := s.getLsbD 1

/-- Bit 7 of a first status byte: communication status (spec/30_encoding.md R88). -/
def isCommStatus (s : Byte) : Bool := s.getLsbD 7

end Sys2Proof.Machine
end

