-- ==== Sys2Proof/Machine/Operands.lean ====
section
/-! DEFINITION. Operands computed from fields: the hold time, the learned address, saturating counters, and
indexed access to the two small register arrays of the parser. -/

namespace Sys2Proof.Machine

/-- `ceil_div(a, b)` (spec/00_scope.md R11). -/
def ceilDiv (a b : Nat) : Nat := (a + b - 1) / b

/-- `HOLD_MS(n)`: the trailing-delay target for `n` bytes, in ms (spec/42_turnaround.md R161, spec/30_encoding.md
R94; the ceiling is spec/90_conflicts.md C1). -/
def holdMs (n : Nat) : Nat := ceilDiv (Config.holdPerByte * n) Config.holdUnit + Config.holdFixedMs

/-- `sat16(v + 1)`: the next value of an elapsed-time counter (spec/42_turnaround.md R160). -/
def sat16Succ (v : BitVec 16) : BitVec 16 := BitVec.ofNat 16 (min (v.toNat + 1) 65535)

/-- The address in a command-0 response's data: bytes 1 (bit 7 forced to 1), 2, 9, 10, 11; none with fewer
than 12 data bytes (spec/30_encoding.md R95, spec/43_session.md R198). -/
def learnedAddr (d : List Byte) : Option Addr5 :=
  if 12 ≤ d.length then
    some ⟨d.getD 1 0 ||| 0x80, d.getD 2 0, d.getD 9 0, d.getD 10 0, d.getD 11 0⟩
  else none

/-- `P_ADDR[i] <- b`; none outside 0 to 4 (spec/10_state.md R38). -/
def setAddr (a : Addr5) (i : Nat) (b : Byte) : Option Addr5 :=
  match i with
  | 0 => some { a with b0 := b }
  | 1 => some { a with b1 := b }
  | 2 => some { a with b2 := b }
  | 3 => some { a with b3 := b }
  | 4 => some { a with b4 := b }
  | _ => none

/-- `P_STATUS[i] <- b`; none outside 0 and 1 (spec/10_state.md R40). -/
def setStatus (a : Status2) (i : Nat) (b : Byte) : Option Status2 :=
  match i with
  | 0 => some { a with s0 := b }
  | 1 => some { a with s1 := b }
  | _ => none

/-- The codes `RETRY_OR` may finish with, as codes of `FINISH` (spec/43_session.md R195). -/
def finishOfRetry : RetryCode → FinishCode
  | .none => .none
  | .commfault => .commfault

/-- The completion code of an exchange's end (spec/43_session.md R197, spec/30_encoding.md R98). -/
def doneOfFinish : FinishCode → DoneCode
  | .success => .success
  | .commfault => .commfault
  | .none => .none

end Sys2Proof.Machine
end

