-- ==== Sys2Proof/Machine/Ops.lean ====
section
/-! DEFINITION. The operations every meaning is written over: the byte buffers, output, the parser reset, the
attempt (arm, retry, finish), and TAKING A CAUSE of failure (`takeCause`, spec/60_exceptions.md R233), which
stands for taking an exception in this block, with the return from it (`retryOr`, R234) beside it. -/

namespace Sys2Proof.Machine

/-- What a meaning answers. -/
abbrev Result := Host.Outcome State Fault Refusal

/-- One meaning after another. -/
def andThen (r : Result) (f : State → Result) : Result :=
  match r with
  | .next s => f s
  | .fault e => .fault e
  | .refused e => .refused e

/-! ## The byte buffers (spec/20_memory.md R60, spec/00_scope.md R11 `MemRead`, `MemWrite`) -/

/-- The byte at index `k`. -/
def Memory.read : Memory → Nat → Byte
  | [], _ => Config.unlisted
  | (a, v) :: m, k => if a = k then v else Memory.read m k

/-- Store `v` at index `k`, keeping the canonical form: the byte an unlisted index reads as is not listed. -/
def Memory.write : Memory → Nat → Byte → Memory
  | [], k, v => if v = Config.unlisted then [] else [(k, v)]
  | (a, w) :: m, k, v =>
      if k < a then
        if v = Config.unlisted then (a, w) :: m else (k, v) :: (a, w) :: m
      else if k = a then
        if v = Config.unlisted then m else (k, v) :: m
      else (a, w) :: Memory.write m k v

/-- `MemRead(BUF, i, n)`: `n` byte reads in index order. -/
def Memory.readBytes (m : Memory) (i : Nat) : Nat → List Byte
  | 0 => []
  | n + 1 => m.read i :: Memory.readBytes m (i + 1) n

/-- `MemWrite(BUF, i, len(v), v)`: byte writes in index order. Every other byte is kept, those beyond the length of a
shorter frame too, which spec/93_implementation_defined.md U4 leaves at any value. DESIGN CHOICE, log entry 24. -/
def Memory.writeBytes (m : Memory) (i : Nat) : List Byte → Memory
  | [] => m
  | b :: bs => Memory.writeBytes (m.write i b) (i + 1) bs

/-- Every listed index is at least `lo`, indices strictly rise, and no listed byte is the unlisted one. -/
def Memory.wfFrom (lo : Nat) : Memory → Bool
  | [] => true
  | (a, v) :: m => decide (lo ≤ a) && v != Config.unlisted && Memory.wfFrom (a + 1) m

/-- The canonical form holds. -/
def Memory.wf (m : Memory) : Bool := Memory.wfFrom 0 m

/-! ## Output and returned values -/

/-- `emit E`: add an output event to the trace (spec/00_scope.md R11). -/
def emit (o : Output) (s : State) : State := { s with outs := o :: s.outs }

/-- `return v` of an internal operation run on its own (log entry 6). -/
def giveBack (r : Returned) (s : State) : State := { s with ret := r }

/-! ## Reset of the parser, start of an attempt -/

/-- `PARSER_RESET` (spec/41_parser.md R132): only `P_STATE` is written; log entry 12. -/
def parserReset (s : State) : State := { s with pState := .seekPreamble }

/-- `TX_BEGIN` (spec/42_turnaround.md R162). -/
def txBegin (s : State) : State := { s with sState := .settle, sElapsed := 0 }

/-- `ARM` (spec/43_session.md R189). -/
def arm (s : State) : State :=
  txBegin { parserReset { s with handlerArmed := true } with respValid := false }

/-! ## Building and sending a command -/

/-- `ZERO()` (spec/40_codec.md R112). -/
def zeroCommand (s : State) : Command where
  preambleLength := s.cfgPreamble
  address := none
  commandNumber := Config.zeroCmd
  status := []
  data := []

/-- `BUILD()` (spec/40_codec.md R113). -/
def buildCommand (s : State) : Command where
  preambleLength := s.cfgPreamble
  address := if s.curAddrValid then some s.curAddr else none
  commandNumber := s.reqCmd
  status := []
  data := s.reqData.readBytes 0 s.reqLen.toNat

/-- `ENCODE(c)`: the frame into `TXBUF`, its length into `TX_LEN` (spec/40_codec.md R114). -/
def encodeInto (c : Command) (s : State) : State :=
  { s with
    txBuf := s.txBuf.writeBytes 0 (requestFrame c)
    txLen := BitVec.ofNat 10 (requestFrame c).length }

/-- `EXCHANGE(c)` (spec/43_session.md R188). -/
def startExchange (c : Command) (s : State) : State :=
  arm (encodeInto c { s with retryBudget := s.cfgMaxRetries })

/-- `FINISH(code)` (spec/43_session.md R197, R187). -/
def finishWith (code : FinishCode) (s : State) : State :=
  let s1 := { s with sState := .idle }
  if s1.sPhase then
    let s2 := { s1 with sPhase := false }
    startExchange (buildCommand s2) s2
  else emit (.done (doneOfFinish code)) s1

/-! ## Taking a cause of failure, and the return from it -/

/-- `RETRY_OR(code)`: the return from a failed attempt (spec/43_session.md R195, spec/60_exceptions.md R234):
a new attempt with the budget one lower, or the end of the exchange. -/
def retryOr (code : RetryCode) (s : State) : State :=
  if s.retryBudget = 0 then finishWith (finishOfRetry code) s
  else arm { s with retryBudget := s.retryBudget - 1 }

/-- The causes of failure (spec/60_exceptions.md R220). A communication fault carries the first status byte. -/
inductive Cause where
  | portNotExisting
  | portAlreadyOpen
  | portUnknown
  | portNotOpen
  | timeout
  | commfault (s : Byte)
  | malformed
  | xfault
  | badop
deriving DecidableEq, Repr

/-- The cause codes of spec/60_exceptions.md R220. -/
def causeCode : Cause → Nat
  | .portNotExisting => 1
  | .portAlreadyOpen => 2
  | .portUnknown => 3
  | .portNotOpen => 4
  | .timeout => 5
  | .commfault _ => 6
  | .malformed => 7
  | .xfault => 8
  | .badop => 9

/-- TAKING A CAUSE (spec/60_exceptions.md R221 to R227, R233). Nothing is saved and no register names the
cause: an operation's cause completes it with its code, a frame's cause resets the parser, and an
attempt's cause ends the attempt (`TIMEOUT` and `XFAULT` disarm the handler, `XFAULT` also releases the
line, `COMMFAULT` reports its flags) with the retry decision. -/
def takeCause (c : Cause) (s : State) : State :=
  match c with
  | .portNotExisting => emit (.done .errNotExisting) s
  | .portAlreadyOpen => emit (.done .errAlreadyOpen) s
  | .portUnknown => emit (.done .errUnknown) s
  | .portNotOpen => emit (.done .errNotOpen) s
  | .timeout => retryOr .none { s with handlerArmed := false }
  | .commfault b => retryOr .commfault (emit (.evCommfault (commFlags b)) s)
  | .malformed => parserReset s
  | .xfault => retryOr .none { s with txEn := false, handlerArmed := false }
  | .badop => emit (.done .badop) s

/-! ## The end of an attempt -/

/-- Classification of a first status byte (spec/43_session.md R194). -/
def classifyByte (b : Byte) (s : State) : State :=
  if isCommStatus b then takeCause (.commfault b) s else finishWith .success s

/-- `CLASSIFY` (spec/43_session.md R194). -/
def classifyResponse (s : State) : State := classifyByte s.resStatus.s0 s

/-- `RESOLVE` (spec/43_session.md R192). -/
def resolveWait (s : State) : State := classifyResponse { s with handlerArmed := false }

/-- `TIMEOUT` (spec/43_session.md R193). -/
def timeoutWait (s : State) : State := takeCause .timeout s

/-- `ENTER_WAIT` (spec/43_session.md R191). The latch is tested before the timeout. -/
def enterWait (s : State) : State :=
  let s1 := { s with sState := .wait, sElapsed := 0 }
  if s1.respValid then resolveWait s1
  else if s1.cfgTimeoutMs = 0 then timeoutWait s1
  else s1

end Sys2Proof.Machine
end

