-- ==== Sys2Proof/Machine/Completion.lean ====
section
/-! DEFINITION. The completion codes (spec/30_encoding.md R98): each row emits `DONE(code)` to the host and
changes nothing else (log entry 15). -/

namespace Sys2Proof.Machine

/-- `emit DONE(code)` (spec/30_encoding.md R98). -/
def complete (code : DoneCode) (s : State) : Result := .next (emit (.done code) s)

/-- `DONE(OPENED)` (spec/43_session.md R181). -/
def execDoneOpened (s : State) : Result := complete .opened s

/-- `DONE(CLOSED)` (spec/43_session.md R183). -/
def execDoneClosed (s : State) : Result := complete .closed s

/-- `DONE(SUCCESS)` (spec/43_session.md R197). -/
def execDoneSuccess (s : State) : Result := complete .success s

/-- `DONE(COMMFAULT)` (spec/43_session.md R197). -/
def execDoneCommfault (s : State) : Result := complete .commfault s

/-- `DONE(NONE)` (spec/43_session.md R197, R202). -/
def execDoneNone (s : State) : Result := complete .none s

/-- `DONE(CFG_OK)` (spec/43_session.md R184). -/
def execDoneCfgOk (s : State) : Result := complete .cfgOk s

/-- `DONE(ERR_NOT_EXISTING)` (spec/43_session.md R182). -/
def execDoneErrNotExisting (s : State) : Result := complete .errNotExisting s

/-- `DONE(ERR_ALREADY_OPEN)` (spec/43_session.md R182). -/
def execDoneErrAlreadyOpen (s : State) : Result := complete .errAlreadyOpen s

/-- `DONE(ERR_UNKNOWN)` (spec/43_session.md R182). -/
def execDoneErrUnknown (s : State) : Result := complete .errUnknown s

/-- `DONE(ERR_NOT_OPEN)` (spec/43_session.md R183). -/
def execDoneErrNotOpen (s : State) : Result := complete .errNotOpen s

/-- `DONE(BADOP)` (spec/30_encoding.md R99). -/
def execDoneBadop (s : State) : Result := complete .badop s

end Sys2Proof.Machine
end

