-- ==== Sys2Proof/Machine/Codec.lean ====
section
/-! DEFINITION. The frame codec: `XOR8`, `ZERO`, `BUILD`, `ENCODE`, `DECODE` (spec/40_codec.md), the request
frame rows, and the two delimiter bytes the encoder emits (spec/30_encoding.md R85). -/

namespace Sys2Proof.Machine

/-- `DECODE()`: the parser registers as a `CommandResult` (spec/40_codec.md R116). -/
def decodeRegs (s : State) : CommandResult where
  address := if s.pLong then some s.pAddr else none
  commandNumber := s.pCmd
  responseCode := s.pStatus
  data := s.pData.readBytes 0 (s.pBc.toNat - 2)

/-- Run `f` on a Command the encoder accepts; more data is refused, not truncated (spec/40_codec.md R115). -/
def withCommand (c : Command) (f : State → State) (s : State) : Result :=
  if c.data.length ≤ Config.reqDataMax then .next (f s) else .refused .dataTooLong

/-- `XOR8` (spec/40_codec.md R111). -/
def execXor8 (bytes : List Byte) (s : State) : Result := .next (giveBack (.byte (xor8 bytes)) s)

/-- `ZERO` (spec/40_codec.md R112). -/
def execZero (s : State) : Result := .next (giveBack (.command (zeroCommand s)) s)

/-- `BUILD` (spec/40_codec.md R113). -/
def execBuild (s : State) : Result := .next (giveBack (.command (buildCommand s)) s)

/-- `ENCODE` (spec/40_codec.md R114, R115). -/
def execEncode (c : Command) (s : State) : Result := withCommand c (encodeInto c) s

/-- `DECODE` (spec/40_codec.md R116). `P_BC - 2` is read only when it does not borrow (R117, log entry 10). -/
def execDecode (s : State) : Result :=
  if s.pBc.toNat < 2 then .fault .byteCountBelowTwo
  else .next (giveBack (.result (decodeRegs s)) s)

/-- Format `REQ_LONG`: the request frame with an address, encoded (spec/30_encoding.md R81, spec/40_codec.md R114). -/
def execReqLong (pre : Byte) (addr : Addr5) (cmd : Byte) (data : List Byte) (s : State) : Result :=
  withCommand ⟨pre, some addr, cmd, [], data⟩ (encodeInto ⟨pre, some addr, cmd, [], data⟩) s

/-- Format `REQ_SHORT`: the request frame without an address, encoded (spec/30_encoding.md R82, spec/40_codec.md R114). -/
def execReqShort (pre : Byte) (cmd : Byte) (data : List Byte) (s : State) : Result :=
  withCommand ⟨pre, none, cmd, [], data⟩ (encodeInto ⟨pre, none, cmd, [], data⟩) s

/-- `DELIM_REQ_LONG`: the delimiter `ENCODE` takes when the Command has an address (spec/40_codec.md R114,
spec/30_encoding.md R85; log entry 15). -/
def execDelimReqLong (s : State) : Result := .next (giveBack (.byte Config.delimReqLong) s)

/-- `DELIM_REQ_SHORT`: the delimiter `ENCODE` takes when the Command's address is `null` (spec/40_codec.md R114,
spec/30_encoding.md R85; log entry 15). -/
def execDelimReqShort (s : State) : Result := .next (giveBack (.byte Config.delimReqShort) s)

end Sys2Proof.Machine
end

