-- ==== Sys2Proof/Machine/Parser.lean ====
section
/-! DEFINITION. The byte-stream parser (spec/41_parser.md), the frame-complete notification, address learning
(spec/43_session.md R198), the received-delimiter rows and the response frame rows. -/

namespace Sys2Proof.Machine

/-! ## Learning and the frame-complete notification -/

/-- `LEARN(f)` (spec/43_session.md R198). -/
def learnFrom (f : CommandResult) (s : State) : State :=
  match learnedAddr f.data with
  | some a => { s with curAddr := a, curAddrValid := true, zeroDone := true }
  | none => s

/-- Part (2) of `NOTIFY`: the frame into the result registers, if the handler is armed and the latch clear
(spec/41_parser.md R142). A short frame leaves `RES_ADDR` as it is. -/
def latch (f : CommandResult) (s : State) : State :=
  if s.handlerArmed && !s.respValid then
    { s with
      resLong := f.address.isSome
      resAddr := f.address.getD s.resAddr
      resCmd := f.commandNumber
      resStatus := f.responseCode
      resLen := BitVec.ofNat 8 f.data.length
      resData := s.resData.writeBytes 0 f.data
      respValid := true }
  else s

/-- `NOTIFY(f)`: learn, latch, wake (spec/41_parser.md R142, in the order of spec/92_eei_decisions.md D34). -/
def notifyFrame (f : CommandResult) (s : State) : State :=
  let s1 := if f.commandNumber = Config.zeroCmd then learnFrom f s else s
  let s2 := latch f s1
  if s2.sState = .wait && s2.respValid then resolveWait s2 else s2

/-! ## The parser's states (spec/41_parser.md R133 to R141) -/

/-- `ReadDelimiter(b)` (R134). -/
def readDelimiter (b : Byte) (s : State) : State :=
  { s with
    pDelim := b
    pXor := b
    pLong := Config.isLong b
    pCnt := 0
    pState := if Config.isLong b then .readAddress else .readCommand }

/-- `SeekPreamble(b)` (R133): a byte other than 0xFF is the delimiter and is read in the same handler. -/
def seekPreamble (b : Byte) (s : State) : State :=
  if b = Config.fill then s else readDelimiter b { s with pState := .readDelimiter }

/-- `ReadAddress(b)` (R135). -/
def readAddress (b : Byte) (s : State) : Result :=
  match setAddr s.pAddr s.pCnt.toNat b with
  | none => .fault (.outOfRange .pAddr s.pCnt.toNat)
  | some a =>
      .next { s with
        pAddr := a
        pXor := s.pXor ^^^ b
        pCnt := s.pCnt + 1
        pState := if s.pCnt + 1 = 5 then .readCommand else s.pState }

/-- `ReadCommand(b)` (R136). -/
def readCommand (b : Byte) (s : State) : State :=
  { s with pCmd := b, pXor := s.pXor ^^^ b, pState := .readByteCount }

/-- `ReadByteCount(b)` (R137): below 2 the frame is malformed. -/
def readByteCount (b : Byte) (s : State) : State :=
  let s1 := { s with pBc := b, pXor := s.pXor ^^^ b }
  if b.toNat < 2 then takeCause .malformed s1 else { s1 with pCnt := 0, pState := .readStatus }

/-- `ReadStatus(b)` (R138). -/
def readStatus (b : Byte) (s : State) : Result :=
  match setStatus s.pStatus s.pCnt.toNat b with
  | none => .fault (.outOfRange .pStatus s.pCnt.toNat)
  | some a =>
      let s1 := { s with pStatus := a, pXor := s.pXor ^^^ b, pCnt := s.pCnt + 1 }
      .next (if s1.pCnt = 2 then
          { s1 with pCnt := 0, pState := if s1.pBc = 2 then .readChecksum else .readData }
        else s1)

/-- `ReadData(b)` (R139). -/
def readData (b : Byte) (s : State) : Result :=
  if s.pBc.toNat < 2 then .fault .byteCountBelowTwo
  else if Config.rspDataMax ≤ s.pCnt.toNat then .fault (.outOfRange .pData s.pCnt.toNat)
  else
    .next { s with
      pData := s.pData.write s.pCnt.toNat b
      pXor := s.pXor ^^^ b
      pCnt := s.pCnt + 1
      pState := if s.pCnt + 1 = s.pBc - 2 then .readChecksum else s.pState }

/-- `Complete()` (R141). -/
def completeFrame (s : State) : Result :=
  if s.pBc.toNat < 2 then .fault .byteCountBelowTwo
  else .next (parserReset (notifyFrame (decodeRegs s) s))

/-- `ReadChecksum(b)` (R140): a mismatch is the cause `MALFORMED`. -/
def readChecksum (b : Byte) (s : State) : Result :=
  if b = s.pXor then completeFrame { s with pState := .complete }
  else .next (takeCause .malformed s)

/-- The handler that `P_STATE` selects. R131 lists the seven resting states; for the two transient ones,
never held between events, the rows of the opcode table are followed (log entry 11). -/
def parseByte (b : Byte) (s : State) : Result :=
  match s.pState with
  | .seekPreamble => .next (seekPreamble b s)
  | .readDelimiter => .next (readDelimiter b s)
  | .readAddress => readAddress b s
  | .readCommand => .next (readCommand b s)
  | .readByteCount => .next (readByteCount b s)
  | .readStatus => readStatus b s
  | .readData => readData b s
  | .readChecksum => readChecksum b s
  | .complete => completeFrame s

/-- `RXBYTE(b)` (spec/41_parser.md R131). With the port closed the byte is ignored: it changes no register
(spec/92_eei_decisions.md D30, spec/95_test_vectors.md V32; log entry 8). -/
def receiveByte (b : Byte) (s : State) : Result :=
  if s.opened then parseByte b (emit (.evRxdump [b]) s) else .next s

/-- A chunk of bytes: one `RXBYTE` after another (spec/20_memory.md R66, spec/92_eei_decisions.md D35). -/
def receiveBytes : List Byte → State → Result
  | [], s => .next s
  | b :: bs, s => andThen (receiveByte b s) (receiveBytes bs)

/-! ## Meanings -/

/-- `RXBYTE` (R131). -/
def execRxbyte (b : Byte) (s : State) : Result := receiveByte b s

/-- `PARSER_RESET` (R132). -/
def execParserReset (s : State) : Result := .next (parserReset s)

/-- `NOTIFY` (R142). A result with more than 253 data bytes cannot be expressed (spec/60_exceptions.md R225). -/
def execNotify (f : CommandResult) (s : State) : Result :=
  if f.data.length ≤ Config.rspDataMax then .next (notifyFrame f s) else .refused .dataTooLong

/-- `LEARN` (spec/43_session.md R198). -/
def execLearn (f : CommandResult) (s : State) : Result := .next (learnFrom f s)

/-- `RXBYTE@SeekPreamble` (R133). -/
def execRxSeekPreamble (b : Byte) (s : State) : Result := .next (seekPreamble b s)

/-- `RXBYTE@ReadDelimiter` (R134). -/
def execRxReadDelimiter (b : Byte) (s : State) : Result := .next (readDelimiter b s)

/-- `RXBYTE@ReadAddress` (R135). -/
def execRxReadAddress (b : Byte) (s : State) : Result := readAddress b s

/-- `RXBYTE@ReadCommand` (R136). -/
def execRxReadCommand (b : Byte) (s : State) : Result := .next (readCommand b s)

/-- `RXBYTE@ReadByteCount` (R137). -/
def execRxReadByteCount (b : Byte) (s : State) : Result := .next (readByteCount b s)

/-- `RXBYTE@ReadStatus` (R138). -/
def execRxReadStatus (b : Byte) (s : State) : Result := readStatus b s

/-- `RXBYTE@ReadData` (R139). -/
def execRxReadData (b : Byte) (s : State) : Result := readData b s

/-- `RXBYTE@ReadChecksum` (R140). -/
def execRxReadChecksum (b : Byte) (s : State) : Result := readChecksum b s

/-- `RXBYTE@Complete` (R141). -/
def execRxComplete (s : State) : Result := completeFrame s

/-- `DELIM.PREAMBLE`: 0xFF met in `SeekPreamble` (R133). -/
def execDelimPreamble (s : State) : Result := .next (seekPreamble Config.fill s)

/-- `DELIM.LONG`: a byte with bit 7 set met in `SeekPreamble` (R133, R134). -/
def execDelimLong (t : BitVec 7) (s : State) : Result := .next (seekPreamble (byteOf true t) s)

/-- `DELIM.SHORT`: a byte with bit 7 clear met in `SeekPreamble` (R133, R134). -/
def execDelimShort (t : BitVec 7) (s : State) : Result := .next (seekPreamble (byteOf false t) s)

/-- Receive a response frame, byte by byte; a frame whose byte count cannot be expressed is refused
(spec/30_encoding.md R83, R84, R87; spec/60_exceptions.md R225). -/
def receiveResponse (pre : Nat) (delim : Byte) (f : CommandResult) (s : State) : Result :=
  if f.data.length ≤ Config.rspDataMax then receiveBytes (responseFrame pre delim f) s
  else .refused .dataTooLong

/-- Format `RSP_LONG`: a long response frame arrives (spec/30_encoding.md R83, spec/40_codec.md R116; log entry 15). -/
def execRspLong (pre : Nat) (t : BitVec 7) (addr : Addr5) (cmd : Byte) (status : Status2) (data : List Byte)
    (s : State) : Result :=
  receiveResponse pre (byteOf true t) ⟨some addr, cmd, status, data⟩ s

/-- Format `RSP_SHORT`: a short response frame arrives (spec/30_encoding.md R84, spec/40_codec.md R116; log entry 15). -/
def execRspShort (pre : Nat) (t : BitVec 7) (cmd : Byte) (status : Status2) (data : List Byte)
    (s : State) : Result :=
  receiveResponse pre (byteOf false t) ⟨none, cmd, status, data⟩ s

end Sys2Proof.Machine
end

