-- ==== Sys2Proof/Machine/Session.lean ====
section
/-! DEFINITION. The session controller: the five host operations with their configuration writes, and the
steps of the request/response protocol as operations of their own (spec/43_session.md). -/

namespace Sys2Proof.Machine

/-! ## Host operations -/

/-- A host operation is accepted only in `IDLE` (spec/43_session.md R180; log entry 8). -/
def acceptIdle (f : State → Result) (s : State) : Result :=
  if s.sState = .idle then f s else .refused .hostBusy

/-- Acceptance of a host operation: `REQ_OP` takes its code (spec/10_state.md R21). The pseudocode of `OPEN`, `CLOSE`
and `CFGWR` does not repeat it. An operation that changes no register by its own rule (an error of `OPEN` or `CLOSE`, a
`SEND` or `SENDZ` with the port closed, a bad word) does not come here. DEDUCED, log entry 23. -/
def recordOp (op : HostOp) (s : State) : State := { s with reqOp := opCode op }

/-- `OPEN` (R181, R182); on an error no register changes, `REQ_OP` included (R181, spec/60_exceptions.md R221). -/
def openPort (s : State) : State :=
  if s.opened then takeCause .portAlreadyOpen s
  else
    let s1 := emit (.cfgport Config.linkBaud .odd Config.linkDataBits Config.linkStopBits) s
    match s1.openAnswer with
    | .ok =>
        emit (.done .opened)
          { parserReset (emit .subscribe { recordOp .opOpen s1 with rxEnLine := false, txEn := false }) with
            opened := true }
    | .notExisting => takeCause .portNotExisting s1
    | .alreadyOpen => takeCause .portAlreadyOpen s1
    | .unknown => takeCause .portUnknown s1

/-- `CLOSE` (R183); on its error no register changes, `REQ_OP` included (spec/60_exceptions.md R221). -/
def closePort (s : State) : State :=
  if s.opened then
    emit (.done .closed)
      (parserReset
        { emit .release (emit .unsubscribe (recordOp .opClose s)) with
          opened := false
          curAddrValid := false
          zeroDone := false
          handlerArmed := false
          respValid := false })
  else takeCause .portNotOpen s

/-- `CFGWR` index 0 (R184, spec/10_state.md R24): no range check. -/
def writePreamble (v : Byte) (s : State) : State :=
  emit (.done .cfgOk) { recordOp (.cfgPreamble v) s with cfgPreamble := v }

/-- `CFGWR` index 1 (R184, spec/10_state.md R25). -/
def writeMaxRetries (v : Byte) (s : State) : State :=
  emit (.done .cfgOk) { recordOp (.cfgMaxRetries v) s with cfgMaxRetries := v }

/-- `CFGWR` index 2 (R184, spec/10_state.md R26). -/
def writeTimeout (v : BitVec 16) (s : State) : State :=
  emit (.done .cfgOk) { recordOp (.cfgTimeout v) s with cfgTimeoutMs := v }

/-- `CFGWR` index 3 (R184, spec/10_state.md R27). -/
def writeAutoZero (v : Bool) (s : State) : State :=
  emit (.done .cfgOk) { recordOp (.cfgAutoZero v) s with cfgAutoZero := v }

/-- The request registers take the operands of `SEND` (R185, spec/10_state.md R21). -/
def storeRequest (cmd len : Byte) (data : List Byte) (s : State) : State :=
  { recordOp (.opSend cmd len) s with reqCmd := cmd, reqLen := len, reqData := s.reqData.writeBytes 0 data }

/-- `SEND` (R185, R187). With the port closed nothing is written, the request registers included (R202,
spec/92_eei_decisions.md D18), although the pseudocode of R185 stores the operands first. DESIGN CHOICE, log
entry 22. -/
def sendRequest (cmd len : Byte) (data : List Byte) (s : State) : State :=
  if s.opened then
    let s1 := storeRequest cmd len data s
    if s1.cfgAutoZero && cmd != Config.zeroCmd && !s1.zeroDone then
      startExchange (zeroCommand s1) { s1 with sPhase := true }
    else
      startExchange (buildCommand s1) { s1 with sPhase := false }
  else emit (.done .none) s

/-- `SEND` with its operand bytes; a wrong number of them is no event (R180; log entry 8). -/
def sendChecked (cmd len : Byte) (data : List Byte) (s : State) : Result :=
  if data.length = len.toNat then .next (sendRequest cmd len data s) else .refused .operandCount

/-- `SENDZ` (R186). With the port closed nothing is written, `REQ_OP` included (R202, spec/92_eei_decisions.md
D18), although the pseudocode of R186 writes it first. DESIGN CHOICE, log entry 22. -/
def sendZero (s : State) : State :=
  if s.opened then
    let s1 := { recordOp .opSendz s with sPhase := false }
    startExchange (zeroCommand s1) s1
  else emit (.done .none) s

/-- `OPEN`. -/
def execHostOpen (s : State) : Result := acceptIdle (fun s => .next (openPort s)) s

/-- `CLOSE`. -/
def execHostClose (s : State) : Result := acceptIdle (fun s => .next (closePort s)) s

/-- `SEND`. -/
def execHostSend (cmd len : Byte) (data : List Byte) (s : State) : Result :=
  acceptIdle (sendChecked cmd len data) s

/-- `SENDZ`. -/
def execHostSendz (s : State) : Result := acceptIdle (fun s => .next (sendZero s)) s

/-- `CFGWR PREAMBLE`. -/
def execCfgwrPreamble (v : Byte) (s : State) : Result := acceptIdle (fun s => .next (writePreamble v s)) s

/-- `CFGWR MAXRETRIES`. -/
def execCfgwrMaxRetries (v : Byte) (s : State) : Result := acceptIdle (fun s => .next (writeMaxRetries v s)) s

/-- `CFGWR TIMEOUT`. -/
def execCfgwrTimeout (v : BitVec 16) (s : State) : Result := acceptIdle (fun s => .next (writeTimeout v s)) s

/-- `CFGWR AUTOZERO`. -/
def execCfgwrAutoZero (v : Bool) (s : State) : Result := acceptIdle (fun s => .next (writeAutoZero v s)) s

/-- What an accepted host word does; a word no row matches is the cause `BADOP` (R180, spec/30_encoding.md
R99, spec/60_exceptions.md R227). Each operation records its code in `REQ_OP` where its rule lets a register change
(`recordOp`). -/
def runHostWord (w : HostWord) (bytes : List Byte) (s : State) : Result :=
  match decodeHostOp w with
  | none => .next (takeCause .badop s)
  | some .opOpen => .next (openPort s)
  | some .opClose => .next (closePort s)
  | some (.opSend cmd len) => sendChecked cmd len bytes s
  | some .opSendz => .next (sendZero s)
  | some (.cfgPreamble v) => .next (writePreamble v s)
  | some (.cfgMaxRetries v) => .next (writeMaxRetries v s)
  | some (.cfgTimeout v) => .next (writeTimeout v s)
  | some (.cfgAutoZero v) => .next (writeAutoZero v s)

/-- `HOSTOP(w, bytes)` (R180). -/
def execHostop (w : HostWord) (bytes : List Byte) (s : State) : Result := acceptIdle (runHostWord w bytes) s

/-! ## The request/response protocol -/

/-- `EXCHANGE(c)` (R188); a Command with too much data is refused (spec/40_codec.md R115). -/
def execExchange (c : Command) (s : State) : Result := withCommand c (startExchange c) s

/-- `ARM` (R189). -/
def execArm (s : State) : Result := .next (arm s)

/-- `ENTER_WAIT` (R191). -/
def execEnterWait (s : State) : Result := .next (enterWait s)

/-- `RESOLVE` (R192). -/
def execResolve (s : State) : Result := .next (resolveWait s)

/-- `TIMEOUT` (R193). -/
def execTimeout (s : State) : Result := .next (timeoutWait s)

/-- `CLASSIFY` (R194). -/
def execClassify (s : State) : Result := .next (classifyResponse s)

/-- `RETRY_OR(code)` (R195). -/
def execRetryOr (code : RetryCode) (s : State) : Result := .next (retryOr code s)

/-- `FLAGS(s)` (R196). -/
def execFlags (b : Byte) (s : State) : Result := .next (giveBack (.flags (commFlags b)) s)

/-- `FINISH(code)` (R197). -/
def execFinish (code : FinishCode) (s : State) : Result := .next (finishWith code s)

/-- `STATUS1.COMM`: classification of a first status byte with bit 7 set (R194). -/
def execStatus1Comm (x : BitVec 7) (s : State) : Result := .next (classifyByte (byteOf true x) s)

/-- `STATUS1.CMDSPECIFIC`: classification of a first status byte with bit 7 clear (R194). -/
def execStatus1CmdSpecific (x : BitVec 7) (s : State) : Result := .next (classifyByte (byteOf false x) s)

end Sys2Proof.Machine
end

