-- ==== Sys2Proof/Machine/Turnaround.lean ====
section
/-! DEFINITION. The half-duplex turnaround timer and transmit sequence (spec/42_turnaround.md), and the
transport's fault event (spec/60_exceptions.md R226). -/

namespace Sys2Proof.Machine

/-! ## The transmit sequence -/

/-- `KEYUP` (R163). -/
def keyUp (s : State) : State := { s with txEn := true, sState := .guard, sElapsed := 0 }

/-- `UNKEY` (R168). -/
def unkeyLine (s : State) : State := { s with txEn := false }

/-- The bytes of `TXBUF` that a write takes (R165); none past the buffer's end (log entry 10). -/
def txFrame (s : State) : Option (List Byte) :=
  if s.txLen.toNat ≤ Config.txBufSize then some (s.txBuf.readBytes 0 s.txLen.toNat) else none

/-- `TXWRITE(bytes)`: the frame to the transport (R165). -/
def txWrite (s : State) : Result :=
  match txFrame s with
  | none => .fault (.outOfRange .txBuf s.txLen.toNat)
  | some bytes => .next (emit (.txwrite bytes) s)

/-- `START_WRITE` (R164). The write and its log event (spec/60_exceptions.md R244). -/
def beginWrite (s : State) : Result :=
  match txFrame s with
  | none => .fault (.outOfRange .txBuf s.txLen.toNat)
  | some bytes =>
      .next (emit (.evTxdump bytes) (emit (.txwrite bytes)
        { s with
          sTxElapsed := 0
          sHoldTarget := BitVec.ofNat 13 (holdMs s.txLen.toNat)
          sState := .write }))

/-! ## One millisecond (R160), by state -/

/-- `SETTLE`. -/
def tickInSettle (s : State) : State :=
  let s1 := { s with sElapsed := sat16Succ s.sElapsed }
  if Config.settleMs ≤ s1.sElapsed.toNat then keyUp s1 else s1

/-- `GUARD`. -/
def tickInGuard (s : State) : Result :=
  let s1 := { s with sElapsed := sat16Succ s.sElapsed }
  if Config.guardMs ≤ s1.sElapsed.toNat then beginWrite s1 else .next s1

/-- `WRITE`. -/
def tickInWrite (s : State) : State := { s with sTxElapsed := sat16Succ s.sTxElapsed }

/-- `HOLD` (R160, R167). -/
def tickInHold (s : State) : State :=
  let s1 := { s with sTxElapsed := sat16Succ s.sTxElapsed }
  if s1.sHoldTarget.toNat ≤ s1.sTxElapsed.toNat then enterWait (unkeyLine s1) else s1

/-- `WAIT`. -/
def tickInWait (s : State) : State :=
  let s1 := { s with sElapsed := sat16Succ s.sElapsed }
  if s1.cfgTimeoutMs.toNat ≤ s1.sElapsed.toNat then timeoutWait s1 else s1

/-- `TICK` (R160): the handler that `S_STATE` selects. -/
def tickOnce (s : State) : Result :=
  match s.sState with
  | .idle => .next s
  | .settle => .next (tickInSettle s)
  | .guard => tickInGuard s
  | .write => .next (tickInWrite s)
  | .hold => .next (tickInHold s)
  | .wait => .next (tickInWait s)

/-! ## Meanings -/

/-- `TICK` (R160). -/
def execTick (s : State) : Result := tickOnce s

/-- `TICK@IDLE` (R160): nothing. -/
def execTickIdle (s : State) : Result := .next s

/-- `TICK@SETTLE` (R160). -/
def execTickSettle (s : State) : Result := .next (tickInSettle s)

/-- `TICK@GUARD` (R160). -/
def execTickGuard (s : State) : Result := tickInGuard s

/-- `TICK@WRITE` (R160). -/
def execTickWrite (s : State) : Result := .next (tickInWrite s)

/-- `TICK@HOLD` (R167). -/
def execTickHold (s : State) : Result := .next (tickInHold s)

/-- `TICK@WAIT` (R160). -/
def execTickWait (s : State) : Result := .next (tickInWait s)

/-- `HOLD_MS` (R161). -/
def execHoldMs (n : Nat) (s : State) : Result := .next (giveBack (.duration (holdMs n)) s)

/-- `TX_BEGIN` (R162). -/
def execTxBegin (s : State) : Result := .next (txBegin s)

/-- `KEYUP` (R163). -/
def execKeyup (s : State) : Result := .next (keyUp s)

/-- `START_WRITE` (R164). -/
def execStartWrite (s : State) : Result := beginWrite s

/-- `TXWRITE` (R165). -/
def execTxwrite (s : State) : Result := txWrite s

/-- `TXDONE` (R166); "no step in any other state" (log entry 8). -/
def execTxdone (s : State) : Result :=
  if s.sState = .write then
    .next (if s.sHoldTarget.toNat ≤ s.sTxElapsed.toNat then enterWait (unkeyLine s)
      else { s with sState := .hold })
  else .refused .noWriteInProgress

/-- State `HOLD` (R167): one millisecond of the rest of the trailing delay. -/
def execHold (s : State) : Result := .next (tickInHold s)

/-- `UNKEY` (R168). -/
def execUnkey (s : State) : Result := .next (unkeyLine s)

/-- `XFAULT` (spec/60_exceptions.md R226). In `IDLE` it is ignored (spec/92_eei_decisions.md D19; log entry 8). -/
def execXfault (s : State) : Result :=
  if s.sState = .idle then .next s else .next (takeCause .xfault s)

end Sys2Proof.Machine
end

