-- ==== Sys2Proof/Machine/Dispatch.lean ====
section
/-! DEFINITION. One arm per operation of spec/opcode_table.json: the meaning it calls. -/

namespace Sys2Proof.Machine

def exec (i : Instr) (s : State) : Host.Outcome State Fault Refusal :=
  match i with
  | .hostOpen => Sys2Proof.Machine.execHostOpen s
  | .hostClose => Sys2Proof.Machine.execHostClose s
  | .hostSend cmd len data => Sys2Proof.Machine.execHostSend cmd len data s
  | .hostSendz => Sys2Proof.Machine.execHostSendz s
  | .cfgwrPreamble v => Sys2Proof.Machine.execCfgwrPreamble v s
  | .cfgwrMaxRetries v => Sys2Proof.Machine.execCfgwrMaxRetries v s
  | .cfgwrTimeout v => Sys2Proof.Machine.execCfgwrTimeout v s
  | .cfgwrAutoZero v => Sys2Proof.Machine.execCfgwrAutoZero v s
  | .delimPreamble => Sys2Proof.Machine.execDelimPreamble s
  | .delimLong t => Sys2Proof.Machine.execDelimLong t s
  | .delimShort t => Sys2Proof.Machine.execDelimShort t s
  | .delimReqLong => Sys2Proof.Machine.execDelimReqLong s
  | .delimReqShort => Sys2Proof.Machine.execDelimReqShort s
  | .status1Comm x => Sys2Proof.Machine.execStatus1Comm x s
  | .status1CmdSpecific x => Sys2Proof.Machine.execStatus1CmdSpecific x s
  | .rxSeekPreamble b => Sys2Proof.Machine.execRxSeekPreamble b s
  | .rxReadDelimiter b => Sys2Proof.Machine.execRxReadDelimiter b s
  | .rxReadAddress b => Sys2Proof.Machine.execRxReadAddress b s
  | .rxReadCommand b => Sys2Proof.Machine.execRxReadCommand b s
  | .rxReadByteCount b => Sys2Proof.Machine.execRxReadByteCount b s
  | .rxReadStatus b => Sys2Proof.Machine.execRxReadStatus b s
  | .rxReadData b => Sys2Proof.Machine.execRxReadData b s
  | .rxReadChecksum b => Sys2Proof.Machine.execRxReadChecksum b s
  | .rxComplete => Sys2Proof.Machine.execRxComplete s
  | .tickIdle => Sys2Proof.Machine.execTickIdle s
  | .tickSettle => Sys2Proof.Machine.execTickSettle s
  | .tickGuard => Sys2Proof.Machine.execTickGuard s
  | .tickWrite => Sys2Proof.Machine.execTickWrite s
  | .tickHold => Sys2Proof.Machine.execTickHold s
  | .tickWait => Sys2Proof.Machine.execTickWait s
  | .doneOpened => Sys2Proof.Machine.execDoneOpened s
  | .doneClosed => Sys2Proof.Machine.execDoneClosed s
  | .doneSuccess => Sys2Proof.Machine.execDoneSuccess s
  | .doneCommfault => Sys2Proof.Machine.execDoneCommfault s
  | .doneNone => Sys2Proof.Machine.execDoneNone s
  | .doneCfgOk => Sys2Proof.Machine.execDoneCfgOk s
  | .doneErrNotExisting => Sys2Proof.Machine.execDoneErrNotExisting s
  | .doneErrAlreadyOpen => Sys2Proof.Machine.execDoneErrAlreadyOpen s
  | .doneErrUnknown => Sys2Proof.Machine.execDoneErrUnknown s
  | .doneErrNotOpen => Sys2Proof.Machine.execDoneErrNotOpen s
  | .doneBadop => Sys2Proof.Machine.execDoneBadop s
  | .reqLong pre addr cmd data => Sys2Proof.Machine.execReqLong pre addr cmd data s
  | .reqShort pre cmd data => Sys2Proof.Machine.execReqShort pre cmd data s
  | .rspLong pre t addr cmd status data => Sys2Proof.Machine.execRspLong pre t addr cmd status data s
  | .rspShort pre t cmd status data => Sys2Proof.Machine.execRspShort pre t cmd status data s
  | .xor8 bytes => Sys2Proof.Machine.execXor8 bytes s
  | .zero => Sys2Proof.Machine.execZero s
  | .build => Sys2Proof.Machine.execBuild s
  | .encode c => Sys2Proof.Machine.execEncode c s
  | .decode => Sys2Proof.Machine.execDecode s
  | .rxbyte b => Sys2Proof.Machine.execRxbyte b s
  | .parserReset => Sys2Proof.Machine.execParserReset s
  | .notify f => Sys2Proof.Machine.execNotify f s
  | .tick => Sys2Proof.Machine.execTick s
  | .holdMs n => Sys2Proof.Machine.execHoldMs n s
  | .txBegin => Sys2Proof.Machine.execTxBegin s
  | .keyup => Sys2Proof.Machine.execKeyup s
  | .startWrite => Sys2Proof.Machine.execStartWrite s
  | .txwrite => Sys2Proof.Machine.execTxwrite s
  | .txdone => Sys2Proof.Machine.execTxdone s
  | .hold => Sys2Proof.Machine.execHold s
  | .unkey => Sys2Proof.Machine.execUnkey s
  | .hostop w bytes => Sys2Proof.Machine.execHostop w bytes s
  | .exchange c => Sys2Proof.Machine.execExchange c s
  | .arm => Sys2Proof.Machine.execArm s
  | .enterWait => Sys2Proof.Machine.execEnterWait s
  | .resolve => Sys2Proof.Machine.execResolve s
  | .timeout => Sys2Proof.Machine.execTimeout s
  | .classify => Sys2Proof.Machine.execClassify s
  | .retryOr code => Sys2Proof.Machine.execRetryOr code s
  | .flags b => Sys2Proof.Machine.execFlags b s
  | .finish code => Sys2Proof.Machine.execFinish code s
  | .learn f => Sys2Proof.Machine.execLearn f s
  | .xfault => Sys2Proof.Machine.execXfault s

end Sys2Proof.Machine
end

