-- ==== Sys2Proof/Machine/Events.lean ====
section
/-! DEFINITION. The interface of events: which event a step takes, the operation it stands for, the events of
one clock cycle put in order (spec/60_exceptions.md R231), and how a word of the opcode table is presented. -/

namespace Sys2Proof.Machine

/-- The next input event and the state without it. When none is listed only the time base goes on: the event
is a `TICK` (spec/60_exceptions.md R240, TIMEBASE's duty). DESIGN CHOICE, log entry 3. -/
def nextInput (s : State) : Input × State :=
  match s.schedule with
  | [] => (.tick, s)
  | e :: rest => (e, { s with schedule := rest })

/-- The operation an event stands for: a host word that decodes is its operation, any other host word is
given to `HOSTOP`, which answers `BADOP` or refuses (spec/43_session.md R180). The answer of the transport is
no operation; `OPEN` samples it (spec/43_session.md R181). -/
def eventInstr : Input → Option Instr
  | .hostop w bytes =>
      match decode (.hostw w bytes) with
      | .ok i => some i
      | .error _ => some (.hostop w bytes)
  | .rxbyte b => some (.rxbyte b)
  | .tick => some .tick
  | .txdone => some .txdone
  | .xfault => some .xfault
  | .openAnswer _ => none

/-- The answer that `OPEN` will sample becomes the event's (spec/00_scope.md R10 `OPEN_ANSWER`; log entry 4). -/
def sampleAnswer (e : Input) (s : State) : State :=
  match e with
  | .openAnswer a => { s with openAnswer := a }
  | .hostop _ _ => s
  | .rxbyte _ => s
  | .tick => s
  | .txdone => s
  | .xfault => s

/-- The place of an event among those of one clock cycle: `RXBYTE`, `TXDONE`, `XFAULT`, `TICK`, `HOSTOP`
(spec/60_exceptions.md R231). The sampled answer is there before any of them (log entry 19). -/
def eventRank : Input → Nat
  | .openAnswer _ => 0
  | .rxbyte _ => 1
  | .txdone => 2
  | .xfault => 3
  | .tick => 4
  | .hostop _ _ => 5

/-- Insert an event after those of its own rank or less. -/
def insertByRank (e : Input) : List Input → List Input
  | [] => [e]
  | f :: fs => if eventRank e < eventRank f then e :: f :: fs else f :: insertByRank e fs

/-- The events of one clock cycle in the order they are handled, arrival order within a rank. -/
def cycleOrder (es : List Input) : List Input := es.foldl (fun acc e => insertByRank e acc) []

/-- The events of one clock cycle join the schedule in the order of spec/60_exceptions.md R231. -/
def offerCycle (es : List Input) (s : State) : State :=
  { s with schedule := s.schedule ++ cycleOrder es }

/-- Put an event at the head of the schedule. -/
def present (e : Input) (s : State) : State := { s with schedule := e :: s.schedule }

/-- An open port with the parser in state `p` about to be given the byte `b`; the byte count is at least
what that state needs. -/
def presentByte (p : PState) (b : Byte) (bc : Byte) (s : State) : State :=
  present (.rxbyte b) { s with opened := true, pState := p, pBc := bc }

/-- The sequencer in state `q` about to be given a `TICK`. -/
def presentTick (q : SState) (s : State) : State := present .tick { s with sState := q }

/-- What makes the next step run a row's operation that is no host word: the register that selects it and the
event that triggers it (log entry 13). Rows that no word of 8 bits or fewer decodes to change nothing. -/
def presentRow (i : Instr) (s : State) : State :=
  match i with
  | .delimPreamble => presentByte .seekPreamble Config.fill s.pBc s
  | .delimLong t => presentByte .seekPreamble (byteOf true t) s.pBc s
  | .delimShort t => presentByte .seekPreamble (byteOf false t) s.pBc s
  | .delimReqLong =>
      present (.hostop (encodeHostOp (.opSend Config.zeroCmd 0)) [])
        { s with opened := true, sState := .idle, curAddrValid := true }
  | .delimReqShort =>
      present (.hostop (encodeHostOp .opSendz) []) { s with opened := true, sState := .idle }
  | .rxSeekPreamble b => presentByte .seekPreamble b s.pBc s
  | .rxReadDelimiter b => presentByte .readDelimiter b s.pBc s
  | .rxReadAddress b => presentByte .readAddress b s.pBc { s with pCnt := 0 }
  | .rxReadCommand b => presentByte .readCommand b s.pBc s
  | .rxReadByteCount b => presentByte .readByteCount b s.pBc s
  | .rxReadStatus b => presentByte .readStatus b 2 { s with pCnt := 0 }
  | .rxReadData b => presentByte .readData b 3 { s with pCnt := 0 }
  | .rxReadChecksum b => presentByte .readChecksum b 2 s
  | .rxComplete => presentByte .complete 0 2 s
  | .tickIdle => presentTick .idle s
  | .tickSettle => presentTick .settle s
  | .tickGuard => presentTick .guard s
  | .tickWrite => presentTick .write s
  | .tickHold => presentTick .hold s
  | .tickWait => presentTick .wait s
  | .doneErrAlreadyOpen =>
      present (.hostop (encodeHostOp .opOpen) []) { s with opened := true, sState := .idle }
  | .doneErrUnknown =>
      present (.hostop (encodeHostOp .opOpen) [])
        { s with opened := false, sState := .idle, openAnswer := .unknown }
  | .doneErrNotOpen =>
      present (.hostop (encodeHostOp .opClose) []) { s with opened := false, sState := .idle }
  | .doneBadop => present (.hostop 0 []) { s with sState := .idle }
  | _ => s

/-- A word of the opcode table, presented so that the next step runs its operation (log entry 13). -/
def presentWord (nbits w : Nat) (s : State) : State :=
  if nbits = 32 then
    let hw := BitVec.ofNat 32 w
    let zeros := if rowMatches rowSend hw then List.replicate (hw.extractLsb' 16 8).toNat (0 : Byte) else []
    present (.hostop hw zeros) s
  else
    match decodeTableWord nbits w with
    | some i => presentRow i s
    | none => s

end Sys2Proof.Machine
end

