-- ==== Sys2Proof/Machine/Step.lean ====
section
/-! DEFINITION. One step: take the next input event and run the operation it stands for, to its end and
atomically (spec/00_scope.md R9, spec/20_memory.md R68, spec/60_exceptions.md R231). -/

namespace Sys2Proof.Machine

/-- One event handled. -/
def step (s : State) : Host.Outcome State Fault Refusal :=
  let (e, t) := nextInput s
  match eventInstr e with
  | some i => exec i t
  | none => .next (sampleAnswer e t)

/-- `s` with a row's word of `nbits` bits presented so that the next step runs its operation
(log entries 13 and 20). -/
def State.withFetchWord (s : State) (nbits w : Nat) : State := presentWord nbits w s

end Sys2Proof.Machine
end

