-- ==== Sys2Proof/Safety.lean ====
section
/-! DEFINITION. What claims about the block speak of: the invariants of spec/10_state.md R51, which events
have a step (spec/60_exceptions.md R229), the TX stream, the causes of completion, the line levels outside. -/

namespace Sys2Proof.Machine

/-- The line is driven in `GUARD`, `WRITE` and `HOLD` (spec/42_turnaround.md R169) and only there
(spec/10_state.md R51, first item). -/
def State.lineDiscipline (s : State) : Prop :=
  s.txEn = true ↔ s.sState = .guard ∨ s.sState = .write ∨ s.sState = .hold

/-- The items of spec/10_state.md R51 about the session registers (second, third, fourth, seventh). -/
def State.sessionInv (s : State) : Prop :=
  (s.sState ≠ .idle → s.opened = true) ∧
  (s.handlerArmed = true → s.sState ≠ .idle) ∧
  (s.sPhase = true → s.sState ≠ .idle ∧ s.reqOp = 3) ∧
  (s.zeroDone = true → s.curAddrValid = true)

/-- The items of spec/10_state.md R51 about the parser registers (fifth and sixth). -/
def State.parserInv (s : State) : Prop :=
  s.pState ≠ .readDelimiter ∧ s.pState ≠ .complete ∧
  (s.pState = .readAddress → s.pCnt.toNat < 5) ∧
  (s.pState = .readStatus → s.pCnt.toNat < 2) ∧
  (s.pState = .readData → 3 ≤ s.pBc.toNat ∧ s.pCnt.toNat < s.pBc.toNat - 2)

/-- The invariants of spec/10_state.md R51. Its last item, at most one exchange, holds by construction:
State has one set of request registers. -/
def State.specInv (s : State) : Prop := s.lineDiscipline ∧ s.sessionInv ∧ s.parserInv

/-- What the items of R51 need to be kept by every step: the byte count that the later parser states rest on
(spec/41_parser.md R137) and the size of `TXBUF` (spec/10_state.md R43). -/
def State.sizeInv (s : State) : Prop :=
  (s.pState = .readStatus → 2 ≤ s.pBc.toNat) ∧
  (s.pState = .readChecksum → 2 ≤ s.pBc.toNat) ∧
  s.txLen.toNat ≤ Config.txBufSize

/-- The four byte buffers are in canonical form. -/
def State.memoryWf (s : State) : Prop :=
  Memory.wf s.reqData = true ∧ Memory.wf s.resData = true ∧
  Memory.wf s.pData = true ∧ Memory.wf s.txBuf = true

/-- The invariant that every step keeps. -/
def State.Inv (s : State) : Prop := s.specInv ∧ s.sizeInv ∧ s.memoryWf

/-- Which events the model goes on at: those that have a step (spec/60_exceptions.md R229; spec/43_session.md R180;
spec/42_turnaround.md R166: the host is not blocked and gives `SEND` its `len` bytes; `TXDONE` answers a write), and the
two without one that the model ignores, `RXBYTE` with the port closed and `XFAULT` in `IDLE` (log entry 8). -/
def enabled (e : Input) (s : State) : Prop :=
  match e with
  | .hostop w bytes =>
      s.sState = .idle ∧ ∀ cmd len, decodeHostOp w = some (.opSend cmd len) → bytes.length = len.toNat
  | .rxbyte _ => True
  | .tick => True
  | .txdone => s.sState = .write
  | .xfault => True
  | .openAnswer _ => True

/-- The bytes of one output event on the TX stream. -/
def outputBytes : Output → List Byte
  | .txwrite bytes => bytes
  | .done _ => []
  | .cfgport _ _ _ _ => []
  | .subscribe => []
  | .unsubscribe => []
  | .release => []
  | .evTxdump _ => []
  | .evRxdump _ => []
  | .evCommfault _ => []

/-- The TX stream so far, first byte first (spec/20_memory.md R60). -/
def txStream (s : State) : List Byte := (s.outs.reverse.map outputBytes).flatten

/-- The cause an error completion reports (spec/60_exceptions.md R220); `SUCCESS`, `NONE` and the plain
completions name none. -/
def doneCauseCode : DoneCode → Option Nat
  | .opened => none
  | .closed => none
  | .success => none
  | .commfault => some 6
  | .none => none
  | .cfgOk => none
  | .errNotExisting => some 1
  | .errAlreadyOpen => some 2
  | .errUnknown => some 3
  | .errNotOpen => some 4
  | .badop => some 9

/-- The result registers are meaningful (spec/30_encoding.md R98, spec/10_state.md R23). -/
def resultsValid : DoneCode → Bool
  | .opened => false
  | .closed => false
  | .success => true
  | .commfault => true
  | .none => false
  | .cfgOk => false
  | .errNotExisting => false
  | .errAlreadyOpen => false
  | .errUnknown => false
  | .errNotOpen => false
  | .badop => false

/-- The row of the opcode table that `P_STATE` selects for a received byte. -/
def parserRow (p : PState) (b : Byte) : Instr :=
  match p with
  | .seekPreamble => .rxSeekPreamble b
  | .readDelimiter => .rxReadDelimiter b
  | .readAddress => .rxReadAddress b
  | .readCommand => .rxReadCommand b
  | .readByteCount => .rxReadByteCount b
  | .readStatus => .rxReadStatus b
  | .readData => .rxReadData b
  | .readChecksum => .rxReadChecksum b
  | .complete => .rxComplete

/-- The row of the opcode table that `S_STATE` selects for a `TICK`. -/
def sequencerRow (q : SState) : Instr :=
  match q with
  | .idle => .tickIdle
  | .settle => .tickSettle
  | .guard => .tickGuard
  | .write => .tickWrite
  | .hold => .tickHold
  | .wait => .tickWait

/-! ## What an operation leaves behind, as relations between the state before and after -/

/-- `m'` is `m` with the bytes `bs` stored from index `i` on: every other index reads as before. For the indices beyond
the current length this is the model's choice (log entry 24). -/
def Stored (m m' : Memory) (i : Nat) (bs : List Byte) : Prop :=
  ∀ k, Memory.read m' k = if i ≤ k ∧ k < i + bs.length then bs.getD (k - i) 0 else Memory.read m k

/-- An attempt has been armed and nothing else changed (spec/43_session.md R189, spec/42_turnaround.md R162). -/
def AttemptArmed (s t : State) : Prop :=
  t = { s with
    handlerArmed := true
    respValid := false
    pState := .seekPreamble
    sState := .settle
    sElapsed := 0 }

/-- The exchange of `c` has started (spec/43_session.md R188, spec/40_codec.md R114): the budget is the configured
one, `TXBUF` holds the frame from index 0 and is otherwise as before (log entry 24), the first attempt is armed. -/
def ExchangeStarted (c : Command) (s t : State) : Prop :=
  Stored s.txBuf t.txBuf 0 (requestFrame c) ∧
  AttemptArmed
    { s with
      retryBudget := s.cfgMaxRetries
      txBuf := t.txBuf
      txLen := BitVec.ofNat 10 (requestFrame c).length } t

/-- The exchange has ended with the completion code `code` (spec/43_session.md R197, spec/30_encoding.md R98):
`DONE(code)` in `IDLE`, or, after the automatic zero exchange, the start of the requested command's. -/
def ExchangeFinished (code : DoneCode) (s t : State) : Prop :=
  (s.sPhase = false ∧ t = { s with sState := .idle, outs := .done code :: s.outs }) ∨
  (s.sPhase = true ∧ ExchangeStarted (buildCommand s) { s with sPhase := false } t)

/-- The retry decision has been taken, and with no retry left the exchange has ended with the completion code
`code` (spec/43_session.md R195). -/
def AttemptRetried (code : DoneCode) (s t : State) : Prop :=
  (s.retryBudget = 0 ∧ ExchangeFinished code s t) ∨
  (s.retryBudget ≠ 0 ∧ AttemptArmed { s with retryBudget := s.retryBudget - 1 } t)

/-- The ten parser registers `P_*` of one state are those of the other (spec/10_state.md R36 to R42). -/
def SameParser (s t : State) : Prop :=
  s.pState = t.pState ∧ s.pDelim = t.pDelim ∧ s.pLong = t.pLong ∧ s.pAddr = t.pAddr ∧ s.pCmd = t.pCmd ∧
  s.pBc = t.pBc ∧ s.pStatus = t.pStatus ∧ s.pData = t.pData ∧ s.pCnt = t.pCnt ∧ s.pXor = t.pXor

/-- The next value of an elapsed-time counter, in ms (spec/42_turnaround.md R160 `sat16`). -/
def nextMs (v : BitVec 16) : Nat := min (v.toNat + 1) 65535

/-- The events of an attempt in which nothing is received: settle and guard, a write of `w` ms, the rest of the
hold for `n` bytes, and a wait of `timeout` ms (spec/42_turnaround.md R172). -/
def silentAttempt (w n timeout : Nat) : List Input :=
  List.replicate (Config.settleMs + Config.guardMs + w) Input.tick ++
    Input.txdone :: List.replicate (max (holdMs n) w - w + timeout) Input.tick

/-- The log events of received bytes, newest first (spec/60_exceptions.md R244). -/
def rxDumps (bytes : List Byte) : List Output := (bytes.map fun b => Output.evRxdump [b]).reverse

/-- The electrical level of a line: its logical level, inverted where `LINE_POLARITY` says so
(spec/10_state.md R44, R45; spec/92_eei_decisions.md D8; log entry 18). -/
def lineLevel (l : Config.Line) (s : State) : Bool :=
  match l with
  | .txEn => xor s.txEn (Config.linePolarity .txEn)
  | .rxEn => xor s.rxEnLine (Config.linePolarity .rxEn)

end Sys2Proof.Machine
end

