-- ==== Sys2Proof/Certificates/Slice0/Obligations.lean ====
section
/-! DEFINITION. The statements about the model, from the numbered rules of spec/. -/

open Sys2Proof Sys2Proof.Machine

/-! ## Reset, the step, decoding -/

/-- spec/70_reset_and_hazards.md R261: the values that the spec gives for reset. The values of the registers it
leaves unspecified are the model's choice (log entry 1) and are not stated. -/
def Obligations.ResetRegisterValues : Prop :=
  State.reset.cfgPreamble = 10 ∧ State.reset.cfgMaxRetries = 2 ∧ State.reset.cfgTimeoutMs = 4000 ∧
  State.reset.cfgAutoZero = true ∧ State.reset.opened = false ∧ State.reset.curAddrValid = false ∧
  State.reset.zeroDone = false ∧ State.reset.sState = .idle ∧ State.reset.sPhase = false ∧
  State.reset.handlerArmed = false ∧ State.reset.respValid = false ∧ State.reset.pState = .seekPreamble ∧
  State.reset.txEn = false ∧ State.reset.rxEnLine = false ∧ State.reset.sElapsed = 0

/-- The invariant at the reset state (spec/10_state.md R50, R51). R50 leaves `TX_LEN` and the buffers unspecified: the
clauses that `TX_LEN` is at most 519 and that the four buffers are in canonical form rest on the model's choices of
log entries 1 (`TX_LEN` is 0) and 2 (nothing is listed). -/
def Obligations.ResetMeetsInvariant : Prop := State.reset.Inv

/-- A step takes the head of the schedule and runs exactly its operation on the state without that event. A host
word that decodes runs the decoded operation. -/
def Obligations.StepRunsDecodedEvent : Prop :=
  ∀ (s : State) (e : Input) (rest : List Input), s.schedule = e :: rest →
    (∀ i, eventInstr e = some i → step s = exec i { s with schedule := rest }) ∧
    (∀ w bytes i, e = .hostop w bytes → decode (.hostw w bytes) = .ok i →
      step s = exec i { s with schedule := rest }) ∧
    (∀ w bytes r, e = .hostop w bytes → decode (.hostw w bytes) = .error r →
      step s = exec (.hostop w bytes) { s with schedule := rest }) ∧
    (∀ b, e = .rxbyte b → step s = exec (.rxbyte b) { s with schedule := rest }) ∧
    (e = .tick → step s = exec .tick { s with schedule := rest }) ∧
    (e = .txdone → step s = exec .txdone { s with schedule := rest }) ∧
    (e = .xfault → step s = exec .xfault { s with schedule := rest })

/-- The model's own conventions (log entries 3 and 4): with no event listed a step is a `TICK`; the transport's
answer event sets what `OPEN` samples and nothing else. -/
def Obligations.QuietScheduleAndSampledAnswer : Prop :=
  (∀ s : State, s.schedule = [] → step s = exec .tick s) ∧
  (∀ (s : State) (a : OpenAnswer) (rest : List Input), s.schedule = .openAnswer a :: rest →
    step s = .next { s with schedule := rest, openAnswer := a })

/-- spec/95_test_vectors.md V60 to V76: words written from the field table of spec/30_encoding.md R96 and R97; then words
of the other formats and two frames. The delimiter bytes and their bit 7 are those of log entry 7. -/
def Obligations.HostWordVectorsDecode : Prop :=
  decode (.hostw 0x00000001 []) = .ok .hostOpen ∧
  decode (.hostw 0x00000002 []) = .ok .hostClose ∧
  decode (.hostw 0x00000004 []) = .ok .hostSendz ∧
  decode (.hostw 0x00000103 []) = .ok (.hostSend 1 0 []) ∧
  decode (.hostw 0x00092303 [0x20, 0, 0, 0, 0, 0, 0x20, 0x42, 0xC8]) =
    .ok (.hostSend 35 9 [0x20, 0, 0, 0, 0, 0, 0x20, 0x42, 0xC8]) ∧
  decode (.hostw 0x00FFFF03 (List.replicate 255 0xA5)) = .ok (.hostSend 255 255 (List.replicate 255 0xA5)) ∧
  decode (.hostw 0x00050005 []) = .ok (.cfgwrPreamble 5) ∧
  decode (.hostw 0x00010105 []) = .ok (.cfgwrMaxRetries 1) ∧
  decode (.hostw 0x03E80205 []) = .ok (.cfgwrTimeout 1000) ∧
  decode (.hostw 0x05DC0205 []) = .ok (.cfgwrTimeout 1500) ∧
  decode (.hostw 0x00000305 []) = .ok (.cfgwrAutoZero false) ∧
  decode (.hostw 0x00010305 []) = .ok (.cfgwrAutoZero true) ∧
  decode (.hostw 0x00000000 []) = .error .badop ∧
  decode (.hostw 0x00000006 []) = .error .badop ∧
  decode (.hostw 0x00000007 []) = .error .badop ∧
  decode (.hostw 0x00000009 []) = .error .badop ∧
  decode (.hostw 0x00000405 []) = .error .badop ∧
  decode (.hostw 0x01000103 []) = .error .badop ∧
  decode (.hostw 0x00020305 []) = .error .badop ∧
  decode (.hostw 0x00000101 []) = .error .badop ∧
  decode (.delim 0xFF) = .ok .delimPreamble ∧
  decode (.delim 0x86) = .ok (.delimLong 0x06) ∧
  decode (.delim 0x06) = .ok (.delimShort 0x06) ∧
  decode (.status1 0xD0) = .ok (.status1Comm 0x50) ∧
  decode (.status1 0x40) = .ok (.status1CmdSpecific 0x40) ∧
  decode (.pstate 6 0x2A) = .ok (.rxReadData 0x2A) ∧
  decode (.sstate 5) = .ok .tickWait ∧
  decode (.done 0xF) = .ok .doneBadop ∧
  decode (.request [0xFF, 0x82, 0x92, 0x34, 0xAA, 0xBB, 0xCC, 0x01, 0x00, 0xF8]) =
    .ok (.reqLong 1 ⟨0x92, 0x34, 0xAA, 0xBB, 0xCC⟩ 1 []) ∧
  decode (.response [0xFF, 0x06, 0x03, 0x02, 0x00, 0x00, 0x07]) = .ok (.rspShort 1 0x06 3 ⟨0, 0⟩ [])

/-- Every operation with an encoding, every operand at every value the encoding admits, reads back as itself. -/
def Obligations.DecodeEncodeAgree : Prop :=
  ∀ (i : Instr) (e : Encoded), i.wellFormed = true → encode i = some e → decode e = .ok i

/-- The other direction for host words: a word that has an operation is that operation's word, so no bit of a
matching word is ignored (spec/30_encoding.md R97, R99). -/
def Obligations.HostWordHasOneReading : Prop :=
  ∀ (w : HostWord) (op : HostOp), decodeHostOp w = some op → encodeHostOp op = w

/-- `HOSTOP` in `IDLE` completes as the operation its word stands for does (spec/43_session.md R180). -/
def Obligations.HostopRunsItsRow : Prop :=
  ∀ (s : State) (w : HostWord) (bytes : List Byte) (i : Instr), s.sState = .idle →
    decode (.hostw w bytes) = .ok i →
      ∃ t, exec i s = .next t ∧ exec (.hostop w bytes) s = .next t

/-- spec/30_encoding.md R99, spec/60_exceptions.md R227. -/
def Obligations.BadHostWordChangesNothing : Prop :=
  ∀ (s : State) (w : HostWord) (bytes : List Byte), s.sState = .idle → decodeHostOp w = none →
    exec (.hostop w bytes) s = .next { s with outs := .done .badop :: s.outs }

/-- The model's reading of "no step" (log entries 8 and 16). A received byte with the port closed and the transport's
fault in `IDLE` are ignored. Refused by name are a host operation while an exchange is in progress, a `SEND` with the
wrong number of operand bytes, `TXDONE` outside `WRITE`, and a descriptor with more data than its format carries. -/
def Obligations.EventsWithoutStep : Prop :=
  (∀ (s : State) (b : Byte), s.opened = false → exec (.rxbyte b) s = .next s) ∧
  (∀ s : State, s.sState = .idle → exec .xfault s = .next s) ∧
  (∀ (s : State), s.sState ≠ .idle →
    exec .hostOpen s = .refused .hostBusy ∧ exec .hostClose s = .refused .hostBusy ∧
    exec .hostSendz s = .refused .hostBusy ∧
    (∀ cmd len data, exec (.hostSend cmd len data) s = .refused .hostBusy) ∧
    (∀ v, exec (.cfgwrPreamble v) s = .refused .hostBusy) ∧
    (∀ v, exec (.cfgwrMaxRetries v) s = .refused .hostBusy) ∧
    (∀ v, exec (.cfgwrTimeout v) s = .refused .hostBusy) ∧
    (∀ v, exec (.cfgwrAutoZero v) s = .refused .hostBusy) ∧
    (∀ w bytes, exec (.hostop w bytes) s = .refused .hostBusy)) ∧
  (∀ (s : State) (cmd len : Byte) (data : List Byte), s.sState = .idle → data.length ≠ len.toNat →
    exec (.hostSend cmd len data) s = .refused .operandCount ∧
    ∀ w, decodeHostOp w = some (.opSend cmd len) → exec (.hostop w data) s = .refused .operandCount) ∧
  (∀ s : State, s.sState ≠ .write → exec .txdone s = .refused .noWriteInProgress) ∧
  (∀ (s : State) (c : Command), 255 < c.data.length →
    exec (.encode c) s = .refused .dataTooLong ∧ exec (.exchange c) s = .refused .dataTooLong ∧
    (∀ pre a cmd, exec (.reqLong pre a cmd c.data) s = .refused .dataTooLong) ∧
    (∀ pre cmd, exec (.reqShort pre cmd c.data) s = .refused .dataTooLong)) ∧
  (∀ (s : State) (f : CommandResult), 253 < f.data.length →
    exec (.notify f) s = .refused .dataTooLong ∧
    (∀ pre t a cmd st, exec (.rspLong pre t a cmd st f.data) s = .refused .dataTooLong) ∧
    (∀ pre t cmd st, exec (.rspShort pre t cmd st f.data) s = .refused .dataTooLong))

/-- The model's two faults, in states that no run reaches (log entry 10). -/
def Obligations.OutOfRangeFaults : Prop :=
  (∀ (s : State) (b : Byte), 5 ≤ s.pCnt.toNat →
    exec (.rxReadAddress b) s = .fault (.outOfRange .pAddr s.pCnt.toNat)) ∧
  (∀ (s : State) (b : Byte), 2 ≤ s.pCnt.toNat →
    exec (.rxReadStatus b) s = .fault (.outOfRange .pStatus s.pCnt.toNat)) ∧
  (∀ (s : State) (b : Byte), s.pBc.toNat < 2 →
    exec (.rxReadData b) s = .fault .byteCountBelowTwo ∧ exec .rxComplete s = .fault .byteCountBelowTwo ∧
    exec .decode s = .fault .byteCountBelowTwo ∧
    exec (.rxReadChecksum s.pXor) s = .fault .byteCountBelowTwo) ∧
  (∀ (s : State) (b : Byte), 2 ≤ s.pBc.toNat → 253 ≤ s.pCnt.toNat →
    exec (.rxReadData b) s = .fault (.outOfRange .pData s.pCnt.toNat)) ∧
  (∀ s : State, 519 < s.txLen.toNat →
    exec .startWrite s = .fault (.outOfRange .txBuf s.txLen.toNat) ∧
    exec .txwrite s = .fault (.outOfRange .txBuf s.txLen.toNat) ∧
    (5 ≤ nextMs s.sElapsed → exec .tickGuard s = .fault (.outOfRange .txBuf s.txLen.toNat)))

/-! ## Host operations -/

/-- `OPEN` (spec/43_session.md R181): with the port open an error, with it closed the request to the transport and
then what its answer says; on an error no register changes. That a successful `OPEN` writes its code 1 to `REQ_OP`
(spec/10_state.md R21), which the pseudocode of R181 does not list, is the model's reading (log entry 23). -/
def Obligations.OpenAsksTransport : Prop :=
  ∀ s : State, s.sState = .idle →
    (s.opened = true → exec .hostOpen s = .next { s with outs := .done .errAlreadyOpen :: s.outs }) ∧
    (s.opened = false →
      exec .hostOpen s = .next
        (match s.openAnswer with
        | .ok => { s with
            reqOp := 1
            rxEnLine := false
            txEn := false
            pState := .seekPreamble
            opened := true
            outs := .done .opened :: .subscribe :: .cfgport 1200 .odd 8 1 :: s.outs }
        | .notExisting => { s with outs := .done .errNotExisting :: .cfgport 1200 .odd 8 1 :: s.outs }
        | .alreadyOpen => { s with outs := .done .errAlreadyOpen :: .cfgport 1200 .odd 8 1 :: s.outs }
        | .unknown => { s with outs := .done .errUnknown :: .cfgport 1200 .odd 8 1 :: s.outs }))

/-- `CLOSE` (spec/43_session.md R183): with the port closed an error that changes no register, with it open the end
of the session; the configuration and the lines keep their values. That a successful `CLOSE` writes its code 2 to
`REQ_OP` (spec/10_state.md R21), which the pseudocode of R183 does not list, is the model's reading (log entry 23). -/
def Obligations.CloseEndsSession : Prop :=
  ∀ s : State, s.sState = .idle →
    (s.opened = false → exec .hostClose s = .next { s with outs := .done .errNotOpen :: s.outs }) ∧
    (s.opened = true →
      exec .hostClose s = .next { s with
        reqOp := 2
        opened := false
        curAddrValid := false
        zeroDone := false
        handlerArmed := false
        respValid := false
        pState := .seekPreamble
        outs := .done .closed :: .release :: .unsubscribe :: s.outs })

/-- The four `CFGWR` operations (spec/43_session.md R184): any value is taken, open or closed. That they write their
code 5 to `REQ_OP` (spec/10_state.md R21), which the pseudocode of R184 does not list, is the model's reading (log
entry 23). -/
def Obligations.CfgwrWritesOneRegister : Prop :=
  ∀ s : State, s.sState = .idle →
    (∀ v, exec (.cfgwrPreamble v) s = .next { s with reqOp := 5, cfgPreamble := v, outs := .done .cfgOk :: s.outs }) ∧
    (∀ v, exec (.cfgwrMaxRetries v) s =
      .next { s with reqOp := 5, cfgMaxRetries := v, outs := .done .cfgOk :: s.outs }) ∧
    (∀ v, exec (.cfgwrTimeout v) s =
      .next { s with reqOp := 5, cfgTimeoutMs := v, outs := .done .cfgOk :: s.outs }) ∧
    (∀ v, exec (.cfgwrAutoZero v) s = .next { s with reqOp := 5, cfgAutoZero := v, outs := .done .cfgOk :: s.outs })

/-- `SEND` and `SENDZ` with the port closed (spec/43_session.md R202): `DONE(NONE)` at once, and nothing else changes.
That the request registers are not written either is the model's choice between R202 with spec/92_eei_decisions.md D18
and the first line of the pseudocode of R185 and R186 (log entry 22). -/
def Obligations.SendWhileClosedCompletesNone : Prop :=
  ∀ s : State, s.sState = .idle → s.opened = false →
    exec .hostSendz s = .next { s with outs := .done .none :: s.outs } ∧
    ∀ (cmd len : Byte) (data : List Byte), data.length = len.toNat →
      exec (.hostSend cmd len data) s = .next { s with outs := .done .none :: s.outs }

/-- `SEND` (spec/43_session.md R185): with the port open the request registers take the operands, and then starts the
zero command's exchange when automatic addressing asks for it first, else the exchange of the command that `BUILD` makes
(spec/40_codec.md R113), in long form exactly when an address is held. With the port closed it answers `DONE(NONE)` and
stores nothing: the model's choice between R202 and the pseudocode of R185 (log entry 22). The bytes of `REQ_DATA` and
`TXBUF` beyond what is stored are kept: the model's choice too (log entry 24). -/
def Obligations.SendStartsExchange : Prop :=
  ∀ (s : State) (cmd len : Byte) (data : List Byte), s.sState = .idle → data.length = len.toNat →
    (s.opened = false → exec (.hostSend cmd len data) s = .next { s with outs := .done .none :: s.outs }) ∧
    (s.opened = true → Memory.wf s.reqData = true → Memory.wf s.txBuf = true →
      ∃ t, exec (.hostSend cmd len data) s = .next t ∧ Stored s.reqData t.reqData 0 data ∧
        let u := { s with reqOp := 3, reqCmd := cmd, reqLen := len, reqData := t.reqData }
        (s.cfgAutoZero = true ∧ cmd ≠ 0 ∧ s.zeroDone = false →
          ExchangeStarted ⟨s.cfgPreamble, none, 0, [], []⟩ { u with sPhase := true } t) ∧
        (s.cfgAutoZero = false ∨ cmd = 0 ∨ s.zeroDone = true →
          ExchangeStarted ⟨s.cfgPreamble, if s.curAddrValid then some s.curAddr else none, cmd, [], data⟩
            { u with sPhase := false } t))

/-- `SENDZ` (spec/43_session.md R186): with the port open the zero command's exchange, never with an address. With the
port closed it answers `DONE(NONE)` and does not write `REQ_OP`: the model's choice between R202 and the pseudocode of
R186 (log entry 22). The frame that an exchange's start stores in `TXBUF` leaves the bytes beyond its length as they
were: the model's choice (log entry 24). -/
def Obligations.SendzStartsZeroExchange : Prop :=
  ∀ s : State, s.sState = .idle →
    (s.opened = false → exec .hostSendz s = .next { s with outs := .done .none :: s.outs }) ∧
    (s.opened = true → Memory.wf s.txBuf = true →
      ∃ t, exec .hostSendz s = .next t ∧
        ExchangeStarted ⟨s.cfgPreamble, none, 0, [], []⟩ { s with reqOp := 4, sPhase := false } t)

/-! ## Codec -/

/-- `ENCODE` (spec/40_codec.md R114) and the two request frame rows: preamble, delimiter, address, command, byte count,
data and checksum go to `TXBUF` from index 0, their number to `TX_LEN`, nothing else changes. The two delimiters are the
constants of log entry 7. R114 speaks of `ENCODE` alone: that the two rows encode their Command is the model's choice
(log entry 15). The bytes of `TXBUF` beyond the frame are kept: the model's choice too (log entry 24). -/
def Obligations.EncodeWritesFrame : Prop :=
  ∀ (s : State) (c : Command), Memory.wf s.txBuf = true → c.data.length ≤ 255 →
    let delim := if c.address.isSome then Config.delimReqLong else Config.delimReqShort
    let addr := (c.address.map Addr5.toList).getD []
    let body := [delim] ++ addr ++ [c.commandNumber] ++ [BitVec.ofNat 8 c.data.length] ++ c.data
    let frame := List.replicate c.preambleLength.toNat 0xFF ++ body ++ [body.foldl (· ^^^ ·) 0]
    ∃ t, exec (.encode c) s = .next t ∧ Stored s.txBuf t.txBuf 0 frame ∧
      t = { s with txBuf := t.txBuf, txLen := t.txLen } ∧ t.txLen.toNat = frame.length ∧
      (∀ a, c.address = some a → c.status = [] →
        exec (.reqLong c.preambleLength a c.commandNumber c.data) s = .next t) ∧
      (c.address = none → c.status = [] → exec (.reqShort c.preambleLength c.commandNumber c.data) s = .next t)

/-- The layout of `TXBUF` after `ENCODE`, offset by offset (spec/20_memory.md R61); the delimiter is one of the two
constants of log entry 7. -/
def Obligations.RequestFrameLayout : Prop :=
  ∀ (s : State) (c : Command), Memory.wf s.txBuf = true → c.data.length ≤ 255 →
    ∃ t, exec (.encode c) s = .next t ∧
      let p := c.preambleLength.toNat
      let a := if c.address.isSome then 5 else 0
      let n := c.data.length
      (∀ k, k < p → Memory.read t.txBuf k = 0xFF) ∧
      Memory.read t.txBuf p = (if c.address.isSome then Config.delimReqLong else Config.delimReqShort) ∧
      (∀ x, c.address = some x →
        Memory.read t.txBuf (p + 1) = x.b0 ∧ Memory.read t.txBuf (p + 2) = x.b1 ∧
        Memory.read t.txBuf (p + 3) = x.b2 ∧ Memory.read t.txBuf (p + 4) = x.b3 ∧
        Memory.read t.txBuf (p + 5) = x.b4) ∧
      Memory.read t.txBuf (p + 1 + a) = c.commandNumber ∧
      (Memory.read t.txBuf (p + 2 + a)).toNat = n ∧
      (∀ k, k < n → some (Memory.read t.txBuf (p + 3 + a + k)) = c.data[k]?) ∧
      Memory.read t.txBuf (p + 3 + a + n) = xor8 (Memory.readBytes t.txBuf p (3 + a + n)) ∧
      t.txLen.toNat = p + a + n + 4

/-- `XOR8` and its corner cases (spec/40_codec.md R111): flipping bits of one byte flips the same bits of the result. -/
def Obligations.ChecksumLaws : Prop :=
  (∀ s, xor8 s = s.foldl (· ^^^ ·) 0x00) ∧ xor8 [] = 0 ∧ (∀ v, xor8 [v] = v) ∧
  (∀ s, xor8 (s ++ [xor8 s]) = 0) ∧
  (∀ s s', List.Perm s s' → xor8 s = xor8 s') ∧
  (∀ s i m, i < s.length → xor8 (s.set i (s.getD i 0 ^^^ m)) = xor8 s ^^^ m)

/-- The operations that return a value and write no register: the value is the rule's (spec/40_codec.md R111 to R113,
spec/43_session.md R196), the field that takes it is the model's (log entry 6). -/
def Obligations.ValueOperationsReturn : Prop :=
  ∀ s : State,
    (∀ bytes, exec (.xor8 bytes) s = .next { s with ret := .byte (bytes.foldl (· ^^^ ·) 0) }) ∧
    exec .zero s = .next { s with ret := .command ⟨s.cfgPreamble, none, 0, [], []⟩ } ∧
    exec .build s = .next { s with
      ret := .command ⟨s.cfgPreamble, if s.curAddrValid then some s.curAddr else none, s.reqCmd, [],
        Memory.readBytes s.reqData 0 s.reqLen.toNat⟩ } ∧
    (∀ b, exec (.flags b) s = .next { s with
      ret := .flags ⟨b.getLsbD 6, b.getLsbD 5, b.getLsbD 4, b.getLsbD 3, b.getLsbD 1⟩ }) ∧
    (∀ n, exec (.holdMs n) s = .next { s with ret := .duration ((91525 * n + 10000 - 1) / 10000 + 50) })

/-- `DECODE` (spec/40_codec.md R116). -/
def Obligations.DecodeReturnsParserRegisters : Prop :=
  ∀ s : State, 2 ≤ s.pBc.toNat →
    exec .decode s = .next { s with
      ret := .result ⟨if s.pLong then some s.pAddr else none, s.pCmd, s.pStatus,
        Memory.readBytes s.pData 0 (s.pBc.toNat - 2)⟩ }

/-! ## Parser -/

/-- `SeekPreamble` and `ReadDelimiter` (spec/41_parser.md R133, R134); `is_long` is the test of log entry 7. -/
def Obligations.SeekPreambleTakesDelimiter : Prop :=
  ∀ s : State,
    exec (.rxSeekPreamble 0xFF) s = .next s ∧
    (∀ b : Byte, b ≠ 0xFF →
      ∃ t, exec (.rxSeekPreamble b) s = .next t ∧ exec (.rxReadDelimiter b) s = .next t ∧
        t = { s with
          pDelim := b
          pXor := b
          pLong := Config.isLong b
          pCnt := 0
          pState := if Config.isLong b then .readAddress else .readCommand })

/-- The five delimiter rows (spec/30_encoding.md R85): a received delimiter acts in `SeekPreamble`, a transmitted one is
the byte the encoder takes. The model's choice (log entries 7 and 15). -/
def Obligations.DelimiterRows : Prop :=
  ∀ s : State,
    exec .delimPreamble s = .next s ∧
    (∀ x : BitVec 7, x ≠ 0x7F →
      exec (.delimLong x) s = .next { s with
        pDelim := 1#1 ++ x
        pXor := 1#1 ++ x
        pLong := true
        pCnt := 0
        pState := .readAddress }) ∧
    (∀ x : BitVec 7,
      exec (.delimShort x) s = .next { s with
        pDelim := 0#1 ++ x
        pXor := 0#1 ++ x
        pLong := false
        pCnt := 0
        pState := .readCommand }) ∧
    exec .delimReqLong s = .next { s with ret := .byte 0x82 } ∧
    exec .delimReqShort s = .next { s with ret := .byte 0x02 }

/-- `ReadAddress` (spec/41_parser.md R135). `P_CNT` stays 5 after the fifth byte, as the pseudocode leaves it; the table
of V20 shows it cleared (log entry 12). -/
def Obligations.ReadAddressAccumulates : Prop :=
  ∀ (s : State) (b : Byte), s.pCnt.toNat < 5 →
    ∃ t, exec (.rxReadAddress b) s = .next t ∧ t.pAddr.toList = s.pAddr.toList.set s.pCnt.toNat b ∧
      t = { s with
        pAddr := t.pAddr
        pXor := s.pXor ^^^ b
        pCnt := s.pCnt + 1
        pState := if s.pCnt = 4 then .readCommand else s.pState }

/-- `ReadCommand` and `ReadByteCount` (spec/41_parser.md R136, R137). -/
def Obligations.ReadCommandAndByteCount : Prop :=
  ∀ (s : State) (b : Byte),
    exec (.rxReadCommand b) s = .next { s with pCmd := b, pXor := s.pXor ^^^ b, pState := .readByteCount } ∧
    (b.toNat < 2 → exec (.rxReadByteCount b) s =
      .next { s with pBc := b, pXor := s.pXor ^^^ b, pState := .seekPreamble }) ∧
    (2 ≤ b.toNat → exec (.rxReadByteCount b) s =
      .next { s with pBc := b, pXor := s.pXor ^^^ b, pCnt := 0, pState := .readStatus })

/-- `ReadStatus` (spec/41_parser.md R138). -/
def Obligations.ReadStatusAccumulates : Prop :=
  ∀ (s : State) (b : Byte),
    (s.pCnt = 0 → exec (.rxReadStatus b) s = .next { s with
      pStatus := ⟨b, s.pStatus.s1⟩
      pXor := s.pXor ^^^ b
      pCnt := 1 }) ∧
    (s.pCnt = 1 → exec (.rxReadStatus b) s = .next { s with
      pStatus := ⟨s.pStatus.s0, b⟩
      pXor := s.pXor ^^^ b
      pCnt := 0
      pState := if s.pBc = 2 then .readChecksum else .readData })

/-- `ReadData` (spec/41_parser.md R139). The bytes of `P_DATA` beyond the new one are kept: the model's choice (log
entry 24). -/
def Obligations.ReadDataAccumulates : Prop :=
  ∀ (s : State) (b : Byte), Memory.wf s.pData = true → 2 ≤ s.pBc.toNat → s.pCnt.toNat < 253 →
    ∃ t, exec (.rxReadData b) s = .next t ∧ Stored s.pData t.pData s.pCnt.toNat [b] ∧
      t = { s with
        pData := t.pData
        pXor := s.pXor ^^^ b
        pCnt := s.pCnt + 1
        pState := if s.pCnt.toNat + 1 = s.pBc.toNat - 2 then .readChecksum else s.pState }

/-- `ReadChecksum` and `Complete` (spec/41_parser.md R140, R141): a match notifies the decoded frame once and
resets the parser; a mismatch only resets it. The reset writes `P_STATE` alone; the table of V20 shows `P_CNT` and
`P_XOR` cleared too (log entry 12). -/
def Obligations.ChecksumDecidesNotification : Prop :=
  ∀ (s : State) (b : Byte),
    (b ≠ s.pXor → exec (.rxReadChecksum b) s = .next { s with pState := .seekPreamble }) ∧
    (2 ≤ s.pBc.toNat →
      ∃ u, exec (.notify ⟨if s.pLong then some s.pAddr else none, s.pCmd, s.pStatus,
          Memory.readBytes s.pData 0 (s.pBc.toNat - 2)⟩) s = .next u ∧
        exec .rxComplete s = .next { u with pState := .seekPreamble }) ∧
    (b = s.pXor → 2 ≤ s.pBc.toNat →
      ∃ t, exec .rxComplete { s with pState := .complete } = .next t ∧
        exec (.rxReadChecksum b) s = .next t)

/-- `RXBYTE` (spec/41_parser.md R131): with the port open and the invariants of spec/10_state.md R51, the log event
and then the handler of the parser's state. -/
def Obligations.RxbyteRunsParserState : Prop :=
  ∀ (s : State) (b : Byte), s.opened = true → s.parserInv → s.sizeInv →
    ∃ t, exec (parserRow s.pState b) { s with outs := .evRxdump [b] :: s.outs } = .next t ∧
      exec (.rxbyte b) s = .next t

/-- `NOTIFY` (spec/41_parser.md R142): learning, then the latch if armed and clear, then the wake-up if waiting. The
bytes of `RES_DATA` beyond the frame's data are kept: the model's choice (log entry 24). -/
def Obligations.NotifyLearnsLatchesWakes : Prop :=
  ∀ (s : State) (f : CommandResult), Memory.wf s.resData = true → f.data.length ≤ 253 →
    ∃ u v t,
      (if f.commandNumber = 0 then exec (.learn f) s = .next u else u = s) ∧
      (if u.handlerArmed = true ∧ u.respValid = false then
        Stored u.resData v.resData 0 f.data ∧
        v = { u with
          resLong := f.address.isSome
          resAddr := f.address.getD u.resAddr
          resCmd := f.commandNumber
          resStatus := f.responseCode
          resLen := v.resLen
          resData := v.resData
          respValid := true } ∧
        v.resLen.toNat = f.data.length
      else v = u) ∧
      (if v.sState = .wait ∧ v.respValid = true then exec .resolve v = .next t else t = v) ∧
      exec (.notify f) s = .next t

/-- `LEARN` (spec/43_session.md R198). -/
def Obligations.LearnTakesFiveBytes : Prop :=
  ∀ (s : State) (f : CommandResult),
    (12 ≤ f.data.length → exec (.learn f) s = .next { s with
      curAddr := ⟨f.data.getD 1 0 ||| 0x80, f.data.getD 2 0, f.data.getD 9 0, f.data.getD 10 0, f.data.getD 11 0⟩
      curAddrValid := true
      zeroDone := true }) ∧
    (f.data.length < 12 → exec (.learn f) s = .next s)

/-- The eleven completion codes (spec/30_encoding.md R98): the event and nothing else (log entry 15). -/
def Obligations.CompletionCodesEmit : Prop :=
  ∀ s : State,
    exec .doneOpened s = .next { s with outs := .done .opened :: s.outs } ∧
    exec .doneClosed s = .next { s with outs := .done .closed :: s.outs } ∧
    exec .doneSuccess s = .next { s with outs := .done .success :: s.outs } ∧
    exec .doneCommfault s = .next { s with outs := .done .commfault :: s.outs } ∧
    exec .doneNone s = .next { s with outs := .done .none :: s.outs } ∧
    exec .doneCfgOk s = .next { s with outs := .done .cfgOk :: s.outs } ∧
    exec .doneErrNotExisting s = .next { s with outs := .done .errNotExisting :: s.outs } ∧
    exec .doneErrAlreadyOpen s = .next { s with outs := .done .errAlreadyOpen :: s.outs } ∧
    exec .doneErrUnknown s = .next { s with outs := .done .errUnknown :: s.outs } ∧
    exec .doneErrNotOpen s = .next { s with outs := .done .errNotOpen :: s.outs } ∧
    exec .doneBadop s = .next { s with outs := .done .badop :: s.outs }

/-! ## Turnaround -/

/-- `TICK` in `IDLE`, `SETTLE` and `WRITE` (spec/42_turnaround.md R160, R163). -/
def Obligations.TickSettlesThenKeysUp : Prop :=
  ∀ s : State,
    exec .tickIdle s = .next s ∧
    exec .tickWrite s = .next { s with sTxElapsed := BitVec.ofNat 16 (nextMs s.sTxElapsed) } ∧
    (nextMs s.sElapsed < 100 →
      exec .tickSettle s = .next { s with sElapsed := BitVec.ofNat 16 (nextMs s.sElapsed) }) ∧
    (100 ≤ nextMs s.sElapsed →
      exec .tickSettle s = .next { s with txEn := true, sState := .guard, sElapsed := 0 })

/-- `START_WRITE`, `TXWRITE` and `TICK` in `GUARD` (spec/42_turnaround.md R160, R164, R165): the frame of `TXBUF`
is written once, and the hold target is that of its length. -/
def Obligations.GuardEndsWithTheWrite : Prop :=
  ∀ s : State, s.txLen.toNat ≤ 519 →
    let frame := Memory.readBytes s.txBuf 0 s.txLen.toNat
    exec .txwrite s = .next { s with outs := .txwrite frame :: s.outs } ∧
    (∃ t, exec .startWrite s = .next t ∧ t.sHoldTarget.toNat = holdMs s.txLen.toNat ∧
      t = { s with
        sTxElapsed := 0
        sHoldTarget := t.sHoldTarget
        sState := .write
        outs := .evTxdump frame :: .txwrite frame :: s.outs }) ∧
    (nextMs s.sElapsed < 5 →
      exec .tickGuard s = .next { s with sElapsed := BitVec.ofNat 16 (nextMs s.sElapsed) }) ∧
    (5 ≤ nextMs s.sElapsed →
      ∃ t, exec .startWrite { s with sElapsed := BitVec.ofNat 16 (nextMs s.sElapsed) } = .next t ∧
        exec .tickGuard s = .next t)

/-- `TICK` in `HOLD`, the row `HOLD`, and `TXDONE` in `WRITE` (spec/42_turnaround.md R160, R166, R167): the line is
released, and the wait entered, once the hold target is reached. -/
def Obligations.HoldEndsAtItsTarget : Prop :=
  ∀ s : State,
    (nextMs s.sTxElapsed < s.sHoldTarget.toNat →
      exec .tickHold s = .next { s with sTxElapsed := BitVec.ofNat 16 (nextMs s.sTxElapsed) } ∧
      exec .hold s = .next { s with sTxElapsed := BitVec.ofNat 16 (nextMs s.sTxElapsed) }) ∧
    (s.sHoldTarget.toNat ≤ nextMs s.sTxElapsed →
      ∃ t, exec .enterWait { s with sTxElapsed := BitVec.ofNat 16 (nextMs s.sTxElapsed), txEn := false } = .next t ∧
        exec .tickHold s = .next t ∧ exec .hold s = .next t) ∧
    (s.sState = .write → s.sTxElapsed.toNat < s.sHoldTarget.toNat →
      exec .txdone s = .next { s with sState := .hold }) ∧
    (s.sState = .write → s.sHoldTarget.toNat ≤ s.sTxElapsed.toNat →
      ∃ t, exec .enterWait { s with txEn := false } = .next t ∧ exec .txdone s = .next t)

/-- `TICK` in `WAIT` and `TIMEOUT` (spec/42_turnaround.md R160, spec/43_session.md R193). The frame that an exchange's
start stores in `TXBUF` leaves the bytes beyond its length as they were: the model's choice (log entry 24). -/
def Obligations.WaitTimesOut : Prop :=
  ∀ s : State, Memory.wf s.txBuf = true →
    (∃ t, exec .timeout s = .next t ∧ AttemptRetried .none { s with handlerArmed := false } t) ∧
    (nextMs s.sElapsed < s.cfgTimeoutMs.toNat →
      exec .tickWait s = .next { s with sElapsed := BitVec.ofNat 16 (nextMs s.sElapsed) }) ∧
    (s.cfgTimeoutMs.toNat ≤ nextMs s.sElapsed →
      ∃ t, exec .timeout { s with sElapsed := BitVec.ofNat 16 (nextMs s.sElapsed) } = .next t ∧
        exec .tickWait s = .next t)

/-- `TICK` (spec/42_turnaround.md R160): the row that `S_STATE` selects, and what it does in each state. -/
def Obligations.TickHandlesSequencerState : Prop :=
  ∀ s : State, s.txLen.toNat ≤ 519 →
    let e := { s with sElapsed := BitVec.ofNat 16 (min (s.sElapsed.toNat + 1) 65535) }
    let x := { s with sTxElapsed := BitVec.ofNat 16 (min (s.sTxElapsed.toNat + 1) 65535) }
    ∃ t, exec .tick s = .next t ∧ exec (sequencerRow s.sState) s = .next t ∧
      match s.sState with
      | .idle => t = s
      | .settle => if 100 ≤ e.sElapsed.toNat then exec .keyup e = .next t else t = e
      | .guard => if 5 ≤ e.sElapsed.toNat then exec .startWrite e = .next t else t = e
      | .write => t = x
      | .hold =>
          if x.sHoldTarget.toNat ≤ x.sTxElapsed.toNat then exec .enterWait { x with txEn := false } = .next t
          else t = x
      | .wait => if e.cfgTimeoutMs.toNat ≤ e.sElapsed.toNat then exec .timeout e = .next t else t = e

/-- `ARM`, `TX_BEGIN`, `KEYUP`, `UNKEY`, `PARSER_RESET` (spec/43_session.md R189, spec/42_turnaround.md R162, R163,
R168, spec/41_parser.md R132). The parser reset writes `P_STATE` alone; the table of V20 shows `P_CNT` and `P_XOR`
cleared too (log entry 12). -/
def Obligations.AttemptPrimitives : Prop :=
  ∀ s : State,
    exec .arm s = .next { s with
      handlerArmed := true
      respValid := false
      pState := .seekPreamble
      sState := .settle
      sElapsed := 0 } ∧
    exec .txBegin s = .next { s with sState := .settle, sElapsed := 0 } ∧
    exec .keyup s = .next { s with txEn := true, sState := .guard, sElapsed := 0 } ∧
    exec .unkey s = .next { s with txEn := false } ∧
    exec .parserReset s = .next { s with pState := .seekPreamble }

/-- `HOLD_MS` is a true ceiling (spec/42_turnaround.md R161), and its values lie between 87 and 4801. -/
def Obligations.HoldTimeIsCeiling : Prop :=
  (∀ n h, holdMs n = h + 50 ↔ 91525 * n ≤ 10000 * h ∧ 10000 * h < 91525 * n + 10000) ∧
  (∀ n, 4 ≤ n → n ≤ 519 → 87 ≤ holdMs n ∧ holdMs n ≤ 4801) ∧
  holdMs 4 = 87 ∧ holdMs 14 = 179 ∧ holdMs 19 = 224 ∧ holdMs 20 = 234 ∧ holdMs 28 = 307 ∧ holdMs 519 = 4801

/-! ## The request/response protocol -/

/-- `RETRY_OR` (spec/43_session.md R195), with each of its two codes. The frame that an exchange's start stores in
`TXBUF` leaves the bytes beyond its length as they were: the model's choice (log entry 24). -/
def Obligations.RetryDecision : Prop :=
  ∀ s : State, Memory.wf s.txBuf = true →
    (∃ t, exec (.retryOr .none) s = .next t ∧ AttemptRetried .none s t) ∧
    (∃ t, exec (.retryOr .commfault) s = .next t ∧ AttemptRetried .commfault s t)

/-- `FINISH` (spec/43_session.md R197, R187): each of its three codes is emitted as the completion code of its name
(spec/30_encoding.md R98); after the automatic zero exchange none is, and the requested command's exchange starts. The
frame that an exchange's start stores in `TXBUF` leaves the bytes beyond its length as they were: the model's choice
(log entry 24). -/
def Obligations.FinishEndsExchange : Prop :=
  ∀ s : State,
    (s.sPhase = false →
      exec (.finish .success) s = .next { s with sState := .idle, outs := .done .success :: s.outs } ∧
      exec (.finish .commfault) s = .next { s with sState := .idle, outs := .done .commfault :: s.outs } ∧
      exec (.finish .none) s = .next { s with sState := .idle, outs := .done .none :: s.outs }) ∧
    (s.sPhase = true → Memory.wf s.txBuf = true → ∀ code,
      ∃ t, exec (.finish code) s = .next t ∧
        ExchangeStarted ⟨s.cfgPreamble, if s.curAddrValid then some s.curAddr else none, s.reqCmd, [],
          Memory.readBytes s.reqData 0 s.reqLen.toNat⟩ { s with sPhase := false } t)

/-- `EXCHANGE` (spec/43_session.md R188). The frame that an exchange's start stores in `TXBUF` leaves the bytes beyond
its length as they were: the model's choice (log entry 24). -/
def Obligations.ExchangeArmsFirstAttempt : Prop :=
  ∀ (s : State) (c : Command), Memory.wf s.txBuf = true → c.data.length ≤ 255 →
    ∃ t, exec (.exchange c) s = .next t ∧ ExchangeStarted c s t ∧ t.txLen.toNat = (requestFrame c).length

/-- `ENTER_WAIT` (spec/43_session.md R191): the latch before the timeout. -/
def Obligations.EnterWaitTestsLatchFirst : Prop :=
  ∀ s : State,
    let u := { s with sState := .wait, sElapsed := 0 }
    (s.respValid = true → ∃ t, exec .resolve u = .next t ∧ exec .enterWait s = .next t) ∧
    (s.respValid = false → s.cfgTimeoutMs = 0 → ∃ t, exec .timeout u = .next t ∧ exec .enterWait s = .next t) ∧
    (s.respValid = false → s.cfgTimeoutMs ≠ 0 → exec .enterWait s = .next u)

/-- `RESOLVE` and `CLASSIFY` (spec/43_session.md R192, R194, R196), and the two rows of the first status byte. The rules
speak of `RES_STATUS[0]` alone: that the rows classify the byte they carry is the model's choice (log entry 15), stated
here where that register holds the byte. The frame that an exchange's start stores in `TXBUF` leaves the bytes beyond
its length as they were: the model's choice (log entry 24). -/
def Obligations.FirstStatusByteDecides : Prop :=
  ∀ s : State, Memory.wf s.txBuf = true →
    (∃ t, exec .classify { s with handlerArmed := false } = .next t ∧ exec .resolve s = .next t) ∧
    (∀ b, s.resStatus.s0 = b → b.getLsbD 7 = true →
      ∃ t, exec .classify s = .next t ∧ exec (.status1Comm (b.extractLsb' 0 7)) s = .next t ∧
        AttemptRetried .commfault
          { s with
            outs := .evCommfault
              ⟨b.getLsbD 6, b.getLsbD 5, b.getLsbD 4, b.getLsbD 3, b.getLsbD 1⟩ :: s.outs } t) ∧
    (∀ b, s.resStatus.s0 = b → b.getLsbD 7 = false →
      ∃ t, exec .classify s = .next t ∧ exec (.status1CmdSpecific (b.extractLsb' 0 7)) s = .next t ∧
        ExchangeFinished .success s t)

/-- `XFAULT` during an attempt (spec/60_exceptions.md R226): the line is released, the handler disarmed, then the retry
decision. The frame that an exchange's start stores in `TXBUF` leaves the bytes beyond its length as they were: the
model's choice (log entry 24). -/
def Obligations.XfaultEndsAttempt : Prop :=
  ∀ s : State, Memory.wf s.txBuf = true → s.sState ≠ .idle →
    ∃ t, exec .xfault s = .next t ∧ AttemptRetried .none { s with txEn := false, handlerArmed := false } t

/-! ## The whole machine -/

/-- The invariants of spec/10_state.md R51, with what they need, are kept by every step from every state. -/
def Obligations.InvariantKeptByEveryStep : Prop :=
  ∀ s t : State, s.Inv → step s = .next t → t.Inv

/-- With the invariants, an event that has a step (spec/60_exceptions.md R229) never stops the block: no fault and no
refusal (spec/60_exceptions.md R228). A byte received with the port closed and `XFAULT` in `IDLE` have no step in the
spec, and the model ignores them (log entry 8); with no event listed the model's step is a `TICK` (log entry 3). -/
def Obligations.NoFatalPath : Prop :=
  ∀ s : State, s.Inv → (∀ e rest, s.schedule = e :: rest → enabled e s) → ∃ t, step s = .next t

/-- The round trip (spec/40_codec.md R118): the bytes of a response frame, fed to the open block from `SeekPreamble`,
give exactly one notification, with exactly the fields the frame was built from. `P_CNT` and `P_XOR` keep their last
values at the parser's reset; the table of V20 shows them cleared (log entry 12). The bytes of `P_DATA` beyond the
frame's data are kept: the model's choice (log entry 24). -/
def Obligations.ResponseFrameRoundTrip : Prop :=
  ∀ (s : State) (pre : Nat) (delim : Byte) (f : CommandResult) (rest : List Input),
    let body := [delim] ++ (f.address.map Addr5.toList).getD [] ++
      [f.commandNumber] ++ [BitVec.ofNat 8 (f.data.length + 2)] ++ [f.responseCode.s0, f.responseCode.s1] ++ f.data
    let frame := List.replicate pre 0xFF ++ body ++ [xor8 body]
    s.opened = true → s.pState = .seekPreamble → Memory.wf s.pData = true → f.data.length ≤ 253 → delim ≠ 0xFF →
    f.address.isSome = Config.isLong delim → s.schedule = frame.map Input.rxbyte ++ rest →
      ∃ u v : State,
        exec (.notify f) u = .next v ∧
        Host.Core.run Sys2Proof.core frame.length s = .next { v with pState := .seekPreamble } ∧
        Stored s.pData u.pData 0 f.data ∧ u.pBc.toNat = f.data.length + 2 ∧
        u = { s with
          pDelim := delim
          pLong := f.address.isSome
          pAddr := f.address.getD s.pAddr
          pCmd := f.commandNumber
          pBc := u.pBc
          pStatus := f.responseCode
          pData := u.pData
          pCnt := BitVec.ofNat 8 f.data.length
          pXor := xor8 body
          pState := .complete
          schedule := rest
          outs := rxDumps frame ++ s.outs }

/-- The two response frame rows (spec/30_encoding.md R83, R84): the frame's bytes arrive one after another, the model's
meaning of these rows (log entry 15); from an open block that seeks a preamble the row completes. -/
def Obligations.ResponseRowsDeliverTheirBytes : Prop :=
  ∀ (s : State) (pre : Nat) (cmd : Byte) (st : Status2) (data : List Byte), data.length ≤ 253 →
    (∀ (x : BitVec 7) (a : Addr5),
      let frame := responseFrame pre (1#1 ++ x) ⟨some a, cmd, st, data⟩
      exec (.rspLong pre x a cmd st data) s =
        Host.Core.run Sys2Proof.core frame.length { s with schedule := frame.map Input.rxbyte ++ s.schedule } ∧
      (s.opened = true → s.pState = .seekPreamble → x ≠ 0x7F →
        ∃ t, exec (.rspLong pre x a cmd st data) s = .next t ∧ t.pState = .seekPreamble ∧ t.pStatus = st)) ∧
    (∀ x : BitVec 7,
      let frame := responseFrame pre (0#1 ++ x) ⟨none, cmd, st, data⟩
      exec (.rspShort pre x cmd st data) s =
        Host.Core.run Sys2Proof.core frame.length { s with schedule := frame.map Input.rxbyte ++ s.schedule } ∧
      (s.opened = true → s.pState = .seekPreamble →
        ∃ t, exec (.rspShort pre x cmd st data) s = .next t ∧ t.pState = .seekPreamble ∧ t.pStatus = st))

/-- A response frame with one byte after the byte count replaced (a status byte, a data byte or the checksum) gives
no notification: only parser registers change and the parser seeks the next preamble (spec/41_parser.md R140). -/
def Obligations.CorruptedFrameDropped : Prop :=
  ∀ (s : State) (pre : Nat) (delim : Byte) (f : CommandResult) (i : Nat) (v : Byte) (rest : List Input),
    let frame := responseFrame pre delim f
    let bad := frame.set i v
    s.opened = true → s.pState = .seekPreamble → f.data.length ≤ 253 → delim ≠ 0xFF →
    f.address.isSome = delim.getLsbD 7 →
    pre + 3 + (if f.address.isSome then 5 else 0) ≤ i → i < frame.length → frame[i]? ≠ some v →
    s.schedule = bad.map Input.rxbyte ++ rest →
      ∃ t : State, Host.Core.run Sys2Proof.core bad.length s = .next t ∧
        t = { s with
          pDelim := t.pDelim
          pLong := t.pLong
          pAddr := t.pAddr
          pCmd := t.pCmd
          pBc := t.pBc
          pStatus := t.pStatus
          pData := t.pData
          pCnt := t.pCnt
          pXor := t.pXor
          pState := .seekPreamble
          schedule := rest
          outs := rxDumps bad ++ s.outs }

/-- An attempt in which nothing is received and whose write takes `w` ms reaches `TIMEOUT` after exactly
100 + 5 + max(HOLD_MS(TX_LEN), w) + CFG_TIMEOUT_MS ticks, having written the frame of `TXBUF` once and released
the line (spec/42_turnaround.md R172). -/
def Obligations.SilentAttemptDuration : Prop :=
  ∀ (s : State) (w : Nat) (rest : List Input),
    let frame := Memory.readBytes s.txBuf 0 s.txLen.toNat
    let events := silentAttempt w s.txLen.toNat s.cfgTimeoutMs.toNat
    s.sState = .settle → s.sElapsed = 0 → s.respValid = false → s.txLen.toNat ≤ 519 →
    s.schedule = events ++ rest →
      (events.filter (· = Input.tick)).length = 100 + 5 + max (holdMs s.txLen.toNat) w + s.cfgTimeoutMs.toNat ∧
      ∃ u t : State,
        Host.Core.run Sys2Proof.core events.length s = .next t ∧ exec .timeout u = .next t ∧
        u = { s with
          sState := .wait
          txEn := false
          sElapsed := s.cfgTimeoutMs
          sTxElapsed := u.sTxElapsed
          sHoldTarget := u.sHoldTarget
          schedule := rest
          outs := .evTxdump frame :: .txwrite frame :: s.outs } ∧
        u.sHoldTarget.toNat = holdMs s.txLen.toNat

/-- A silent line: `SENDZ` makes exactly `CFG_MAXRETRIES + 1` attempts, each writing the same zero command, and then
completes with `NONE` (spec/43_session.md R201, spec/90_conflicts.md C13). -/
def Obligations.SilentLineAttemptCount : Prop :=
  ∀ (s : State) (w : Nat) (rest : List Input),
    let frame := requestFrame ⟨s.cfgPreamble, none, 0, [], []⟩
    let attempts := s.cfgMaxRetries.toNat + 1
    let events := Input.hostop 0x00000004 [] ::
      (List.replicate attempts (silentAttempt w frame.length s.cfgTimeoutMs.toNat)).flatten
    s.sState = .idle → s.opened = true → Memory.wf s.txBuf = true → s.schedule = events ++ rest →
      ∃ t : State, Host.Core.run Sys2Proof.core events.length s = .next t ∧
        t.outs = .done .none ::
          ((List.replicate attempts [Output.evTxdump frame, Output.txwrite frame]).flatten ++ s.outs) ∧
        t.sState = .idle ∧ t.txEn = false ∧ t.handlerArmed = false ∧ t.retryBudget = 0 ∧
        t.schedule = rest ∧ t.curAddr = s.curAddr ∧ t.curAddrValid = s.curAddrValid ∧ t.zeroDone = s.zeroDone

/-- Chunk invariance (spec/41_parser.md R143, spec/20_memory.md R66): chunks delivered one after another do what their
bytes in one chunk do, however they are cut, and delivery as events is delivery as a chunk. What it rests on
(spec/41_parser.md R130): the parser registers after a byte depend on the parser registers before it and the byte alone. -/
def Obligations.ChunkBoundariesUnobservable : Prop :=
  (∀ (chunks : List (List Byte)) (s : State),
    chunks.foldl (fun r chunk => andThen r (receiveBytes chunk)) (.next s) = receiveBytes chunks.flatten s) ∧
  (∀ (bytes : List Byte) (rest : List Input) (s : State), s.schedule = bytes.map Input.rxbyte ++ rest →
    Host.Core.run Sys2Proof.core bytes.length s = receiveBytes bytes { s with schedule := rest }) ∧
  (∀ (b : Byte) (s s' t : State), s.opened = true → s'.opened = true → SameParser s s' →
    exec (.rxbyte b) s = .next t → ∃ t', exec (.rxbyte b) s' = .next t' ∧ SameParser t t')

/-- The configuration registers are written only by their own `CFGWR`, and no step makes the receiver-enable line
active (spec/10_state.md R24 to R27, R45). -/
def Obligations.ConfigurationWrittenOnlyByCfgwr : Prop :=
  ∀ s t : State, step s = .next t →
    (t.cfgPreamble = s.cfgPreamble ∨
      ∃ w bytes rest, s.schedule = .hostop w bytes :: rest ∧ decodeHostOp w = some (.cfgPreamble t.cfgPreamble)) ∧
    (t.cfgMaxRetries = s.cfgMaxRetries ∨
      ∃ w bytes rest, s.schedule = .hostop w bytes :: rest ∧ decodeHostOp w = some (.cfgMaxRetries t.cfgMaxRetries)) ∧
    (t.cfgTimeoutMs = s.cfgTimeoutMs ∨
      ∃ w bytes rest, s.schedule = .hostop w bytes :: rest ∧ decodeHostOp w = some (.cfgTimeout t.cfgTimeoutMs)) ∧
    (t.cfgAutoZero = s.cfgAutoZero ∨
      ∃ w bytes rest, s.schedule = .hostop w bytes :: rest ∧ decodeHostOp w = some (.cfgAutoZero t.cfgAutoZero)) ∧
    (s.rxEnLine = false → t.rxEnLine = false)

/-- The address and its two flags are written only by a received byte (learning) and cleared only by `CLOSE`
(spec/10_state.md R29, R32). -/
def Obligations.AddressWrittenOnlyByLearning : Prop :=
  ∀ s t : State, step s = .next t →
    (t.curAddr = s.curAddr ∨ ∃ b rest, s.schedule = .rxbyte b :: rest ∧ t.curAddrValid = true ∧ t.zeroDone = true) ∧
    (s.curAddrValid = true → t.curAddrValid = true ∨
      ∃ w bytes rest, s.schedule = .hostop w bytes :: rest ∧ decodeHostOp w = some .opClose) ∧
    (s.zeroDone = true → t.zeroDone = true ∨
      ∃ w bytes rest, s.schedule = .hostop w bytes :: rest ∧ decodeHostOp w = some .opClose) ∧
    ((s.curAddrValid = false ∧ t.curAddrValid = true) → ∃ b rest, s.schedule = .rxbyte b :: rest) ∧
    ((s.zeroDone = false ∧ t.zeroDone = true) → ∃ b rest, s.schedule = .rxbyte b :: rest)

/-- Within one exchange the frame in `TXBUF` never changes, so a retry sends the same bytes (spec/20_memory.md R75): in
the exchange of a requested command, and in the automatic zero exchange as long as it lasts (spec/43_session.md R187). -/
def Obligations.RetrySendsTheSameBytes : Prop :=
  ∀ s t : State, step s = .next t → s.sPhase = false ∨ t.sPhase = true →
    (∀ w bytes rest, s.schedule ≠ .hostop w bytes :: rest) →
      t.txBuf = s.txBuf ∧ t.txLen = s.txLen

/-- The result registers are written only by a received byte, while the handler is armed and the latch is clear
(spec/10_state.md R23): a second frame of an attempt does not replace the first. -/
def Obligations.ResultsWrittenOnlyWhileArmed : Prop :=
  ∀ s t : State, step s = .next t →
    (t.resLong = s.resLong ∧ t.resAddr = s.resAddr ∧ t.resCmd = s.resCmd ∧ t.resStatus = s.resStatus ∧
      t.resLen = s.resLen ∧ t.resData = s.resData) ∨
    (s.handlerArmed = true ∧ s.respValid = false ∧ ∃ b rest, s.schedule = .rxbyte b :: rest)

/-- The block puts bytes on the TX stream only when the guard ends, the frame of `TXBUF` once, with the line keyed
(spec/42_turnaround.md R165). -/
def Obligations.TransmitsOnlyWhileKeyed : Prop :=
  ∀ s t : State, s.Inv → step s = .next t →
    txStream t = txStream s ∨
    (s.sState = .guard ∧ t.sState = .write ∧ t.txEn = true ∧
      txStream t = txStream s ++ Memory.readBytes s.txBuf 0 s.txLen.toNat)

/-- The events of one clock cycle join the schedule in the order of spec/60_exceptions.md R231, none lost or added, in
arrival order within a kind, and step handles the schedule from its head. Where the sampled answer stands is the model's
choice (log entry 19). -/
def Obligations.CycleEventsInOrder : Prop :=
  (∀ a, eventRank (.openAnswer a) = 0) ∧ (∀ b, eventRank (.rxbyte b) = 1) ∧ eventRank .txdone = 2 ∧
  eventRank .xfault = 3 ∧ eventRank .tick = 4 ∧ (∀ w bytes, eventRank (.hostop w bytes) = 5) ∧
  ∀ (es : List Input) (s : State), ∃ l,
    offerCycle es s = { s with schedule := s.schedule ++ l } ∧ List.Perm l es ∧
    l.Pairwise (fun a b => eventRank a ≤ eventRank b) ∧
    (∀ k, l.filter (fun e => eventRank e = k) = es.filter (fun e => eventRank e = k)) ∧
    (∀ e rest, s.schedule ++ l = e :: rest →
      (∀ i, eventInstr e = some i → step (offerCycle es s) = exec i { s with schedule := rest }) ∧
      (∀ t, step (offerCycle es s) = .next t → t.schedule = rest))
end

