-- ==== Sys2Proof/Laws/Events.lean ====
section
/-! SUPPORT. The events of one clock cycle: putting them in order keeps every event, sorts them by rank and leaves
those of one rank in arrival order. -/

namespace Sys2Proof.Machine

theorem insertByRank_perm (e : Input) (l : List Input) : List.Perm (insertByRank e l) (e :: l) := by
  induction l with
  | nil => exact .refl _
  | cons f fs ih =>
    simp only [insertByRank]
    split
    · exact .refl _
    · exact (ih.cons f).trans (.swap e f fs)

theorem insertByRank_sorted (e : Input) {l : List Input}
    (h : l.Pairwise (fun a b => eventRank a ≤ eventRank b)) :
    (insertByRank e l).Pairwise (fun a b => eventRank a ≤ eventRank b) := by
  induction l with
  | nil => exact List.pairwise_singleton _ _
  | cons f fs ih =>
    obtain ⟨hf, hfs⟩ := List.pairwise_cons.mp h
    simp only [insertByRank]
    split
    · rename_i hlt
      exact List.pairwise_cons.mpr
        ⟨List.forall_mem_cons.mpr ⟨by omega, fun g hg => by have := hf g hg; omega⟩, h⟩
    · refine List.pairwise_cons.mpr ⟨fun g hg => ?_, ih hfs⟩
      rcases List.mem_cons.mp ((insertByRank_perm e fs).mem_iff.mp hg) with rfl | hg'
      · omega
      · exact hf g hg'

/-- In a sorted list an event goes behind those of its own rank. -/
theorem insertByRank_filter (e : Input) (k : Nat) {l : List Input}
    (h : l.Pairwise (fun a b => eventRank a ≤ eventRank b)) :
    (insertByRank e l).filter (fun x => eventRank x = k) = (l ++ [e]).filter (fun x => eventRank x = k) := by
  induction l with
  | nil => rfl
  | cons f fs ih =>
    obtain ⟨hf, hfs⟩ := List.pairwise_cons.mp h
    simp only [insertByRank]
    split
    · rename_i hlt
      by_cases hk : eventRank e = k
      · have hn : (f :: fs).filter (fun x => eventRank x = k) = [] := by
          refine List.filter_eq_nil_iff.mpr (List.forall_mem_cons.mpr ⟨?_, fun g hg => ?_⟩)
          · simpa using by omega
          · have := hf g hg
            simpa using by omega
        rw [List.filter_append, List.filter_cons, hn]
        simp [hk]
      · rw [List.filter_append, List.filter_cons]
        simp [hk]
    · rw [List.filter_cons, ih hfs, List.cons_append, List.filter_cons]

/-- What putting further events in order does to a list that is in order. -/
theorem foldl_insertByRank (es : List Input) {l : List Input}
    (h : l.Pairwise (fun a b => eventRank a ≤ eventRank b)) :
    let r := es.foldl (fun acc e => insertByRank e acc) l
    List.Perm r (l ++ es) ∧ r.Pairwise (fun a b => eventRank a ≤ eventRank b) ∧
    ∀ k, r.filter (fun x => eventRank x = k) = (l ++ es).filter (fun x => eventRank x = k) := by
  induction es generalizing l with
  | nil => simpa using h
  | cons e es ih =>
    obtain ⟨h1, h2, h3⟩ := ih (insertByRank_sorted e h)
    have hp : List.Perm (insertByRank e l ++ es) (l ++ e :: es) :=
      ((insertByRank_perm e l).append_right es).trans List.perm_middle.symm
    refine ⟨h1.trans hp, h2, fun k => (h3 k).trans ?_⟩
    rw [List.filter_append, insertByRank_filter e k h, ← List.filter_append, List.append_assoc,
      List.singleton_append]

@[simp] theorem offerCycle_schedule (es : List Input) (s : State) :
    (offerCycle es s).schedule = s.schedule ++ cycleOrder es := rfl

end Sys2Proof.Machine
end

