-- ==== Sys2Proof/Laws/Memory.lean ====
section
/-! SUPPORT. The laws of the byte buffers: a read after a write, and the canonical form that every buffer
operation keeps (spec/20_memory.md R60). -/

namespace Sys2Proof.Machine

@[simp] theorem Memory.read_nil (k : Nat) : Memory.read [] k = Config.unlisted := rfl

@[simp] theorem Memory.read_cons (a : Nat) (v : Byte) (m : Memory) (k : Nat) :
    Memory.read ((a, v) :: m) k = if a = k then v else Memory.read m k := rfl

@[simp] theorem Memory.wfFrom_nil (lo : Nat) : Memory.wfFrom lo [] = true := rfl

@[simp] theorem Memory.wfFrom_cons (lo a : Nat) (v : Byte) (m : Memory) :
    (Memory.wfFrom lo ((a, v) :: m) = true) ↔
      lo ≤ a ∧ v ≠ Config.unlisted ∧ Memory.wfFrom (a + 1) m = true := by
  simp [Memory.wfFrom, and_assoc]

/-- A buffer well formed from `lo` lists nothing below `lo`. -/
theorem Memory.read_below {m : Memory} {lo k : Nat} (h : Memory.wfFrom lo m = true) (hk : k < lo) :
    Memory.read m k = Config.unlisted := by
  induction m generalizing lo with
  | nil => rfl
  | cons p m ih =>
    obtain ⟨a, v⟩ := p
    rw [Memory.wfFrom_cons] at h
    rw [Memory.read_cons, if_neg (by omega)]
    exact ih h.2.2 (by omega)

theorem Memory.wfFrom_mono {m : Memory} {lo lo' : Nat} (h : Memory.wfFrom lo m = true) (hl : lo' ≤ lo) :
    Memory.wfFrom lo' m = true := by
  cases m with
  | nil => rfl
  | cons p m =>
    obtain ⟨a, v⟩ := p
    rw [Memory.wfFrom_cons] at h ⊢
    exact ⟨by omega, h.2⟩

theorem Memory.wfFrom_write {m : Memory} {lo k : Nat} (v : Byte) (h : Memory.wfFrom lo m = true)
    (hk : lo ≤ k) : Memory.wfFrom lo (Memory.write m k v) = true := by
  induction m generalizing lo with
  | nil =>
    by_cases hv : v = Config.unlisted
    · simp [Memory.write, hv]
    · rw [Memory.write, if_neg hv, Memory.wfFrom_cons]
      exact ⟨hk, hv, rfl⟩
  | cons p m ih =>
    obtain ⟨a, w⟩ := p
    have h' := h
    rw [Memory.wfFrom_cons] at h'
    rw [Memory.write]
    split
    · split
      · exact h
      · rename_i hlt hv
        rw [Memory.wfFrom_cons, Memory.wfFrom_cons]
        exact ⟨hk, hv, by omega, h'.2⟩
    · split
      · rename_i hlt heq
        subst heq
        split
        · exact Memory.wfFrom_mono h'.2.2 (by omega)
        · rename_i hv
          rw [Memory.wfFrom_cons]
          exact ⟨hk, hv, h'.2.2⟩
      · rename_i hlt hne
        rw [Memory.wfFrom_cons]
        exact ⟨h'.1, h'.2.1, ih h'.2.2 (by omega)⟩

/-- The canonical form is kept by a byte write. -/
theorem Memory.wf_write {m : Memory} (k : Nat) (v : Byte) (h : Memory.wf m = true) :
    Memory.wf (Memory.write m k v) = true :=
  Memory.wfFrom_write v h (Nat.zero_le k)

/-- The canonical form is kept by `MemWrite`. -/
theorem Memory.wf_writeBytes {m : Memory} (i : Nat) (bs : List Byte) (h : Memory.wf m = true) :
    Memory.wf (Memory.writeBytes m i bs) = true := by
  induction bs generalizing m i with
  | nil => exact h
  | cons b bs ih => exact ih (i + 1) (Memory.wf_write i b h)

theorem Memory.read_write_from {m : Memory} {lo : Nat} (h : Memory.wfFrom lo m = true) (k : Nat) (v : Byte)
    (j : Nat) : Memory.read (Memory.write m k v) j = if j = k then v else Memory.read m j := by
  induction m generalizing lo with
  | nil =>
    rw [Memory.write]
    split
    · rename_i hv
      simp [hv]
    · simp [eq_comm]
  | cons p m ih =>
    obtain ⟨a, w⟩ := p
    have h' := h
    rw [Memory.wfFrom_cons] at h'
    have hm := fun (x : Nat) (hx : x < a + 1) => Memory.read_below h'.2.2 hx
    rw [Memory.write]
    by_cases hjk : j = k
    · subst hjk
      rw [if_pos rfl]
      split
      · rename_i hlt
        split
        · rename_i hv
          rw [Memory.read_cons, if_neg (by omega), hm j (by omega), hv]
        · simp
      · split
        · rename_i heq
          split
          · rename_i hv
            rw [hm j (by omega), hv]
          · simp
        · rename_i hne
          rw [Memory.read_cons, if_neg (by omega), ih h'.2.2, if_pos rfl]
    · rw [if_neg hjk]
      split
      · split
        · rfl
        · rw [Memory.read_cons, if_neg (by omega)]
      · split
        · rename_i heq
          split
          · rw [Memory.read_cons, if_neg (by omega)]
          · rw [Memory.read_cons, Memory.read_cons, if_neg (by omega), if_neg (by omega)]
        · rw [Memory.read_cons, Memory.read_cons, ih h'.2.2, if_neg hjk]

/-- A read after a byte write. -/
theorem Memory.read_write {m : Memory} (h : Memory.wf m = true) (k : Nat) (v : Byte) (j : Nat) :
    Memory.read (Memory.write m k v) j = if j = k then v else Memory.read m j :=
  Memory.read_write_from h k v j

/-- A read after `MemWrite`: the written bytes where they were written, what was there elsewhere. -/
theorem Memory.read_writeBytes {m : Memory} (h : Memory.wf m = true) (i : Nat) (bs : List Byte) (j : Nat) :
    Memory.read (Memory.writeBytes m i bs) j =
      if i ≤ j ∧ j < i + bs.length then bs.getD (j - i) 0 else Memory.read m j := by
  induction bs generalizing m i with
  | nil => rw [Memory.writeBytes, if_neg (by simp)]
  | cons b bs ih =>
    rw [Memory.writeBytes, ih (Memory.wf_write i b h), Memory.read_write h]
    by_cases hj : j = i
    · subst hj
      simp
    · by_cases hin : i + 1 ≤ j ∧ j < i + 1 + bs.length
      · rw [if_pos hin, if_pos (by simp; omega)]
        obtain ⟨d, rfl⟩ : ∃ d, j = i + 1 + d := ⟨j - (i + 1), by omega⟩
        have h1 : i + 1 + d - (i + 1) = d := by omega
        have h2 : i + 1 + d - i = d + 1 := by omega
        simp [h1, h2]
      · rw [if_neg hin, if_neg hj, if_neg (by simp; omega)]

@[simp] theorem Memory.length_readBytes (m : Memory) (i n : Nat) : (Memory.readBytes m i n).length = n := by
  induction n generalizing i with
  | zero => rfl
  | succ n ih => simp [Memory.readBytes, ih]

theorem Memory.getElem_readBytes (m : Memory) (i n k : Nat) (h : k < (Memory.readBytes m i n).length) :
    (Memory.readBytes m i n)[k] = Memory.read m (i + k) := by
  induction n generalizing i k with
  | zero => simp [Memory.readBytes] at h
  | succ n ih =>
    cases k with
    | zero => rfl
    | succ k =>
      simp only [Memory.readBytes, List.getElem_cons_succ]
      rw [ih (i + 1) k (by simpa [Memory.readBytes] using h)]
      congr 1
      omega

/-- Two stretches that read alike byte for byte are equal. -/
theorem Memory.readBytes_congr {m m' : Memory} {i n : Nat}
    (h : ∀ k, i ≤ k → k < i + n → Memory.read m k = Memory.read m' k) :
    Memory.readBytes m i n = Memory.readBytes m' i n := by
  induction n generalizing i with
  | zero => rfl
  | succ n ih =>
    rw [Memory.readBytes, Memory.readBytes, h i (by omega) (by omega),
      ih (fun k h1 h2 => h k (by omega) (by omega))]

/-- `MemRead` of what `MemWrite` wrote. -/
theorem Memory.readBytes_writeBytes {m : Memory} (h : Memory.wf m = true) (i : Nat) (bs : List Byte) :
    Memory.readBytes (Memory.writeBytes m i bs) i bs.length = bs := by
  apply List.ext_getElem (by simp)
  intro k h1 h2
  rw [Memory.getElem_readBytes, Memory.read_writeBytes h, if_pos (by omega)]
  simp [h2]

/-- Adding one byte behind a stretch. -/
theorem Memory.readBytes_succ (m : Memory) (i n : Nat) :
    Memory.readBytes m i (n + 1) = Memory.readBytes m i n ++ [Memory.read m (i + n)] := by
  induction n generalizing i with
  | zero => rfl
  | succ n ih =>
    rw [Memory.readBytes, ih, Memory.readBytes, List.cons_append, Nat.add_right_comm i 1 n, Nat.add_assoc i n 1]

/-- A stretch read after a byte was stored just behind it. -/
theorem Memory.readBytes_write_behind {m : Memory} (h : Memory.wf m = true) (n : Nat) (v : Byte) :
    Memory.readBytes (Memory.write m n v) 0 (n + 1) = Memory.readBytes m 0 n ++ [v] := by
  rw [Memory.readBytes_succ, Memory.read_write h, if_pos (by omega)]
  congr 1
  exact Memory.readBytes_congr fun k _ hk => by rw [Memory.read_write h, if_neg (by omega)]

/-- A canonical buffer is determined by what it reads as. -/
theorem Memory.ext_read {m m' : Memory} {lo : Nat} (h : Memory.wfFrom lo m = true)
    (h' : Memory.wfFrom lo m' = true) (hr : ∀ k, Memory.read m k = Memory.read m' k) : m = m' := by
  induction m generalizing lo m' with
  | nil =>
    cases m' with
    | nil => rfl
    | cons p m' =>
      obtain ⟨a, v⟩ := p
      rw [Memory.wfFrom_cons] at h'
      have := hr a
      simp only [Memory.read_nil, Memory.read_cons, if_pos] at this
      exact absurd this.symm h'.2.1
  | cons p m ih =>
    obtain ⟨a, v⟩ := p
    rw [Memory.wfFrom_cons] at h
    cases m' with
    | nil =>
      have := hr a
      simp only [Memory.read_nil, Memory.read_cons, if_pos] at this
      exact absurd this h.2.1
    | cons q m' =>
      obtain ⟨a', v'⟩ := q
      rw [Memory.wfFrom_cons] at h'
      have ha := hr a
      have ha' := hr a'
      simp only [Memory.read_cons, if_pos] at ha ha'
      have haa : a = a' := by
        rcases Nat.lt_trichotomy a a' with hlt | heq | hgt
        · rw [if_neg (by omega), Memory.read_below h'.2.2 (by omega)] at ha
          exact absurd ha h.2.1
        · exact heq
        · rw [if_neg (by omega), Memory.read_below h.2.2 (by omega)] at ha'
          exact absurd ha'.symm h'.2.1
      subst haa
      rw [if_pos rfl] at ha
      subst ha
      congr 1
      refine ih h.2.2 h'.2.2 fun k => ?_
      by_cases hk : a = k
      · rw [Memory.read_below h.2.2 (by omega), Memory.read_below h'.2.2 (by omega)]
      · have := hr k
        rwa [Memory.read_cons, Memory.read_cons, if_neg hk, if_neg hk] at this

/-- The buffers of the reset state have the canonical form. -/
theorem reset_memory_wf : Memory.wf State.reset.reqData = true ∧ Memory.wf State.reset.resData = true ∧
    Memory.wf State.reset.pData = true ∧ Memory.wf State.reset.txBuf = true := ⟨rfl, rfl, rfl, rfl⟩

end Sys2Proof.Machine
end

