-- ==== Sys2Proof/Laws/Ops.lean ====
section
/-! SUPPORT. What each shared operation can do, said once: case lemmas that later proofs cite instead of
unfolding the operation, and the arithmetic of frames, counters and the hold time. -/

namespace Sys2Proof.Machine

/-! ## Sequencing and runs -/

@[simp] theorem andThen_next (s : State) (f : State → Result) : andThen (.next s) f = f s := rfl
@[simp] theorem andThen_fault (e : Fault) (f : State → Result) : andThen (.fault e) f = .fault e := rfl
@[simp] theorem andThen_refused (e : Refusal) (f : State → Result) : andThen (.refused e) f = .refused e := rfl

/-- A result that goes on after a continuation went on before it, too. -/
theorem andThen_eq_next {r : Result} {f : State → Result} {t : State} (h : andThen r f = .next t) :
    ∃ u, r = .next u ∧ f u = .next t := by
  cases r with
  | next u => exact ⟨u, rfl, h⟩
  | fault e => cases h
  | refused e => cases h

theorem run_zero (s : State) : Host.Core.run Sys2Proof.core 0 s = .next s := rfl

theorem run_succ (k : Nat) (s : State) :
    Host.Core.run Sys2Proof.core (k + 1) s = andThen (step s) (Host.Core.run Sys2Proof.core k) := by
  have h : Sys2Proof.core.step s = step s := rfl
  simp only [Host.Core.run, h]
  cases step s <;> rfl

/-- Running on from where a run arrived. -/
theorem run_add {k m : Nat} {s t : State} (h : Host.Core.run Sys2Proof.core k s = .next t) :
    Host.Core.run Sys2Proof.core (k + m) s = Host.Core.run Sys2Proof.core m t := by
  induction k generalizing s with
  | zero => cases h; rw [Nat.zero_add]
  | succ k ih =>
    rw [run_succ] at h
    obtain ⟨u, hu, hr⟩ := andThen_eq_next h
    rw [Nat.add_right_comm, run_succ, hu]
    exact ih hr

/-! ## Counters and the hold time -/

/-- The elapsed-time counters count to their end and stay there. -/
theorem sat16Succ_toNat (v : BitVec 16) : (sat16Succ v).toNat = min (v.toNat + 1) 65535 := by
  simp only [sat16Succ, BitVec.toNat_ofNat]
  omega

theorem sat16Succ_eq (v : BitVec 16) : sat16Succ v = BitVec.ofNat 16 (nextMs v) := rfl

/-- The ceiling is the least multiple that covers. -/
theorem ceilDiv_le_iff {a b m : Nat} (hb : 0 < b) : ceilDiv a b ≤ m ↔ a ≤ m * b := by
  rw [ceilDiv, Nat.div_le_iff_le_mul_add_pred hb]
  rw [Nat.mul_comm b m]
  omega

/-! ## Checksum and frame lengths -/

theorem xor_foldl (l : List Byte) (x : Byte) : l.foldl (fun x b => x ^^^ b) x = x ^^^ xor8 l := by
  induction l generalizing x with
  | nil => simp [xor8]
  | cons b l ih => rw [xor8, List.foldl_cons, List.foldl_cons, ih, ih, BitVec.xor_assoc]; simp

theorem xor8_cons (b : Byte) (l : List Byte) : xor8 (b :: l) = b ^^^ xor8 l := by
  rw [xor8, List.foldl_cons, xor_foldl]; simp

theorem xor8_append (l m : List Byte) : xor8 (l ++ m) = xor8 l ^^^ xor8 m := by
  rw [xor8, List.foldl_append, xor_foldl, ← xor8]

theorem addrField_length (a : Option Addr5) : (addrField a).length = if a.isSome then 5 else 0 := by
  cases a <;> rfl

theorem requestBody_length (c : Command) :
    (requestBody c).length = 3 + (if c.address.isSome then 5 else 0) + c.data.length := by
  simp only [requestBody, List.length_cons, List.length_append, addrField_length]; omega

theorem requestFrame_length (c : Command) :
    (requestFrame c).length =
      c.preambleLength.toNat + 4 + (if c.address.isSome then 5 else 0) + c.data.length := by
  simp only [requestFrame, List.length_append, List.length_replicate, requestBody_length,
    List.length_cons, List.length_nil]; omega

/-- A frame fits `TXBUF` (spec/10_state.md R43). -/
theorem requestFrame_fits {c : Command} (h : c.data.length ≤ 255) : (requestFrame c).length ≤ 519 := by
  have := c.preambleLength.isLt
  rw [requestFrame_length]; split <;> omega

theorem responseBody_length (d : Byte) (f : CommandResult) :
    (responseBody d f).length = 5 + (if f.address.isSome then 5 else 0) + f.data.length := by
  simp only [responseBody, List.length_cons, List.length_append, addrField_length]; omega

/-! ## Bytes cut at bit 7 -/

theorem byteOf_long : ∀ t : BitVec 7, Config.isLong (byteOf true t) = true := by decide

theorem byteOf_short : ∀ t : BitVec 7, Config.isLong (byteOf false t) = false := by decide

theorem byteOf_long_eq_fill : ∀ t : BitVec 7, byteOf true t = Config.fill ↔ t = 0x7F := by decide

theorem byteOf_short_ne_fill : ∀ t : BitVec 7, byteOf false t ≠ Config.fill := by decide

theorem lowBits_byteOf : ∀ (hi : Bool) (t : BitVec 7), lowBits (byteOf hi t) = t := by decide

theorem byteOf_lowBits : ∀ b : Byte, byteOf (b.getLsbD 7) (lowBits b) = b := by decide

/-! ## Building, sending, finishing -/

@[simp] theorem zeroCommand_data (s : State) : (zeroCommand s).data = [] := rfl

theorem buildCommand_fits (s : State) : (buildCommand s).data.length ≤ 255 := by
  have := s.reqLen.isLt
  simp only [buildCommand, Memory.length_readBytes]; omega

/-- What `ENCODE` writes: the frame from index 0 of `TXBUF` on. -/
theorem encodeInto_stored {s : State} (c : Command) (h : Memory.wf s.txBuf = true) :
    Stored s.txBuf (encodeInto c s).txBuf 0 (requestFrame c) :=
  fun k => Memory.read_writeBytes h 0 (requestFrame c) k

theorem encodeInto_txLen_toNat {s : State} {c : Command} (h : c.data.length ≤ 255) :
    (encodeInto c s).txLen.toNat = (requestFrame c).length := by
  have := requestFrame_fits h
  simp only [encodeInto, BitVec.toNat_ofNat]; omega

/-- `EXCHANGE` in one record. -/
theorem startExchange_eq (c : Command) (s : State) :
    startExchange c s =
      { s with
        retryBudget := s.cfgMaxRetries
        txBuf := s.txBuf.writeBytes 0 (requestFrame c)
        txLen := BitVec.ofNat 10 (requestFrame c).length
        handlerArmed := true
        respValid := false
        pState := .seekPreamble
        sState := .settle
        sElapsed := 0 } := rfl

/-- `ARM` in one record. -/
theorem arm_eq (s : State) :
    arm s =
      { s with
        handlerArmed := true
        respValid := false
        pState := .seekPreamble
        sState := .settle
        sElapsed := 0 } := rfl

/-- `FINISH` ends the operation, or starts the second exchange of a `SEND`. -/
theorem finishWith_cases (code : FinishCode) (s : State) :
    (s.sPhase = false ∧
      finishWith code s = { s with sState := .idle, outs := .done (doneOfFinish code) :: s.outs }) ∨
    (s.sPhase = true ∧
      finishWith code s = startExchange (buildCommand s) { s with sState := .idle, sPhase := false }) := by
  cases h : s.sPhase
  · exact .inl ⟨rfl, by simp [finishWith, emit, h]⟩
  · exact .inr ⟨rfl, by simp only [finishWith, h, if_true]; rfl⟩

/-- `RETRY_OR` ends the exchange, or arms a new attempt. -/
theorem retryOr_cases (code : RetryCode) (s : State) :
    (s.retryBudget = 0 ∧ retryOr code s = finishWith (finishOfRetry code) s) ∨
    (s.retryBudget ≠ 0 ∧ retryOr code s = arm { s with retryBudget := s.retryBudget - 1 }) := by
  by_cases h : s.retryBudget = 0
  · exact .inl ⟨h, if_pos h⟩
  · exact .inr ⟨h, if_neg h⟩

/-- Classification retries on a communication status and finishes on a command-specific one. -/
theorem classifyByte_cases (b : Byte) (s : State) :
    (b.getLsbD 7 = true ∧
      classifyByte b s = retryOr .commfault { s with outs := .evCommfault (commFlags b) :: s.outs }) ∨
    (b.getLsbD 7 = false ∧ classifyByte b s = finishWith .success s) := by
  cases h : b.getLsbD 7
  · exact .inr ⟨rfl, if_neg (by rw [isCommStatus, h]; decide)⟩
  · exact .inl ⟨rfl, if_pos h⟩

theorem resolveWait_eq (s : State) :
    resolveWait s = classifyByte s.resStatus.s0 { s with handlerArmed := false } := rfl

theorem timeoutWait_eq (s : State) : timeoutWait s = retryOr .none { s with handlerArmed := false } := rfl

theorem takeXfault_eq (s : State) :
    takeCause .xfault s = retryOr .none { s with txEn := false, handlerArmed := false } := rfl

/-- `ENTER_WAIT` resolves, times out at once, or waits. -/
theorem enterWait_cases (s : State) :
    (s.respValid = true ∧ enterWait s = resolveWait { s with sState := .wait, sElapsed := 0 }) ∨
    (s.respValid = false ∧ s.cfgTimeoutMs = 0 ∧
      enterWait s = timeoutWait { s with sState := .wait, sElapsed := 0 }) ∨
    (s.respValid = false ∧ s.cfgTimeoutMs ≠ 0 ∧ enterWait s = { s with sState := .wait, sElapsed := 0 }) := by
  cases h : s.respValid
  · by_cases h0 : s.cfgTimeoutMs = 0
    · exact .inr (.inl ⟨rfl, h0, by simp only [enterWait, h, h0, Bool.false_eq_true, if_true, if_false]⟩)
    · exact .inr (.inr ⟨rfl, h0, by simp only [enterWait, h, h0, Bool.false_eq_true, if_false]⟩)
  · exact .inl ⟨rfl, by simp only [enterWait, h, if_true]⟩

/-! ## The transmit sequence and the tick -/

theorem txFrame_cases (s : State) :
    (s.txLen.toNat ≤ 519 ∧ txFrame s = some (s.txBuf.readBytes 0 s.txLen.toNat)) ∨
    (519 < s.txLen.toNat ∧ txFrame s = none) := by
  by_cases h : s.txLen.toNat ≤ 519
  · exact .inl ⟨h, if_pos h⟩
  · exact .inr ⟨by omega, if_neg h⟩

/-- `START_WRITE` writes the whole frame, or faults on a length that no encoder leaves. -/
theorem beginWrite_cases (s : State) :
    (s.txLen.toNat ≤ 519 ∧
      beginWrite s = .next { s with
        sTxElapsed := 0
        sHoldTarget := BitVec.ofNat 13 (holdMs s.txLen.toNat)
        sState := .write
        outs := .evTxdump (s.txBuf.readBytes 0 s.txLen.toNat) ::
          .txwrite (s.txBuf.readBytes 0 s.txLen.toNat) :: s.outs }) ∨
    (519 < s.txLen.toNat ∧ beginWrite s = .fault (.outOfRange .txBuf s.txLen.toNat)) := by
  rcases txFrame_cases s with ⟨h, hf⟩ | ⟨h, hf⟩
  · exact .inl ⟨h, by simp only [beginWrite, hf]; rfl⟩
  · exact .inr ⟨h, by simp only [beginWrite, hf]⟩

theorem tickInSettle_cases (s : State) :
    ((sat16Succ s.sElapsed).toNat < 100 ∧ tickInSettle s = { s with sElapsed := sat16Succ s.sElapsed }) ∨
    (100 ≤ (sat16Succ s.sElapsed).toNat ∧
      tickInSettle s = { s with txEn := true, sState := .guard, sElapsed := 0 }) := by
  by_cases h : 100 ≤ (sat16Succ s.sElapsed).toNat
  · exact .inr ⟨h, if_pos h⟩
  · exact .inl ⟨by omega, if_neg h⟩

theorem tickInGuard_cases (s : State) :
    ((sat16Succ s.sElapsed).toNat < 5 ∧ tickInGuard s = .next { s with sElapsed := sat16Succ s.sElapsed }) ∨
    (5 ≤ (sat16Succ s.sElapsed).toNat ∧ tickInGuard s = beginWrite { s with sElapsed := sat16Succ s.sElapsed }) := by
  by_cases h : 5 ≤ (sat16Succ s.sElapsed).toNat
  · exact .inr ⟨h, if_pos h⟩
  · exact .inl ⟨by omega, if_neg h⟩

theorem tickInHold_cases (s : State) :
    ((sat16Succ s.sTxElapsed).toNat < s.sHoldTarget.toNat ∧
      tickInHold s = { s with sTxElapsed := sat16Succ s.sTxElapsed }) ∨
    (s.sHoldTarget.toNat ≤ (sat16Succ s.sTxElapsed).toNat ∧
      tickInHold s = enterWait { s with sTxElapsed := sat16Succ s.sTxElapsed, txEn := false }) := by
  by_cases h : s.sHoldTarget.toNat ≤ (sat16Succ s.sTxElapsed).toNat
  · exact .inr ⟨h, if_pos h⟩
  · exact .inl ⟨by omega, if_neg h⟩

theorem tickInWait_cases (s : State) :
    ((sat16Succ s.sElapsed).toNat < s.cfgTimeoutMs.toNat ∧
      tickInWait s = { s with sElapsed := sat16Succ s.sElapsed }) ∨
    (s.cfgTimeoutMs.toNat ≤ (sat16Succ s.sElapsed).toNat ∧
      tickInWait s = timeoutWait { s with sElapsed := sat16Succ s.sElapsed }) := by
  by_cases h : s.cfgTimeoutMs.toNat ≤ (sat16Succ s.sElapsed).toNat
  · exact .inr ⟨h, if_pos h⟩
  · exact .inl ⟨by omega, if_neg h⟩

/-- `TXDONE` goes on to the hold or to the wait; outside `WRITE` it has no step. -/
theorem execTxdone_cases (s : State) :
    (s.sState = .write ∧ s.sTxElapsed.toNat < s.sHoldTarget.toNat ∧
      execTxdone s = .next { s with sState := .hold }) ∨
    (s.sState = .write ∧ s.sHoldTarget.toNat ≤ s.sTxElapsed.toNat ∧
      execTxdone s = .next (enterWait { s with txEn := false })) ∨
    (s.sState ≠ .write ∧ execTxdone s = .refused .noWriteInProgress) := by
  by_cases h : s.sState = .write
  · by_cases h2 : s.sHoldTarget.toNat ≤ s.sTxElapsed.toNat
    · exact .inr (.inl ⟨h, h2, by rw [execTxdone, if_pos h, if_pos h2]; rfl⟩)
    · exact .inl ⟨h, by omega, by rw [execTxdone, if_pos h, if_neg h2]⟩
  · exact .inr (.inr ⟨h, if_neg h⟩)

/-! ## Learning, the latch, the notification -/

theorem learnFrom_cases (f : CommandResult) (s : State) :
    (12 ≤ f.data.length ∧
      learnFrom f s = { s with
        curAddr := ⟨f.data.getD 1 0 ||| 0x80, f.data.getD 2 0, f.data.getD 9 0, f.data.getD 10 0, f.data.getD 11 0⟩
        curAddrValid := true
        zeroDone := true }) ∨
    (f.data.length < 12 ∧ learnFrom f s = s) := by
  by_cases h : 12 ≤ f.data.length
  · exact .inl ⟨h, by simp only [learnFrom, learnedAddr, h, if_true]⟩
  · exact .inr ⟨by omega, by simp only [learnFrom, learnedAddr, h, if_false]⟩

theorem latch_cases (f : CommandResult) (s : State) :
    (s.handlerArmed = true ∧ s.respValid = false ∧
      latch f s = { s with
        resLong := f.address.isSome
        resAddr := f.address.getD s.resAddr
        resCmd := f.commandNumber
        resStatus := f.responseCode
        resLen := BitVec.ofNat 8 f.data.length
        resData := s.resData.writeBytes 0 f.data
        respValid := true }) ∨
    (¬(s.handlerArmed = true ∧ s.respValid = false) ∧ latch f s = s) := by
  cases ha : s.handlerArmed <;> cases hr : s.respValid <;> simp [latch, ha, hr]

/-- `NOTIFY` in order: learn, latch, wake. -/
theorem notifyFrame_cases (f : CommandResult) (s : State) :
    ∃ u, ((f.commandNumber = 0 ∧ u = learnFrom f s) ∨ (f.commandNumber ≠ 0 ∧ u = s)) ∧
      (((latch f u).sState = .wait ∧ (latch f u).respValid = true ∧ notifyFrame f s = resolveWait (latch f u)) ∨
       (¬((latch f u).sState = .wait ∧ (latch f u).respValid = true) ∧ notifyFrame f s = latch f u)) := by
  refine ⟨if f.commandNumber = Config.zeroCmd then learnFrom f s else s, ?_, ?_⟩
  · by_cases h : f.commandNumber = 0
    · exact .inl ⟨h, if_pos h⟩
    · exact .inr ⟨h, if_neg h⟩
  · generalize hu : (if f.commandNumber = Config.zeroCmd then learnFrom f s else s) = u
    by_cases h : (latch f u).sState = .wait ∧ (latch f u).respValid = true
    · exact .inl ⟨h.1, h.2, by rw [notifyFrame, hu]; simp [h.1, h.2]⟩
    · exact .inr ⟨h, by rw [notifyFrame, hu]; simp only [Bool.and_eq_true, decide_eq_true_eq, if_neg h]⟩

/-! ## The parser's states -/

theorem seekPreamble_cases (b : Byte) (s : State) :
    (b = 0xFF ∧ seekPreamble b s = s) ∨ (b ≠ 0xFF ∧ seekPreamble b s = readDelimiter b s) := by
  by_cases h : b = 0xFF
  · exact .inl ⟨h, if_pos h⟩
  · exact .inr ⟨h, if_neg h⟩

theorem setAddr_isSome (a : Addr5) (i : Nat) (b : Byte) : (setAddr a i b).isSome = decide (i < 5) := by
  match i with
  | 0 | 1 | 2 | 3 | 4 => rfl
  | n + 5 => simp [setAddr]

/-- An address byte goes to its place, or the index is out of range. -/
theorem readAddress_cases (b : Byte) (s : State) :
    (∃ a, setAddr s.pAddr s.pCnt.toNat b = some a ∧ s.pCnt.toNat < 5 ∧
      readAddress b s = .next { s with
        pAddr := a
        pXor := s.pXor ^^^ b
        pCnt := s.pCnt + 1
        pState := if s.pCnt + 1 = 5 then .readCommand else s.pState }) ∨
    (5 ≤ s.pCnt.toNat ∧ readAddress b s = .fault (.outOfRange .pAddr s.pCnt.toNat)) := by
  rw [readAddress]
  cases h : setAddr s.pAddr s.pCnt.toNat b with
  | none =>
    have := setAddr_isSome s.pAddr s.pCnt.toNat b
    rw [h] at this
    exact .inr ⟨by simpa using this, rfl⟩
  | some a =>
    have := setAddr_isSome s.pAddr s.pCnt.toNat b
    rw [h] at this
    exact .inl ⟨a, rfl, by simpa using this, rfl⟩

/-- A status byte goes to its place, or the index is out of range. -/
theorem readStatus_cases (b : Byte) (s : State) :
    (s.pCnt = 0 ∧ readStatus b s = .next { s with
      pStatus := ⟨b, s.pStatus.s1⟩
      pXor := s.pXor ^^^ b
      pCnt := 1 }) ∨
    (s.pCnt = 1 ∧ readStatus b s = .next { s with
      pStatus := ⟨s.pStatus.s0, b⟩
      pXor := s.pXor ^^^ b
      pCnt := 0
      pState := if s.pBc = 2 then .readChecksum else .readData }) ∨
    (2 ≤ s.pCnt.toNat ∧ readStatus b s = .fault (.outOfRange .pStatus s.pCnt.toNat)) := by
  by_cases h0 : s.pCnt = 0
  · exact .inl ⟨h0, by simp [readStatus, h0, setStatus]⟩
  · by_cases h1 : s.pCnt = 1
    · exact .inr (.inl ⟨h1, by simp [readStatus, h1, setStatus]⟩)
    · have h2 : 2 ≤ s.pCnt.toNat := by bv_omega
      refine .inr (.inr ⟨h2, ?_⟩)
      obtain ⟨n, hn⟩ : ∃ n, s.pCnt.toNat = n + 2 := ⟨s.pCnt.toNat - 2, by omega⟩
      rw [readStatus, hn]; rfl

/-- A data byte is stored, or there is no such byte. -/
theorem readData_cases (b : Byte) (s : State) :
    (2 ≤ s.pBc.toNat ∧ s.pCnt.toNat < 253 ∧
      readData b s = .next { s with
        pData := s.pData.write s.pCnt.toNat b
        pXor := s.pXor ^^^ b
        pCnt := s.pCnt + 1
        pState := if s.pCnt + 1 = s.pBc - 2 then .readChecksum else s.pState }) ∨
    (s.pBc.toNat < 2 ∧ readData b s = .fault .byteCountBelowTwo) ∨
    (2 ≤ s.pBc.toNat ∧ 253 ≤ s.pCnt.toNat ∧ readData b s = .fault (.outOfRange .pData s.pCnt.toNat)) := by
  by_cases h : s.pBc.toNat < 2
  · exact .inr (.inl ⟨h, if_pos h⟩)
  · by_cases h2 : 253 ≤ s.pCnt.toNat
    · exact .inr (.inr ⟨by omega, h2, by rw [readData, if_neg h]; exact if_pos h2⟩)
    · exact .inl ⟨by omega, by omega, by rw [readData, if_neg h]; exact if_neg h2⟩

theorem readByteCount_cases (b : Byte) (s : State) :
    (b.toNat < 2 ∧ readByteCount b s = { s with pBc := b, pXor := s.pXor ^^^ b, pState := .seekPreamble }) ∨
    (2 ≤ b.toNat ∧ readByteCount b s =
      { s with pBc := b, pXor := s.pXor ^^^ b, pCnt := 0, pState := .readStatus }) := by
  by_cases h : b.toNat < 2
  · exact .inl ⟨h, if_pos h⟩
  · exact .inr ⟨by omega, if_neg h⟩

theorem completeFrame_cases (s : State) :
    (2 ≤ s.pBc.toNat ∧
      completeFrame s = .next { notifyFrame (decodeRegs s) s with pState := .seekPreamble }) ∨
    (s.pBc.toNat < 2 ∧ completeFrame s = .fault .byteCountBelowTwo) := by
  by_cases h : s.pBc.toNat < 2
  · exact .inr ⟨h, if_pos h⟩
  · exact .inl ⟨by omega, if_neg h⟩

theorem readChecksum_cases (b : Byte) (s : State) :
    (b = s.pXor ∧ readChecksum b s = completeFrame { s with pState := .complete }) ∨
    (b ≠ s.pXor ∧ readChecksum b s = .next { s with pState := .seekPreamble }) := by
  by_cases h : b = s.pXor
  · exact .inl ⟨h, if_pos h⟩
  · exact .inr ⟨h, if_neg h⟩

theorem receiveByte_cases (b : Byte) (s : State) :
    (s.opened = true ∧ receiveByte b s = parseByte b { s with outs := .evRxdump [b] :: s.outs }) ∨
    (s.opened = false ∧ receiveByte b s = .next s) := by
  cases h : s.opened
  · exact .inr ⟨rfl, by simp [receiveByte, h]⟩
  · exact .inl ⟨rfl, by simp [receiveByte, h, emit]⟩

/-! ## Host operations -/

/-- A host operation runs in `IDLE` and is refused elsewhere. -/
theorem acceptIdle_cases (f : State → Result) (s : State) :
    (s.sState = .idle ∧ acceptIdle f s = f s) ∨ (s.sState ≠ .idle ∧ acceptIdle f s = .refused .hostBusy) := by
  by_cases h : s.sState = .idle
  · exact .inl ⟨h, if_pos h⟩
  · exact .inr ⟨h, if_neg h⟩

/-- `OPEN` opens the port or completes with an error; in either case the lines are released or as before. -/
theorem openPort_cases (s : State) :
    (s.opened = true ∧ openPort s = { s with outs := .done .errAlreadyOpen :: s.outs }) ∨
    (s.opened = false ∧ s.openAnswer = .ok ∧
      openPort s = { s with
        reqOp := 1
        rxEnLine := false
        txEn := false
        pState := .seekPreamble
        opened := true
        outs := .done .opened :: .subscribe :: .cfgport 1200 .odd 8 1 :: s.outs }) ∨
    (s.opened = false ∧ s.openAnswer ≠ .ok ∧
      ∃ code, (code = .errNotExisting ∨ code = .errAlreadyOpen ∨ code = .errUnknown) ∧
        openPort s = { s with outs := .done code :: .cfgport 1200 .odd 8 1 :: s.outs }) := by
  cases h : s.opened
  · refine .inr ?_
    cases ha : s.openAnswer
    · exact .inl ⟨rfl, rfl, by simp [openPort, recordOp, opCode, h, emit, ha, parserReset, Config.linkBaud,
        Config.linkDataBits, Config.linkStopBits]⟩
    · exact .inr ⟨rfl, by simp, .errNotExisting, by simp, by simp [openPort, h, emit, ha, takeCause,
        Config.linkBaud, Config.linkDataBits, Config.linkStopBits]⟩
    · exact .inr ⟨rfl, by simp, .errAlreadyOpen, by simp, by simp [openPort, h, emit, ha, takeCause,
        Config.linkBaud, Config.linkDataBits, Config.linkStopBits]⟩
    · exact .inr ⟨rfl, by simp, .errUnknown, by simp, by simp [openPort, h, emit, ha, takeCause,
        Config.linkBaud, Config.linkDataBits, Config.linkStopBits]⟩
  · exact .inl ⟨rfl, by simp [openPort, h, takeCause, emit]⟩

/-- `CLOSE` ends the session, or, with the port closed, completes with an error. -/
theorem closePort_cases (s : State) :
    (s.opened = true ∧
      closePort s = { s with
        reqOp := 2
        opened := false
        curAddrValid := false
        zeroDone := false
        handlerArmed := false
        respValid := false
        pState := .seekPreamble
        outs := .done .closed :: .release :: .unsubscribe :: s.outs }) ∨
    (s.opened = false ∧ closePort s = { s with outs := .done .errNotOpen :: s.outs }) := by
  cases h : s.opened
  · exact .inr ⟨rfl, by simp [closePort, h, takeCause, emit]⟩
  · exact .inl ⟨rfl, by simp [closePort, recordOp, opCode, h, emit, parserReset]⟩

/-- The recorded code is bits 2:0 of the operation's word (spec/30_encoding.md R96). -/
theorem opCode_eq_low_bits (op : HostOp) : (encodeHostOp op).extractLsb' 0 3 = opCode op := by
  apply BitVec.eq_of_getLsbD_eq
  intro k hk
  cases op <;> simp only [encodeHostOp, opCode, BitVec.getLsbD_append, BitVec.getLsbD_extractLsb'] <;>
    interval_cases k <;> rfl

theorem writePreamble_eq (v : Byte) (s : State) :
    writePreamble v s = { s with reqOp := 5, cfgPreamble := v, outs := .done .cfgOk :: s.outs } := rfl

theorem writeMaxRetries_eq (v : Byte) (s : State) :
    writeMaxRetries v s = { s with reqOp := 5, cfgMaxRetries := v, outs := .done .cfgOk :: s.outs } := rfl

theorem writeTimeout_eq (v : BitVec 16) (s : State) :
    writeTimeout v s = { s with reqOp := 5, cfgTimeoutMs := v, outs := .done .cfgOk :: s.outs } := rfl

theorem writeAutoZero_eq (v : Bool) (s : State) :
    writeAutoZero v s = { s with reqOp := 5, cfgAutoZero := v, outs := .done .cfgOk :: s.outs } := rfl

/-- `SEND` starts the automatic zero command's exchange or its own, or, with the port closed, completes at once
and writes nothing. -/
theorem sendRequest_cases (cmd len : Byte) (data : List Byte) (s : State) :
    (s.opened = true ∧ (s.cfgAutoZero = true ∧ cmd ≠ 0 ∧ s.zeroDone = false) ∧
      sendRequest cmd len data s =
        startExchange (zeroCommand s) { storeRequest cmd len data s with sPhase := true }) ∨
    (s.opened = true ∧ ¬(s.cfgAutoZero = true ∧ cmd ≠ 0 ∧ s.zeroDone = false) ∧
      sendRequest cmd len data s =
        startExchange (buildCommand (storeRequest cmd len data s))
          { storeRequest cmd len data s with sPhase := false }) ∨
    (s.opened = false ∧
      sendRequest cmd len data s = { s with outs := .done .none :: s.outs }) := by
  by_cases ho : s.opened = true
  · by_cases hz : s.cfgAutoZero = true ∧ cmd ≠ 0 ∧ s.zeroDone = false
    · refine .inl ⟨ho, hz, ?_⟩
      have hc : (s.cfgAutoZero && cmd != Config.zeroCmd && !s.zeroDone) = true := by
        simpa [and_assoc, Config.zeroCmd] using hz
      exact (if_pos ho).trans (if_pos hc)
    · refine .inr (.inl ⟨ho, hz, ?_⟩)
      have hc : ¬(s.cfgAutoZero && cmd != Config.zeroCmd && !s.zeroDone) = true := by
        simpa [and_assoc, Config.zeroCmd] using hz
      exact (if_pos ho).trans (if_neg hc)
  · exact .inr (.inr ⟨Bool.eq_false_iff.mpr ho, if_neg ho⟩)

/-- `SENDZ` starts the zero command's exchange, or, with the port closed, completes at once and writes nothing. -/
theorem sendZero_cases (s : State) :
    (s.opened = true ∧ sendZero s = startExchange (zeroCommand s) { s with reqOp := 4, sPhase := false }) ∨
    (s.opened = false ∧ sendZero s = { s with outs := .done .none :: s.outs }) := by
  by_cases ho : s.opened = true
  · exact .inl ⟨ho, if_pos ho⟩
  · exact .inr ⟨Bool.eq_false_iff.mpr ho, if_neg ho⟩

theorem sendChecked_cases (cmd len : Byte) (data : List Byte) (s : State) :
    (data.length = len.toNat ∧ sendChecked cmd len data s = .next (sendRequest cmd len data s)) ∨
    (data.length ≠ len.toNat ∧ sendChecked cmd len data s = .refused .operandCount) := by
  by_cases h : data.length = len.toNat
  · exact .inl ⟨h, if_pos h⟩
  · exact .inr ⟨h, if_neg h⟩

/-- `HOSTOP` that goes on was accepted in `IDLE`, and its word is bad or an operation's. -/
theorem execHostop_cases {w : HostWord} {bytes : List Byte} {s t : State}
    (h : exec (.hostop w bytes) s = .next t) :
    s.sState = .idle ∧
      ((decodeHostOp w = none ∧ t = { s with outs := .done .badop :: s.outs }) ∨
       (decodeHostOp w = some .opOpen ∧ t = openPort s) ∨
       (decodeHostOp w = some .opClose ∧ t = closePort s) ∨
       (∃ cmd len, decodeHostOp w = some (.opSend cmd len) ∧ bytes.length = len.toNat ∧
         t = sendRequest cmd len bytes s) ∨
       (decodeHostOp w = some .opSendz ∧ t = sendZero s) ∨
       (∃ v, decodeHostOp w = some (.cfgPreamble v) ∧ t = writePreamble v s) ∨
       (∃ v, decodeHostOp w = some (.cfgMaxRetries v) ∧ t = writeMaxRetries v s) ∨
       (∃ v, decodeHostOp w = some (.cfgTimeout v) ∧ t = writeTimeout v s) ∨
       (∃ v, decodeHostOp w = some (.cfgAutoZero v) ∧ t = writeAutoZero v s)) := by
  change acceptIdle (runHostWord w bytes) s = .next t at h
  rcases acceptIdle_cases (runHostWord w bytes) s with ⟨hi, h'⟩ | ⟨_, h'⟩ <;> rw [h'] at h
  · refine ⟨hi, ?_⟩
    rw [runHostWord] at h
    split at h <;> rename_i hd
    · cases h; exact .inl ⟨hd, rfl⟩
    · cases h; exact .inr (.inl ⟨hd, rfl⟩)
    · cases h; exact .inr (.inr (.inl ⟨hd, rfl⟩))
    · rcases sendChecked_cases _ _ bytes s with ⟨hl, h'⟩ | ⟨_, h'⟩ <;> rw [h'] at h <;> cases h
      exact .inr (.inr (.inr (.inl ⟨_, _, hd, hl, rfl⟩)))
    · cases h; exact .inr (.inr (.inr (.inr (.inl ⟨hd, rfl⟩))))
    · cases h; exact .inr (.inr (.inr (.inr (.inr (.inl ⟨_, hd, rfl⟩)))))
    · cases h; exact .inr (.inr (.inr (.inr (.inr (.inr (.inl ⟨_, hd, rfl⟩))))))
    · cases h; exact .inr (.inr (.inr (.inr (.inr (.inr (.inr (.inl ⟨_, hd, rfl⟩)))))))
    · cases h; exact .inr (.inr (.inr (.inr (.inr (.inr (.inr (.inr ⟨_, hd, rfl⟩)))))))
  · cases h

/-- A host word whose bits match no row, and the two ways a matching `SEND` goes, as `HOSTOP` runs them and as
the decoded row does. -/
theorem exec_decoded_hostop {w : HostWord} {bytes : List Byte} {i : Instr}
    (h : decode (.hostw w bytes) = .ok i) (s : State) : exec i s = exec (.hostop w bytes) s := by
  have hr : exec (.hostop w bytes) s = acceptIdle (runHostWord w bytes) s := rfl
  rw [hr]
  simp only [decode, decodeHostWord, acceptIdle, runHostWord] at h ⊢
  cases hd : decodeHostOp w with
  | none => rw [hd] at h; cases h
  | some op =>
    rw [hd] at h
    cases op with
    | opSend cmd len =>
      by_cases hl : bytes.length = len.toNat
      · simp only [hl, if_true] at h; cases h; rfl
      · simp only [hl, if_false] at h; cases h
    | _ => cases h; rfl

/-- Every step handles one event: the head of the schedule, or a `TICK` when none is listed. -/
theorem step_cases (s : State) :
    (s.schedule = [] ∧ step s = exec .tick s) ∨
    (∃ b rest, s.schedule = .rxbyte b :: rest ∧ step s = exec (.rxbyte b) { s with schedule := rest }) ∨
    (∃ rest, s.schedule = .tick :: rest ∧ step s = exec .tick { s with schedule := rest }) ∨
    (∃ rest, s.schedule = .txdone :: rest ∧ step s = exec .txdone { s with schedule := rest }) ∨
    (∃ rest, s.schedule = .xfault :: rest ∧ step s = exec .xfault { s with schedule := rest }) ∨
    (∃ a rest, s.schedule = .openAnswer a :: rest ∧ step s = .next { s with schedule := rest, openAnswer := a }) ∨
    (∃ w bytes rest, s.schedule = .hostop w bytes :: rest ∧
      step s = exec (.hostop w bytes) { s with schedule := rest }) := by
  cases h : s.schedule with
  | nil => exact .inl ⟨rfl, by simp only [step, nextInput, h, eventInstr]⟩
  | cons e rest =>
    refine .inr ?_
    cases e with
    | rxbyte b => exact .inl ⟨b, rest, rfl, by simp only [step, nextInput, h, eventInstr]⟩
    | tick => exact .inr (.inl ⟨rest, rfl, by simp only [step, nextInput, h, eventInstr]⟩)
    | txdone => exact .inr (.inr (.inl ⟨rest, rfl, by simp only [step, nextInput, h, eventInstr]⟩))
    | xfault => exact .inr (.inr (.inr (.inl ⟨rest, rfl, by simp only [step, nextInput, h, eventInstr]⟩)))
    | openAnswer a =>
      exact .inr (.inr (.inr (.inr (.inl ⟨a, rest, rfl, by simp only [step, nextInput, h, eventInstr, sampleAnswer]⟩))))
    | hostop w bytes =>
      refine .inr (.inr (.inr (.inr (.inr ⟨w, bytes, rest, rfl, ?_⟩))))
      simp only [step, nextInput, h, eventInstr]
      cases hd : decode (.hostw w bytes) with
      | ok i => exact exec_decoded_hostop hd _
      | error e => rfl

end Sys2Proof.Machine
end

