-- ==== Sys2Proof/Laws/Frames.lean ====
section
/-! SUPPORT. What the end of an attempt leaves alone: the frame that `FINISH`, `RETRY_OR`, `CLASSIFY`, `RESOLVE`,
`TIMEOUT`, `ENTER_WAIT` and `NOTIFY` have in common, said once for each. -/

namespace Sys2Proof.Machine

@[simp] theorem txStream_cons (o : Output) (s : State) :
    txStream { s with outs := o :: s.outs } = txStream s ++ outputBytes o := by
  simp [txStream]

/-- `t` is `s` but for the session's progress: sequencer state, phase, budget, handler, latch, parser state,
elapsed time, transmit buffer and log. -/
def SameButProgress (s t : State) : Prop :=
  t = { s with
    sState := t.sState
    sPhase := t.sPhase
    retryBudget := t.retryBudget
    handlerArmed := t.handlerArmed
    respValid := t.respValid
    pState := t.pState
    sElapsed := t.sElapsed
    txBuf := t.txBuf
    txLen := t.txLen
    outs := t.outs }

/-- What else the end of an attempt keeps: the TX stream; within one exchange (a requested command's, or the automatic
zero command's as long as it lasts) the frame to send. -/
def EndOfAttempt (s t : State) : Prop :=
  SameButProgress s t ∧ txStream t = txStream s ∧
  (s.sPhase = false ∨ t.sPhase = true → t.txBuf = s.txBuf ∧ t.txLen = s.txLen)

theorem finishWith_frame (code : FinishCode) (s : State) : EndOfAttempt s (finishWith code s) := by
  rcases finishWith_cases code s with ⟨hp, h⟩ | ⟨hp, h⟩
  · rw [h]
    exact ⟨rfl, by simp [txStream, outputBytes], fun _ => ⟨rfl, rfl⟩⟩
  · rw [h]
    refine ⟨rfl, rfl, fun hf => ?_⟩
    rcases hf with hf | hf
    · rw [hp] at hf; cases hf
    · cases hf

theorem retryOr_frame (code : RetryCode) (s : State) : EndOfAttempt s (retryOr code s) := by
  rcases retryOr_cases code s with ⟨_, h⟩ | ⟨_, h⟩
  · rw [h]; exact finishWith_frame _ s
  · rw [h]; exact ⟨rfl, rfl, fun _ => ⟨rfl, rfl⟩⟩

theorem classifyByte_frame (b : Byte) (s : State) : EndOfAttempt s (classifyByte b s) := by
  rcases classifyByte_cases b s with ⟨_, h⟩ | ⟨_, h⟩
  · have := retryOr_frame .commfault { s with outs := .evCommfault (commFlags b) :: s.outs }
    rw [h]
    refine ⟨this.1, this.2.1.trans (by simp [txStream, outputBytes]), this.2.2⟩
  · rw [h]; exact finishWith_frame _ s

theorem resolveWait_frame (s : State) : EndOfAttempt s (resolveWait s) :=
  classifyByte_frame s.resStatus.s0 { s with handlerArmed := false }

theorem timeoutWait_frame (s : State) : EndOfAttempt s (timeoutWait s) :=
  retryOr_frame .none { s with handlerArmed := false }

theorem enterWait_frame (s : State) : EndOfAttempt s (enterWait s) := by
  rcases enterWait_cases s with ⟨_, h⟩ | ⟨_, _, h⟩ | ⟨_, _, h⟩ <;> rw [h]
  · exact resolveWait_frame { s with sState := .wait, sElapsed := 0 }
  · exact timeoutWait_frame { s with sState := .wait, sElapsed := 0 }
  · exact ⟨rfl, rfl, fun _ => ⟨rfl, rfl⟩⟩

/-- Learning changes the address and its two flags, or nothing. -/
theorem learnFrom_frame (f : CommandResult) (s : State) :
    learnFrom f s = s ∨
      ((learnFrom f s).curAddrValid = true ∧ (learnFrom f s).zeroDone = true ∧
        learnFrom f s = { s with curAddr := (learnFrom f s).curAddr, curAddrValid := true, zeroDone := true }) := by
  rcases learnFrom_cases f s with ⟨_, h⟩ | ⟨_, h⟩
  · exact .inr (by rw [h]; exact ⟨rfl, rfl, rfl⟩)
  · exact .inl h

end Sys2Proof.Machine
end

