-- ==== Sys2Proof/Laws/PerInstr.lean ====
section
/-! SUPPORT. One lemma per operation about its encoding: the word the encoder writes has the format and the width
of its row of spec/opcode_table.json, and its bits under the row's mask are the row's pattern. -/

namespace Sys2Proof.Laws.EncodedFormat

open Sys2Proof

/-- A row of spec/opcode_table.json: its format and width, its pattern and mask (widened with zeros to 32 bits).
Rows of the formats FRAME and INTERNAL have no word: width 0 and an empty mask. -/
structure Row where
  format  : String
  width   : Nat
  pattern : BitVec 32
  mask    : BitVec 32

/-- The row of each operation, as spec/opcode_table.json has it. -/
def row : Instr → Row
  | .hostOpen => ⟨"HOSTW", 32, 0x00000001, 0xFFFFFFFF⟩
  | .hostClose => ⟨"HOSTW", 32, 0x00000002, 0xFFFFFFFF⟩
  | .hostSend _ _ _ => ⟨"HOSTW", 32, 0x00000003, 0xFF0000FF⟩
  | .hostSendz => ⟨"HOSTW", 32, 0x00000004, 0xFFFFFFFF⟩
  | .cfgwrPreamble _ => ⟨"HOSTW", 32, 0x00000005, 0xFF00FFFF⟩
  | .cfgwrMaxRetries _ => ⟨"HOSTW", 32, 0x00000105, 0xFF00FFFF⟩
  | .cfgwrTimeout _ => ⟨"HOSTW", 32, 0x00000205, 0x0000FFFF⟩
  | .cfgwrAutoZero _ => ⟨"HOSTW", 32, 0x00000305, 0xFFFEFFFF⟩
  | .delimPreamble => ⟨"DELIM", 8, 0xFF, 0xFF⟩
  | .delimLong _ => ⟨"DELIM", 8, 0x80, 0x80⟩
  | .delimShort _ => ⟨"DELIM", 8, 0x00, 0x80⟩
  | .delimReqLong => ⟨"DELIM", 8, 0x82, 0xFF⟩
  | .delimReqShort => ⟨"DELIM", 8, 0x02, 0xFF⟩
  | .status1Comm _ => ⟨"STATUS1", 8, 0x80, 0x80⟩
  | .status1CmdSpecific _ => ⟨"STATUS1", 8, 0x00, 0x80⟩
  | .rxSeekPreamble _ => ⟨"P_STATE", 4, 0x0, 0xF⟩
  | .rxReadDelimiter _ => ⟨"P_STATE", 4, 0x1, 0xF⟩
  | .rxReadAddress _ => ⟨"P_STATE", 4, 0x2, 0xF⟩
  | .rxReadCommand _ => ⟨"P_STATE", 4, 0x3, 0xF⟩
  | .rxReadByteCount _ => ⟨"P_STATE", 4, 0x4, 0xF⟩
  | .rxReadStatus _ => ⟨"P_STATE", 4, 0x5, 0xF⟩
  | .rxReadData _ => ⟨"P_STATE", 4, 0x6, 0xF⟩
  | .rxReadChecksum _ => ⟨"P_STATE", 4, 0x7, 0xF⟩
  | .rxComplete => ⟨"P_STATE", 4, 0x8, 0xF⟩
  | .tickIdle => ⟨"S_STATE", 3, 0x0, 0x7⟩
  | .tickSettle => ⟨"S_STATE", 3, 0x1, 0x7⟩
  | .tickGuard => ⟨"S_STATE", 3, 0x2, 0x7⟩
  | .tickWrite => ⟨"S_STATE", 3, 0x3, 0x7⟩
  | .tickHold => ⟨"S_STATE", 3, 0x4, 0x7⟩
  | .tickWait => ⟨"S_STATE", 3, 0x5, 0x7⟩
  | .doneOpened => ⟨"DONE", 4, 0x0, 0xF⟩
  | .doneClosed => ⟨"DONE", 4, 0x1, 0xF⟩
  | .doneSuccess => ⟨"DONE", 4, 0x2, 0xF⟩
  | .doneCommfault => ⟨"DONE", 4, 0x3, 0xF⟩
  | .doneNone => ⟨"DONE", 4, 0x4, 0xF⟩
  | .doneCfgOk => ⟨"DONE", 4, 0x5, 0xF⟩
  | .doneErrNotExisting => ⟨"DONE", 4, 0x8, 0xF⟩
  | .doneErrAlreadyOpen => ⟨"DONE", 4, 0x9, 0xF⟩
  | .doneErrUnknown => ⟨"DONE", 4, 0xA, 0xF⟩
  | .doneErrNotOpen => ⟨"DONE", 4, 0xB, 0xF⟩
  | .doneBadop => ⟨"DONE", 4, 0xF, 0xF⟩
  | .reqLong _ _ _ _ => ⟨"FRAME", 0, 0, 0⟩
  | .reqShort _ _ _ => ⟨"FRAME", 0, 0, 0⟩
  | .rspLong _ _ _ _ _ _ => ⟨"FRAME", 0, 0, 0⟩
  | .rspShort _ _ _ _ _ => ⟨"FRAME", 0, 0, 0⟩
  | .xor8 _ => ⟨"INTERNAL", 0, 0, 0⟩
  | .zero => ⟨"INTERNAL", 0, 0, 0⟩
  | .build => ⟨"INTERNAL", 0, 0, 0⟩
  | .encode _ => ⟨"INTERNAL", 0, 0, 0⟩
  | .decode => ⟨"INTERNAL", 0, 0, 0⟩
  | .rxbyte _ => ⟨"INTERNAL", 0, 0, 0⟩
  | .parserReset => ⟨"INTERNAL", 0, 0, 0⟩
  | .notify _ => ⟨"INTERNAL", 0, 0, 0⟩
  | .tick => ⟨"INTERNAL", 0, 0, 0⟩
  | .holdMs _ => ⟨"INTERNAL", 0, 0, 0⟩
  | .txBegin => ⟨"INTERNAL", 0, 0, 0⟩
  | .keyup => ⟨"INTERNAL", 0, 0, 0⟩
  | .startWrite => ⟨"INTERNAL", 0, 0, 0⟩
  | .txwrite => ⟨"INTERNAL", 0, 0, 0⟩
  | .txdone => ⟨"INTERNAL", 0, 0, 0⟩
  | .hold => ⟨"INTERNAL", 0, 0, 0⟩
  | .unkey => ⟨"INTERNAL", 0, 0, 0⟩
  | .hostop _ _ => ⟨"INTERNAL", 0, 0, 0⟩
  | .exchange _ => ⟨"INTERNAL", 0, 0, 0⟩
  | .arm => ⟨"INTERNAL", 0, 0, 0⟩
  | .enterWait => ⟨"INTERNAL", 0, 0, 0⟩
  | .resolve => ⟨"INTERNAL", 0, 0, 0⟩
  | .timeout => ⟨"INTERNAL", 0, 0, 0⟩
  | .classify => ⟨"INTERNAL", 0, 0, 0⟩
  | .retryOr _ => ⟨"INTERNAL", 0, 0, 0⟩
  | .flags _ => ⟨"INTERNAL", 0, 0, 0⟩
  | .finish _ => ⟨"INTERNAL", 0, 0, 0⟩
  | .learn _ => ⟨"INTERNAL", 0, 0, 0⟩
  | .xfault => ⟨"INTERNAL", 0, 0, 0⟩

/-- The format and the width of an encoding, and the word that the table's pattern speaks of. -/
def word : Encoded → String × Nat × BitVec 32
  | .hostw w _ => ("HOSTW", 32, w)
  | .delim b => ("DELIM", 8, b.setWidth 32)
  | .delimReq b => ("DELIM", 8, b.setWidth 32)
  | .status1 b => ("STATUS1", 8, b.setWidth 32)
  | .pstate code _ => ("P_STATE", 4, code.setWidth 32)
  | .sstate code => ("S_STATE", 3, code.setWidth 32)
  | .done code => ("DONE", 4, code.setWidth 32)
  | .request _ => ("FRAME", 0, 0)
  | .response _ => ("FRAME", 0, 0)

/-- The encoding of `i` is a word of its row of the opcode table; it has none exactly when the row is INTERNAL. -/
def Statement (i : Instr) : Prop :=
  match encode i with
  | none => (row i).format = "INTERNAL"
  | some e =>
      (word e).1 = (row i).format ∧ (word e).2.1 = (row i).width ∧ (word e).2.2 &&& (row i).mask = (row i).pattern

/-- Bit by bit: a host word made of four bytes, under a mask that leaves out its second and third byte. -/
theorem host_word_masked (a b c d : Byte) :
    (a ++ b ++ c ++ d : BitVec 32) &&& 0xFF0000FF = a ++ (0 : BitVec 16) ++ d := by
  apply BitVec.eq_of_getLsbD_eq
  intro i hi
  simp only [BitVec.getLsbD_and, BitVec.getLsbD_append]
  interval_cases i <;> simp

/-- Bit by bit: a host word whose upper half is left out by the mask. -/
theorem host_word_low_half (v p : BitVec 16) : (v ++ p : BitVec 32) &&& 0x0000FFFF = (0 : BitVec 16) ++ p := by
  apply BitVec.eq_of_getLsbD_eq
  intro i hi
  simp only [BitVec.getLsbD_and, BitVec.getLsbD_append]
  interval_cases i <;> simp

theorem hostOpen : Statement .hostOpen := ⟨rfl, rfl, rfl⟩
theorem hostClose : Statement .hostClose := ⟨rfl, rfl, rfl⟩
theorem hostSend (cmd len : Byte) (data : List Byte) : Statement (.hostSend cmd len data) := ⟨rfl, rfl, host_word_masked 0x00 len cmd 0x03⟩
theorem hostSendz : Statement .hostSendz := ⟨rfl, rfl, rfl⟩
theorem cfgwrPreamble (v : Byte) : Statement (.cfgwrPreamble v) := ⟨rfl, rfl, by revert v; decide⟩
theorem cfgwrMaxRetries (v : Byte) : Statement (.cfgwrMaxRetries v) := ⟨rfl, rfl, by revert v; decide⟩
theorem cfgwrTimeout (v : BitVec 16) : Statement (.cfgwrTimeout v) := ⟨rfl, rfl, host_word_low_half v 0x0205⟩
theorem cfgwrAutoZero (v : Bool) : Statement (.cfgwrAutoZero v) := ⟨rfl, rfl, by revert v; decide⟩
theorem delimPreamble : Statement .delimPreamble := ⟨rfl, rfl, rfl⟩
theorem delimLong (t : BitVec 7) : Statement (.delimLong t) := ⟨rfl, rfl, by revert t; decide⟩
theorem delimShort (t : BitVec 7) : Statement (.delimShort t) := ⟨rfl, rfl, by revert t; decide⟩
theorem delimReqLong : Statement .delimReqLong := ⟨rfl, rfl, rfl⟩
theorem delimReqShort : Statement .delimReqShort := ⟨rfl, rfl, rfl⟩
theorem status1Comm (x : BitVec 7) : Statement (.status1Comm x) := ⟨rfl, rfl, by revert x; decide⟩
theorem status1CmdSpecific (x : BitVec 7) : Statement (.status1CmdSpecific x) := ⟨rfl, rfl, by revert x; decide⟩
theorem rxSeekPreamble (b : Byte) : Statement (.rxSeekPreamble b) := ⟨rfl, rfl, (by decide : (PState.seekPreamble.code.setWidth 32 &&& 0xF : BitVec 32) = 0x0)⟩
theorem rxReadDelimiter (b : Byte) : Statement (.rxReadDelimiter b) := ⟨rfl, rfl, (by decide : (PState.readDelimiter.code.setWidth 32 &&& 0xF : BitVec 32) = 0x1)⟩
theorem rxReadAddress (b : Byte) : Statement (.rxReadAddress b) := ⟨rfl, rfl, (by decide : (PState.readAddress.code.setWidth 32 &&& 0xF : BitVec 32) = 0x2)⟩
theorem rxReadCommand (b : Byte) : Statement (.rxReadCommand b) := ⟨rfl, rfl, (by decide : (PState.readCommand.code.setWidth 32 &&& 0xF : BitVec 32) = 0x3)⟩
theorem rxReadByteCount (b : Byte) : Statement (.rxReadByteCount b) := ⟨rfl, rfl, (by decide : (PState.readByteCount.code.setWidth 32 &&& 0xF : BitVec 32) = 0x4)⟩
theorem rxReadStatus (b : Byte) : Statement (.rxReadStatus b) := ⟨rfl, rfl, (by decide : (PState.readStatus.code.setWidth 32 &&& 0xF : BitVec 32) = 0x5)⟩
theorem rxReadData (b : Byte) : Statement (.rxReadData b) := ⟨rfl, rfl, (by decide : (PState.readData.code.setWidth 32 &&& 0xF : BitVec 32) = 0x6)⟩
theorem rxReadChecksum (b : Byte) : Statement (.rxReadChecksum b) := ⟨rfl, rfl, (by decide : (PState.readChecksum.code.setWidth 32 &&& 0xF : BitVec 32) = 0x7)⟩
theorem rxComplete : Statement .rxComplete := ⟨rfl, rfl, (by decide : (PState.complete.code.setWidth 32 &&& 0xF : BitVec 32) = 0x8)⟩
theorem tickIdle : Statement .tickIdle := ⟨rfl, rfl, rfl⟩
theorem tickSettle : Statement .tickSettle := ⟨rfl, rfl, rfl⟩
theorem tickGuard : Statement .tickGuard := ⟨rfl, rfl, rfl⟩
theorem tickWrite : Statement .tickWrite := ⟨rfl, rfl, rfl⟩
theorem tickHold : Statement .tickHold := ⟨rfl, rfl, rfl⟩
theorem tickWait : Statement .tickWait := ⟨rfl, rfl, rfl⟩
theorem doneOpened : Statement .doneOpened := ⟨rfl, rfl, rfl⟩
theorem doneClosed : Statement .doneClosed := ⟨rfl, rfl, rfl⟩
theorem doneSuccess : Statement .doneSuccess := ⟨rfl, rfl, rfl⟩
theorem doneCommfault : Statement .doneCommfault := ⟨rfl, rfl, rfl⟩
theorem doneNone : Statement .doneNone := ⟨rfl, rfl, rfl⟩
theorem doneCfgOk : Statement .doneCfgOk := ⟨rfl, rfl, rfl⟩
theorem doneErrNotExisting : Statement .doneErrNotExisting := ⟨rfl, rfl, rfl⟩
theorem doneErrAlreadyOpen : Statement .doneErrAlreadyOpen := ⟨rfl, rfl, rfl⟩
theorem doneErrUnknown : Statement .doneErrUnknown := ⟨rfl, rfl, rfl⟩
theorem doneErrNotOpen : Statement .doneErrNotOpen := ⟨rfl, rfl, rfl⟩
theorem doneBadop : Statement .doneBadop := ⟨rfl, rfl, rfl⟩
theorem reqLong (pre : Byte) (addr : Addr5) (cmd : Byte) (data : List Byte) : Statement (.reqLong pre addr cmd data) := ⟨rfl, rfl, (by decide : (0 &&& 0 : BitVec 32) = 0)⟩
theorem reqShort (pre : Byte) (cmd : Byte) (data : List Byte) : Statement (.reqShort pre cmd data) := ⟨rfl, rfl, (by decide : (0 &&& 0 : BitVec 32) = 0)⟩
theorem rspLong (pre : Nat) (t : BitVec 7) (addr : Addr5) (cmd : Byte) (status : Status2) (data : List Byte) : Statement (.rspLong pre t addr cmd status data) := ⟨rfl, rfl, (by decide : (0 &&& 0 : BitVec 32) = 0)⟩
theorem rspShort (pre : Nat) (t : BitVec 7) (cmd : Byte) (status : Status2) (data : List Byte) : Statement (.rspShort pre t cmd status data) := ⟨rfl, rfl, (by decide : (0 &&& 0 : BitVec 32) = 0)⟩
theorem xor8 (bytes : List Byte) : Statement (.xor8 bytes) := rfl
theorem zero : Statement .zero := rfl
theorem build : Statement .build := rfl
theorem encode (c : Command) : Statement (.encode c) := rfl
theorem decode : Statement .decode := rfl
theorem rxbyte (b : Byte) : Statement (.rxbyte b) := rfl
theorem parserReset : Statement .parserReset := rfl
theorem notify (f : CommandResult) : Statement (.notify f) := rfl
theorem tick : Statement .tick := rfl
theorem holdMs (n : Nat) : Statement (.holdMs n) := rfl
theorem txBegin : Statement .txBegin := rfl
theorem keyup : Statement .keyup := rfl
theorem startWrite : Statement .startWrite := rfl
theorem txwrite : Statement .txwrite := rfl
theorem txdone : Statement .txdone := rfl
theorem hold : Statement .hold := rfl
theorem unkey : Statement .unkey := rfl
theorem hostop (w : HostWord) (bytes : List Byte) : Statement (.hostop w bytes) := rfl
theorem exchange (c : Command) : Statement (.exchange c) := rfl
theorem arm : Statement .arm := rfl
theorem enterWait : Statement .enterWait := rfl
theorem resolve : Statement .resolve := rfl
theorem timeout : Statement .timeout := rfl
theorem classify : Statement .classify := rfl
theorem retryOr (code : RetryCode) : Statement (.retryOr code) := rfl
theorem flags (s : Byte) : Statement (.flags s) := rfl
theorem finish (code : FinishCode) : Statement (.finish code) := rfl
theorem learn (f : CommandResult) : Statement (.learn f) := rfl
theorem xfault : Statement .xfault := rfl

end Sys2Proof.Laws.EncodedFormat
end

