-- ==== Sys2Proof/Laws/State.lean ====
section
/-! SUPPORT. What each update of State leaves and sets, one lemma per field per update, so that no later proof
unfolds a record update. -/

namespace Sys2Proof.Machine

/-! ## `emit` -/

@[simp] theorem emit_reqOp (o : Output) (s : State) :
    (emit o s).reqOp = s.reqOp := rfl
@[simp] theorem emit_reqCmd (o : Output) (s : State) :
    (emit o s).reqCmd = s.reqCmd := rfl
@[simp] theorem emit_reqLen (o : Output) (s : State) :
    (emit o s).reqLen = s.reqLen := rfl
@[simp] theorem emit_reqData (o : Output) (s : State) :
    (emit o s).reqData = s.reqData := rfl
@[simp] theorem emit_resLong (o : Output) (s : State) :
    (emit o s).resLong = s.resLong := rfl
@[simp] theorem emit_resAddr (o : Output) (s : State) :
    (emit o s).resAddr = s.resAddr := rfl
@[simp] theorem emit_resCmd (o : Output) (s : State) :
    (emit o s).resCmd = s.resCmd := rfl
@[simp] theorem emit_resStatus (o : Output) (s : State) :
    (emit o s).resStatus = s.resStatus := rfl
@[simp] theorem emit_resLen (o : Output) (s : State) :
    (emit o s).resLen = s.resLen := rfl
@[simp] theorem emit_resData (o : Output) (s : State) :
    (emit o s).resData = s.resData := rfl
@[simp] theorem emit_cfgPreamble (o : Output) (s : State) :
    (emit o s).cfgPreamble = s.cfgPreamble := rfl
@[simp] theorem emit_cfgMaxRetries (o : Output) (s : State) :
    (emit o s).cfgMaxRetries = s.cfgMaxRetries := rfl
@[simp] theorem emit_cfgTimeoutMs (o : Output) (s : State) :
    (emit o s).cfgTimeoutMs = s.cfgTimeoutMs := rfl
@[simp] theorem emit_cfgAutoZero (o : Output) (s : State) :
    (emit o s).cfgAutoZero = s.cfgAutoZero := rfl
@[simp] theorem emit_opened (o : Output) (s : State) :
    (emit o s).opened = s.opened := rfl
@[simp] theorem emit_curAddr (o : Output) (s : State) :
    (emit o s).curAddr = s.curAddr := rfl
@[simp] theorem emit_curAddrValid (o : Output) (s : State) :
    (emit o s).curAddrValid = s.curAddrValid := rfl
@[simp] theorem emit_sState (o : Output) (s : State) :
    (emit o s).sState = s.sState := rfl
@[simp] theorem emit_sPhase (o : Output) (s : State) :
    (emit o s).sPhase = s.sPhase := rfl
@[simp] theorem emit_zeroDone (o : Output) (s : State) :
    (emit o s).zeroDone = s.zeroDone := rfl
@[simp] theorem emit_retryBudget (o : Output) (s : State) :
    (emit o s).retryBudget = s.retryBudget := rfl
@[simp] theorem emit_handlerArmed (o : Output) (s : State) :
    (emit o s).handlerArmed = s.handlerArmed := rfl
@[simp] theorem emit_respValid (o : Output) (s : State) :
    (emit o s).respValid = s.respValid := rfl
@[simp] theorem emit_pState (o : Output) (s : State) :
    (emit o s).pState = s.pState := rfl
@[simp] theorem emit_pDelim (o : Output) (s : State) :
    (emit o s).pDelim = s.pDelim := rfl
@[simp] theorem emit_pLong (o : Output) (s : State) :
    (emit o s).pLong = s.pLong := rfl
@[simp] theorem emit_pAddr (o : Output) (s : State) :
    (emit o s).pAddr = s.pAddr := rfl
@[simp] theorem emit_pCmd (o : Output) (s : State) :
    (emit o s).pCmd = s.pCmd := rfl
@[simp] theorem emit_pBc (o : Output) (s : State) :
    (emit o s).pBc = s.pBc := rfl
@[simp] theorem emit_pStatus (o : Output) (s : State) :
    (emit o s).pStatus = s.pStatus := rfl
@[simp] theorem emit_pData (o : Output) (s : State) :
    (emit o s).pData = s.pData := rfl
@[simp] theorem emit_pCnt (o : Output) (s : State) :
    (emit o s).pCnt = s.pCnt := rfl
@[simp] theorem emit_pXor (o : Output) (s : State) :
    (emit o s).pXor = s.pXor := rfl
@[simp] theorem emit_txBuf (o : Output) (s : State) :
    (emit o s).txBuf = s.txBuf := rfl
@[simp] theorem emit_txLen (o : Output) (s : State) :
    (emit o s).txLen = s.txLen := rfl
@[simp] theorem emit_txEn (o : Output) (s : State) :
    (emit o s).txEn = s.txEn := rfl
@[simp] theorem emit_rxEnLine (o : Output) (s : State) :
    (emit o s).rxEnLine = s.rxEnLine := rfl
@[simp] theorem emit_sElapsed (o : Output) (s : State) :
    (emit o s).sElapsed = s.sElapsed := rfl
@[simp] theorem emit_sTxElapsed (o : Output) (s : State) :
    (emit o s).sTxElapsed = s.sTxElapsed := rfl
@[simp] theorem emit_sHoldTarget (o : Output) (s : State) :
    (emit o s).sHoldTarget = s.sHoldTarget := rfl
@[simp] theorem emit_schedule (o : Output) (s : State) :
    (emit o s).schedule = s.schedule := rfl
@[simp] theorem emit_openAnswer (o : Output) (s : State) :
    (emit o s).openAnswer = s.openAnswer := rfl
@[simp] theorem emit_outs (o : Output) (s : State) :
    (emit o s).outs = o :: s.outs := rfl
@[simp] theorem emit_ret (o : Output) (s : State) :
    (emit o s).ret = s.ret := rfl

/-! ## `giveBack` -/

@[simp] theorem giveBack_reqOp (r : Returned) (s : State) :
    (giveBack r s).reqOp = s.reqOp := rfl
@[simp] theorem giveBack_reqCmd (r : Returned) (s : State) :
    (giveBack r s).reqCmd = s.reqCmd := rfl
@[simp] theorem giveBack_reqLen (r : Returned) (s : State) :
    (giveBack r s).reqLen = s.reqLen := rfl
@[simp] theorem giveBack_reqData (r : Returned) (s : State) :
    (giveBack r s).reqData = s.reqData := rfl
@[simp] theorem giveBack_resLong (r : Returned) (s : State) :
    (giveBack r s).resLong = s.resLong := rfl
@[simp] theorem giveBack_resAddr (r : Returned) (s : State) :
    (giveBack r s).resAddr = s.resAddr := rfl
@[simp] theorem giveBack_resCmd (r : Returned) (s : State) :
    (giveBack r s).resCmd = s.resCmd := rfl
@[simp] theorem giveBack_resStatus (r : Returned) (s : State) :
    (giveBack r s).resStatus = s.resStatus := rfl
@[simp] theorem giveBack_resLen (r : Returned) (s : State) :
    (giveBack r s).resLen = s.resLen := rfl
@[simp] theorem giveBack_resData (r : Returned) (s : State) :
    (giveBack r s).resData = s.resData := rfl
@[simp] theorem giveBack_cfgPreamble (r : Returned) (s : State) :
    (giveBack r s).cfgPreamble = s.cfgPreamble := rfl
@[simp] theorem giveBack_cfgMaxRetries (r : Returned) (s : State) :
    (giveBack r s).cfgMaxRetries = s.cfgMaxRetries := rfl
@[simp] theorem giveBack_cfgTimeoutMs (r : Returned) (s : State) :
    (giveBack r s).cfgTimeoutMs = s.cfgTimeoutMs := rfl
@[simp] theorem giveBack_cfgAutoZero (r : Returned) (s : State) :
    (giveBack r s).cfgAutoZero = s.cfgAutoZero := rfl
@[simp] theorem giveBack_opened (r : Returned) (s : State) :
    (giveBack r s).opened = s.opened := rfl
@[simp] theorem giveBack_curAddr (r : Returned) (s : State) :
    (giveBack r s).curAddr = s.curAddr := rfl
@[simp] theorem giveBack_curAddrValid (r : Returned) (s : State) :
    (giveBack r s).curAddrValid = s.curAddrValid := rfl
@[simp] theorem giveBack_sState (r : Returned) (s : State) :
    (giveBack r s).sState = s.sState := rfl
@[simp] theorem giveBack_sPhase (r : Returned) (s : State) :
    (giveBack r s).sPhase = s.sPhase := rfl
@[simp] theorem giveBack_zeroDone (r : Returned) (s : State) :
    (giveBack r s).zeroDone = s.zeroDone := rfl
@[simp] theorem giveBack_retryBudget (r : Returned) (s : State) :
    (giveBack r s).retryBudget = s.retryBudget := rfl
@[simp] theorem giveBack_handlerArmed (r : Returned) (s : State) :
    (giveBack r s).handlerArmed = s.handlerArmed := rfl
@[simp] theorem giveBack_respValid (r : Returned) (s : State) :
    (giveBack r s).respValid = s.respValid := rfl
@[simp] theorem giveBack_pState (r : Returned) (s : State) :
    (giveBack r s).pState = s.pState := rfl
@[simp] theorem giveBack_pDelim (r : Returned) (s : State) :
    (giveBack r s).pDelim = s.pDelim := rfl
@[simp] theorem giveBack_pLong (r : Returned) (s : State) :
    (giveBack r s).pLong = s.pLong := rfl
@[simp] theorem giveBack_pAddr (r : Returned) (s : State) :
    (giveBack r s).pAddr = s.pAddr := rfl
@[simp] theorem giveBack_pCmd (r : Returned) (s : State) :
    (giveBack r s).pCmd = s.pCmd := rfl
@[simp] theorem giveBack_pBc (r : Returned) (s : State) :
    (giveBack r s).pBc = s.pBc := rfl
@[simp] theorem giveBack_pStatus (r : Returned) (s : State) :
    (giveBack r s).pStatus = s.pStatus := rfl
@[simp] theorem giveBack_pData (r : Returned) (s : State) :
    (giveBack r s).pData = s.pData := rfl
@[simp] theorem giveBack_pCnt (r : Returned) (s : State) :
    (giveBack r s).pCnt = s.pCnt := rfl
@[simp] theorem giveBack_pXor (r : Returned) (s : State) :
    (giveBack r s).pXor = s.pXor := rfl
@[simp] theorem giveBack_txBuf (r : Returned) (s : State) :
    (giveBack r s).txBuf = s.txBuf := rfl
@[simp] theorem giveBack_txLen (r : Returned) (s : State) :
    (giveBack r s).txLen = s.txLen := rfl
@[simp] theorem giveBack_txEn (r : Returned) (s : State) :
    (giveBack r s).txEn = s.txEn := rfl
@[simp] theorem giveBack_rxEnLine (r : Returned) (s : State) :
    (giveBack r s).rxEnLine = s.rxEnLine := rfl
@[simp] theorem giveBack_sElapsed (r : Returned) (s : State) :
    (giveBack r s).sElapsed = s.sElapsed := rfl
@[simp] theorem giveBack_sTxElapsed (r : Returned) (s : State) :
    (giveBack r s).sTxElapsed = s.sTxElapsed := rfl
@[simp] theorem giveBack_sHoldTarget (r : Returned) (s : State) :
    (giveBack r s).sHoldTarget = s.sHoldTarget := rfl
@[simp] theorem giveBack_schedule (r : Returned) (s : State) :
    (giveBack r s).schedule = s.schedule := rfl
@[simp] theorem giveBack_openAnswer (r : Returned) (s : State) :
    (giveBack r s).openAnswer = s.openAnswer := rfl
@[simp] theorem giveBack_outs (r : Returned) (s : State) :
    (giveBack r s).outs = s.outs := rfl
@[simp] theorem giveBack_ret (r : Returned) (s : State) :
    (giveBack r s).ret = r := rfl

/-! ## `parserReset` -/

@[simp] theorem parserReset_reqOp (s : State) :
    (parserReset s).reqOp = s.reqOp := rfl
@[simp] theorem parserReset_reqCmd (s : State) :
    (parserReset s).reqCmd = s.reqCmd := rfl
@[simp] theorem parserReset_reqLen (s : State) :
    (parserReset s).reqLen = s.reqLen := rfl
@[simp] theorem parserReset_reqData (s : State) :
    (parserReset s).reqData = s.reqData := rfl
@[simp] theorem parserReset_resLong (s : State) :
    (parserReset s).resLong = s.resLong := rfl
@[simp] theorem parserReset_resAddr (s : State) :
    (parserReset s).resAddr = s.resAddr := rfl
@[simp] theorem parserReset_resCmd (s : State) :
    (parserReset s).resCmd = s.resCmd := rfl
@[simp] theorem parserReset_resStatus (s : State) :
    (parserReset s).resStatus = s.resStatus := rfl
@[simp] theorem parserReset_resLen (s : State) :
    (parserReset s).resLen = s.resLen := rfl
@[simp] theorem parserReset_resData (s : State) :
    (parserReset s).resData = s.resData := rfl
@[simp] theorem parserReset_cfgPreamble (s : State) :
    (parserReset s).cfgPreamble = s.cfgPreamble := rfl
@[simp] theorem parserReset_cfgMaxRetries (s : State) :
    (parserReset s).cfgMaxRetries = s.cfgMaxRetries := rfl
@[simp] theorem parserReset_cfgTimeoutMs (s : State) :
    (parserReset s).cfgTimeoutMs = s.cfgTimeoutMs := rfl
@[simp] theorem parserReset_cfgAutoZero (s : State) :
    (parserReset s).cfgAutoZero = s.cfgAutoZero := rfl
@[simp] theorem parserReset_opened (s : State) :
    (parserReset s).opened = s.opened := rfl
@[simp] theorem parserReset_curAddr (s : State) :
    (parserReset s).curAddr = s.curAddr := rfl
@[simp] theorem parserReset_curAddrValid (s : State) :
    (parserReset s).curAddrValid = s.curAddrValid := rfl
@[simp] theorem parserReset_sState (s : State) :
    (parserReset s).sState = s.sState := rfl
@[simp] theorem parserReset_sPhase (s : State) :
    (parserReset s).sPhase = s.sPhase := rfl
@[simp] theorem parserReset_zeroDone (s : State) :
    (parserReset s).zeroDone = s.zeroDone := rfl
@[simp] theorem parserReset_retryBudget (s : State) :
    (parserReset s).retryBudget = s.retryBudget := rfl
@[simp] theorem parserReset_handlerArmed (s : State) :
    (parserReset s).handlerArmed = s.handlerArmed := rfl
@[simp] theorem parserReset_respValid (s : State) :
    (parserReset s).respValid = s.respValid := rfl
@[simp] theorem parserReset_pState (s : State) :
    (parserReset s).pState = .seekPreamble := rfl
@[simp] theorem parserReset_pDelim (s : State) :
    (parserReset s).pDelim = s.pDelim := rfl
@[simp] theorem parserReset_pLong (s : State) :
    (parserReset s).pLong = s.pLong := rfl
@[simp] theorem parserReset_pAddr (s : State) :
    (parserReset s).pAddr = s.pAddr := rfl
@[simp] theorem parserReset_pCmd (s : State) :
    (parserReset s).pCmd = s.pCmd := rfl
@[simp] theorem parserReset_pBc (s : State) :
    (parserReset s).pBc = s.pBc := rfl
@[simp] theorem parserReset_pStatus (s : State) :
    (parserReset s).pStatus = s.pStatus := rfl
@[simp] theorem parserReset_pData (s : State) :
    (parserReset s).pData = s.pData := rfl
@[simp] theorem parserReset_pCnt (s : State) :
    (parserReset s).pCnt = s.pCnt := rfl
@[simp] theorem parserReset_pXor (s : State) :
    (parserReset s).pXor = s.pXor := rfl
@[simp] theorem parserReset_txBuf (s : State) :
    (parserReset s).txBuf = s.txBuf := rfl
@[simp] theorem parserReset_txLen (s : State) :
    (parserReset s).txLen = s.txLen := rfl
@[simp] theorem parserReset_txEn (s : State) :
    (parserReset s).txEn = s.txEn := rfl
@[simp] theorem parserReset_rxEnLine (s : State) :
    (parserReset s).rxEnLine = s.rxEnLine := rfl
@[simp] theorem parserReset_sElapsed (s : State) :
    (parserReset s).sElapsed = s.sElapsed := rfl
@[simp] theorem parserReset_sTxElapsed (s : State) :
    (parserReset s).sTxElapsed = s.sTxElapsed := rfl
@[simp] theorem parserReset_sHoldTarget (s : State) :
    (parserReset s).sHoldTarget = s.sHoldTarget := rfl
@[simp] theorem parserReset_schedule (s : State) :
    (parserReset s).schedule = s.schedule := rfl
@[simp] theorem parserReset_openAnswer (s : State) :
    (parserReset s).openAnswer = s.openAnswer := rfl
@[simp] theorem parserReset_outs (s : State) :
    (parserReset s).outs = s.outs := rfl
@[simp] theorem parserReset_ret (s : State) :
    (parserReset s).ret = s.ret := rfl

/-! ## `txBegin` -/

@[simp] theorem txBegin_reqOp (s : State) :
    (txBegin s).reqOp = s.reqOp := rfl
@[simp] theorem txBegin_reqCmd (s : State) :
    (txBegin s).reqCmd = s.reqCmd := rfl
@[simp] theorem txBegin_reqLen (s : State) :
    (txBegin s).reqLen = s.reqLen := rfl
@[simp] theorem txBegin_reqData (s : State) :
    (txBegin s).reqData = s.reqData := rfl
@[simp] theorem txBegin_resLong (s : State) :
    (txBegin s).resLong = s.resLong := rfl
@[simp] theorem txBegin_resAddr (s : State) :
    (txBegin s).resAddr = s.resAddr := rfl
@[simp] theorem txBegin_resCmd (s : State) :
    (txBegin s).resCmd = s.resCmd := rfl
@[simp] theorem txBegin_resStatus (s : State) :
    (txBegin s).resStatus = s.resStatus := rfl
@[simp] theorem txBegin_resLen (s : State) :
    (txBegin s).resLen = s.resLen := rfl
@[simp] theorem txBegin_resData (s : State) :
    (txBegin s).resData = s.resData := rfl
@[simp] theorem txBegin_cfgPreamble (s : State) :
    (txBegin s).cfgPreamble = s.cfgPreamble := rfl
@[simp] theorem txBegin_cfgMaxRetries (s : State) :
    (txBegin s).cfgMaxRetries = s.cfgMaxRetries := rfl
@[simp] theorem txBegin_cfgTimeoutMs (s : State) :
    (txBegin s).cfgTimeoutMs = s.cfgTimeoutMs := rfl
@[simp] theorem txBegin_cfgAutoZero (s : State) :
    (txBegin s).cfgAutoZero = s.cfgAutoZero := rfl
@[simp] theorem txBegin_opened (s : State) :
    (txBegin s).opened = s.opened := rfl
@[simp] theorem txBegin_curAddr (s : State) :
    (txBegin s).curAddr = s.curAddr := rfl
@[simp] theorem txBegin_curAddrValid (s : State) :
    (txBegin s).curAddrValid = s.curAddrValid := rfl
@[simp] theorem txBegin_sState (s : State) :
    (txBegin s).sState = .settle := rfl
@[simp] theorem txBegin_sPhase (s : State) :
    (txBegin s).sPhase = s.sPhase := rfl
@[simp] theorem txBegin_zeroDone (s : State) :
    (txBegin s).zeroDone = s.zeroDone := rfl
@[simp] theorem txBegin_retryBudget (s : State) :
    (txBegin s).retryBudget = s.retryBudget := rfl
@[simp] theorem txBegin_handlerArmed (s : State) :
    (txBegin s).handlerArmed = s.handlerArmed := rfl
@[simp] theorem txBegin_respValid (s : State) :
    (txBegin s).respValid = s.respValid := rfl
@[simp] theorem txBegin_pState (s : State) :
    (txBegin s).pState = s.pState := rfl
@[simp] theorem txBegin_pDelim (s : State) :
    (txBegin s).pDelim = s.pDelim := rfl
@[simp] theorem txBegin_pLong (s : State) :
    (txBegin s).pLong = s.pLong := rfl
@[simp] theorem txBegin_pAddr (s : State) :
    (txBegin s).pAddr = s.pAddr := rfl
@[simp] theorem txBegin_pCmd (s : State) :
    (txBegin s).pCmd = s.pCmd := rfl
@[simp] theorem txBegin_pBc (s : State) :
    (txBegin s).pBc = s.pBc := rfl
@[simp] theorem txBegin_pStatus (s : State) :
    (txBegin s).pStatus = s.pStatus := rfl
@[simp] theorem txBegin_pData (s : State) :
    (txBegin s).pData = s.pData := rfl
@[simp] theorem txBegin_pCnt (s : State) :
    (txBegin s).pCnt = s.pCnt := rfl
@[simp] theorem txBegin_pXor (s : State) :
    (txBegin s).pXor = s.pXor := rfl
@[simp] theorem txBegin_txBuf (s : State) :
    (txBegin s).txBuf = s.txBuf := rfl
@[simp] theorem txBegin_txLen (s : State) :
    (txBegin s).txLen = s.txLen := rfl
@[simp] theorem txBegin_txEn (s : State) :
    (txBegin s).txEn = s.txEn := rfl
@[simp] theorem txBegin_rxEnLine (s : State) :
    (txBegin s).rxEnLine = s.rxEnLine := rfl
@[simp] theorem txBegin_sElapsed (s : State) :
    (txBegin s).sElapsed = 0 := rfl
@[simp] theorem txBegin_sTxElapsed (s : State) :
    (txBegin s).sTxElapsed = s.sTxElapsed := rfl
@[simp] theorem txBegin_sHoldTarget (s : State) :
    (txBegin s).sHoldTarget = s.sHoldTarget := rfl
@[simp] theorem txBegin_schedule (s : State) :
    (txBegin s).schedule = s.schedule := rfl
@[simp] theorem txBegin_openAnswer (s : State) :
    (txBegin s).openAnswer = s.openAnswer := rfl
@[simp] theorem txBegin_outs (s : State) :
    (txBegin s).outs = s.outs := rfl
@[simp] theorem txBegin_ret (s : State) :
    (txBegin s).ret = s.ret := rfl

/-! ## `arm` -/

@[simp] theorem arm_reqOp (s : State) :
    (arm s).reqOp = s.reqOp := rfl
@[simp] theorem arm_reqCmd (s : State) :
    (arm s).reqCmd = s.reqCmd := rfl
@[simp] theorem arm_reqLen (s : State) :
    (arm s).reqLen = s.reqLen := rfl
@[simp] theorem arm_reqData (s : State) :
    (arm s).reqData = s.reqData := rfl
@[simp] theorem arm_resLong (s : State) :
    (arm s).resLong = s.resLong := rfl
@[simp] theorem arm_resAddr (s : State) :
    (arm s).resAddr = s.resAddr := rfl
@[simp] theorem arm_resCmd (s : State) :
    (arm s).resCmd = s.resCmd := rfl
@[simp] theorem arm_resStatus (s : State) :
    (arm s).resStatus = s.resStatus := rfl
@[simp] theorem arm_resLen (s : State) :
    (arm s).resLen = s.resLen := rfl
@[simp] theorem arm_resData (s : State) :
    (arm s).resData = s.resData := rfl
@[simp] theorem arm_cfgPreamble (s : State) :
    (arm s).cfgPreamble = s.cfgPreamble := rfl
@[simp] theorem arm_cfgMaxRetries (s : State) :
    (arm s).cfgMaxRetries = s.cfgMaxRetries := rfl
@[simp] theorem arm_cfgTimeoutMs (s : State) :
    (arm s).cfgTimeoutMs = s.cfgTimeoutMs := rfl
@[simp] theorem arm_cfgAutoZero (s : State) :
    (arm s).cfgAutoZero = s.cfgAutoZero := rfl
@[simp] theorem arm_opened (s : State) :
    (arm s).opened = s.opened := rfl
@[simp] theorem arm_curAddr (s : State) :
    (arm s).curAddr = s.curAddr := rfl
@[simp] theorem arm_curAddrValid (s : State) :
    (arm s).curAddrValid = s.curAddrValid := rfl
@[simp] theorem arm_sState (s : State) :
    (arm s).sState = .settle := rfl
@[simp] theorem arm_sPhase (s : State) :
    (arm s).sPhase = s.sPhase := rfl
@[simp] theorem arm_zeroDone (s : State) :
    (arm s).zeroDone = s.zeroDone := rfl
@[simp] theorem arm_retryBudget (s : State) :
    (arm s).retryBudget = s.retryBudget := rfl
@[simp] theorem arm_handlerArmed (s : State) :
    (arm s).handlerArmed = true := rfl
@[simp] theorem arm_respValid (s : State) :
    (arm s).respValid = false := rfl
@[simp] theorem arm_pState (s : State) :
    (arm s).pState = .seekPreamble := rfl
@[simp] theorem arm_pDelim (s : State) :
    (arm s).pDelim = s.pDelim := rfl
@[simp] theorem arm_pLong (s : State) :
    (arm s).pLong = s.pLong := rfl
@[simp] theorem arm_pAddr (s : State) :
    (arm s).pAddr = s.pAddr := rfl
@[simp] theorem arm_pCmd (s : State) :
    (arm s).pCmd = s.pCmd := rfl
@[simp] theorem arm_pBc (s : State) :
    (arm s).pBc = s.pBc := rfl
@[simp] theorem arm_pStatus (s : State) :
    (arm s).pStatus = s.pStatus := rfl
@[simp] theorem arm_pData (s : State) :
    (arm s).pData = s.pData := rfl
@[simp] theorem arm_pCnt (s : State) :
    (arm s).pCnt = s.pCnt := rfl
@[simp] theorem arm_pXor (s : State) :
    (arm s).pXor = s.pXor := rfl
@[simp] theorem arm_txBuf (s : State) :
    (arm s).txBuf = s.txBuf := rfl
@[simp] theorem arm_txLen (s : State) :
    (arm s).txLen = s.txLen := rfl
@[simp] theorem arm_txEn (s : State) :
    (arm s).txEn = s.txEn := rfl
@[simp] theorem arm_rxEnLine (s : State) :
    (arm s).rxEnLine = s.rxEnLine := rfl
@[simp] theorem arm_sElapsed (s : State) :
    (arm s).sElapsed = 0 := rfl
@[simp] theorem arm_sTxElapsed (s : State) :
    (arm s).sTxElapsed = s.sTxElapsed := rfl
@[simp] theorem arm_sHoldTarget (s : State) :
    (arm s).sHoldTarget = s.sHoldTarget := rfl
@[simp] theorem arm_schedule (s : State) :
    (arm s).schedule = s.schedule := rfl
@[simp] theorem arm_openAnswer (s : State) :
    (arm s).openAnswer = s.openAnswer := rfl
@[simp] theorem arm_outs (s : State) :
    (arm s).outs = s.outs := rfl
@[simp] theorem arm_ret (s : State) :
    (arm s).ret = s.ret := rfl

/-! ## `encodeInto` -/

@[simp] theorem encodeInto_reqOp (c : Command) (s : State) :
    (encodeInto c s).reqOp = s.reqOp := rfl
@[simp] theorem encodeInto_reqCmd (c : Command) (s : State) :
    (encodeInto c s).reqCmd = s.reqCmd := rfl
@[simp] theorem encodeInto_reqLen (c : Command) (s : State) :
    (encodeInto c s).reqLen = s.reqLen := rfl
@[simp] theorem encodeInto_reqData (c : Command) (s : State) :
    (encodeInto c s).reqData = s.reqData := rfl
@[simp] theorem encodeInto_resLong (c : Command) (s : State) :
    (encodeInto c s).resLong = s.resLong := rfl
@[simp] theorem encodeInto_resAddr (c : Command) (s : State) :
    (encodeInto c s).resAddr = s.resAddr := rfl
@[simp] theorem encodeInto_resCmd (c : Command) (s : State) :
    (encodeInto c s).resCmd = s.resCmd := rfl
@[simp] theorem encodeInto_resStatus (c : Command) (s : State) :
    (encodeInto c s).resStatus = s.resStatus := rfl
@[simp] theorem encodeInto_resLen (c : Command) (s : State) :
    (encodeInto c s).resLen = s.resLen := rfl
@[simp] theorem encodeInto_resData (c : Command) (s : State) :
    (encodeInto c s).resData = s.resData := rfl
@[simp] theorem encodeInto_cfgPreamble (c : Command) (s : State) :
    (encodeInto c s).cfgPreamble = s.cfgPreamble := rfl
@[simp] theorem encodeInto_cfgMaxRetries (c : Command) (s : State) :
    (encodeInto c s).cfgMaxRetries = s.cfgMaxRetries := rfl
@[simp] theorem encodeInto_cfgTimeoutMs (c : Command) (s : State) :
    (encodeInto c s).cfgTimeoutMs = s.cfgTimeoutMs := rfl
@[simp] theorem encodeInto_cfgAutoZero (c : Command) (s : State) :
    (encodeInto c s).cfgAutoZero = s.cfgAutoZero := rfl
@[simp] theorem encodeInto_opened (c : Command) (s : State) :
    (encodeInto c s).opened = s.opened := rfl
@[simp] theorem encodeInto_curAddr (c : Command) (s : State) :
    (encodeInto c s).curAddr = s.curAddr := rfl
@[simp] theorem encodeInto_curAddrValid (c : Command) (s : State) :
    (encodeInto c s).curAddrValid = s.curAddrValid := rfl
@[simp] theorem encodeInto_sState (c : Command) (s : State) :
    (encodeInto c s).sState = s.sState := rfl
@[simp] theorem encodeInto_sPhase (c : Command) (s : State) :
    (encodeInto c s).sPhase = s.sPhase := rfl
@[simp] theorem encodeInto_zeroDone (c : Command) (s : State) :
    (encodeInto c s).zeroDone = s.zeroDone := rfl
@[simp] theorem encodeInto_retryBudget (c : Command) (s : State) :
    (encodeInto c s).retryBudget = s.retryBudget := rfl
@[simp] theorem encodeInto_handlerArmed (c : Command) (s : State) :
    (encodeInto c s).handlerArmed = s.handlerArmed := rfl
@[simp] theorem encodeInto_respValid (c : Command) (s : State) :
    (encodeInto c s).respValid = s.respValid := rfl
@[simp] theorem encodeInto_pState (c : Command) (s : State) :
    (encodeInto c s).pState = s.pState := rfl
@[simp] theorem encodeInto_pDelim (c : Command) (s : State) :
    (encodeInto c s).pDelim = s.pDelim := rfl
@[simp] theorem encodeInto_pLong (c : Command) (s : State) :
    (encodeInto c s).pLong = s.pLong := rfl
@[simp] theorem encodeInto_pAddr (c : Command) (s : State) :
    (encodeInto c s).pAddr = s.pAddr := rfl
@[simp] theorem encodeInto_pCmd (c : Command) (s : State) :
    (encodeInto c s).pCmd = s.pCmd := rfl
@[simp] theorem encodeInto_pBc (c : Command) (s : State) :
    (encodeInto c s).pBc = s.pBc := rfl
@[simp] theorem encodeInto_pStatus (c : Command) (s : State) :
    (encodeInto c s).pStatus = s.pStatus := rfl
@[simp] theorem encodeInto_pData (c : Command) (s : State) :
    (encodeInto c s).pData = s.pData := rfl
@[simp] theorem encodeInto_pCnt (c : Command) (s : State) :
    (encodeInto c s).pCnt = s.pCnt := rfl
@[simp] theorem encodeInto_pXor (c : Command) (s : State) :
    (encodeInto c s).pXor = s.pXor := rfl
@[simp] theorem encodeInto_txBuf (c : Command) (s : State) :
    (encodeInto c s).txBuf = Memory.writeBytes s.txBuf 0 (requestFrame c) := rfl
@[simp] theorem encodeInto_txLen (c : Command) (s : State) :
    (encodeInto c s).txLen = BitVec.ofNat 10 (requestFrame c).length := rfl
@[simp] theorem encodeInto_txEn (c : Command) (s : State) :
    (encodeInto c s).txEn = s.txEn := rfl
@[simp] theorem encodeInto_rxEnLine (c : Command) (s : State) :
    (encodeInto c s).rxEnLine = s.rxEnLine := rfl
@[simp] theorem encodeInto_sElapsed (c : Command) (s : State) :
    (encodeInto c s).sElapsed = s.sElapsed := rfl
@[simp] theorem encodeInto_sTxElapsed (c : Command) (s : State) :
    (encodeInto c s).sTxElapsed = s.sTxElapsed := rfl
@[simp] theorem encodeInto_sHoldTarget (c : Command) (s : State) :
    (encodeInto c s).sHoldTarget = s.sHoldTarget := rfl
@[simp] theorem encodeInto_schedule (c : Command) (s : State) :
    (encodeInto c s).schedule = s.schedule := rfl
@[simp] theorem encodeInto_openAnswer (c : Command) (s : State) :
    (encodeInto c s).openAnswer = s.openAnswer := rfl
@[simp] theorem encodeInto_outs (c : Command) (s : State) :
    (encodeInto c s).outs = s.outs := rfl
@[simp] theorem encodeInto_ret (c : Command) (s : State) :
    (encodeInto c s).ret = s.ret := rfl

/-! ## `startExchange` -/

@[simp] theorem startExchange_reqOp (c : Command) (s : State) :
    (startExchange c s).reqOp = s.reqOp := rfl
@[simp] theorem startExchange_reqCmd (c : Command) (s : State) :
    (startExchange c s).reqCmd = s.reqCmd := rfl
@[simp] theorem startExchange_reqLen (c : Command) (s : State) :
    (startExchange c s).reqLen = s.reqLen := rfl
@[simp] theorem startExchange_reqData (c : Command) (s : State) :
    (startExchange c s).reqData = s.reqData := rfl
@[simp] theorem startExchange_resLong (c : Command) (s : State) :
    (startExchange c s).resLong = s.resLong := rfl
@[simp] theorem startExchange_resAddr (c : Command) (s : State) :
    (startExchange c s).resAddr = s.resAddr := rfl
@[simp] theorem startExchange_resCmd (c : Command) (s : State) :
    (startExchange c s).resCmd = s.resCmd := rfl
@[simp] theorem startExchange_resStatus (c : Command) (s : State) :
    (startExchange c s).resStatus = s.resStatus := rfl
@[simp] theorem startExchange_resLen (c : Command) (s : State) :
    (startExchange c s).resLen = s.resLen := rfl
@[simp] theorem startExchange_resData (c : Command) (s : State) :
    (startExchange c s).resData = s.resData := rfl
@[simp] theorem startExchange_cfgPreamble (c : Command) (s : State) :
    (startExchange c s).cfgPreamble = s.cfgPreamble := rfl
@[simp] theorem startExchange_cfgMaxRetries (c : Command) (s : State) :
    (startExchange c s).cfgMaxRetries = s.cfgMaxRetries := rfl
@[simp] theorem startExchange_cfgTimeoutMs (c : Command) (s : State) :
    (startExchange c s).cfgTimeoutMs = s.cfgTimeoutMs := rfl
@[simp] theorem startExchange_cfgAutoZero (c : Command) (s : State) :
    (startExchange c s).cfgAutoZero = s.cfgAutoZero := rfl
@[simp] theorem startExchange_opened (c : Command) (s : State) :
    (startExchange c s).opened = s.opened := rfl
@[simp] theorem startExchange_curAddr (c : Command) (s : State) :
    (startExchange c s).curAddr = s.curAddr := rfl
@[simp] theorem startExchange_curAddrValid (c : Command) (s : State) :
    (startExchange c s).curAddrValid = s.curAddrValid := rfl
@[simp] theorem startExchange_sState (c : Command) (s : State) :
    (startExchange c s).sState = .settle := rfl
@[simp] theorem startExchange_sPhase (c : Command) (s : State) :
    (startExchange c s).sPhase = s.sPhase := rfl
@[simp] theorem startExchange_zeroDone (c : Command) (s : State) :
    (startExchange c s).zeroDone = s.zeroDone := rfl
@[simp] theorem startExchange_retryBudget (c : Command) (s : State) :
    (startExchange c s).retryBudget = s.cfgMaxRetries := rfl
@[simp] theorem startExchange_handlerArmed (c : Command) (s : State) :
    (startExchange c s).handlerArmed = true := rfl
@[simp] theorem startExchange_respValid (c : Command) (s : State) :
    (startExchange c s).respValid = false := rfl
@[simp] theorem startExchange_pState (c : Command) (s : State) :
    (startExchange c s).pState = .seekPreamble := rfl
@[simp] theorem startExchange_pDelim (c : Command) (s : State) :
    (startExchange c s).pDelim = s.pDelim := rfl
@[simp] theorem startExchange_pLong (c : Command) (s : State) :
    (startExchange c s).pLong = s.pLong := rfl
@[simp] theorem startExchange_pAddr (c : Command) (s : State) :
    (startExchange c s).pAddr = s.pAddr := rfl
@[simp] theorem startExchange_pCmd (c : Command) (s : State) :
    (startExchange c s).pCmd = s.pCmd := rfl
@[simp] theorem startExchange_pBc (c : Command) (s : State) :
    (startExchange c s).pBc = s.pBc := rfl
@[simp] theorem startExchange_pStatus (c : Command) (s : State) :
    (startExchange c s).pStatus = s.pStatus := rfl
@[simp] theorem startExchange_pData (c : Command) (s : State) :
    (startExchange c s).pData = s.pData := rfl
@[simp] theorem startExchange_pCnt (c : Command) (s : State) :
    (startExchange c s).pCnt = s.pCnt := rfl
@[simp] theorem startExchange_pXor (c : Command) (s : State) :
    (startExchange c s).pXor = s.pXor := rfl
@[simp] theorem startExchange_txBuf (c : Command) (s : State) :
    (startExchange c s).txBuf = Memory.writeBytes s.txBuf 0 (requestFrame c) := rfl
@[simp] theorem startExchange_txLen (c : Command) (s : State) :
    (startExchange c s).txLen = BitVec.ofNat 10 (requestFrame c).length := rfl
@[simp] theorem startExchange_txEn (c : Command) (s : State) :
    (startExchange c s).txEn = s.txEn := rfl
@[simp] theorem startExchange_rxEnLine (c : Command) (s : State) :
    (startExchange c s).rxEnLine = s.rxEnLine := rfl
@[simp] theorem startExchange_sElapsed (c : Command) (s : State) :
    (startExchange c s).sElapsed = 0 := rfl
@[simp] theorem startExchange_sTxElapsed (c : Command) (s : State) :
    (startExchange c s).sTxElapsed = s.sTxElapsed := rfl
@[simp] theorem startExchange_sHoldTarget (c : Command) (s : State) :
    (startExchange c s).sHoldTarget = s.sHoldTarget := rfl
@[simp] theorem startExchange_schedule (c : Command) (s : State) :
    (startExchange c s).schedule = s.schedule := rfl
@[simp] theorem startExchange_openAnswer (c : Command) (s : State) :
    (startExchange c s).openAnswer = s.openAnswer := rfl
@[simp] theorem startExchange_outs (c : Command) (s : State) :
    (startExchange c s).outs = s.outs := rfl
@[simp] theorem startExchange_ret (c : Command) (s : State) :
    (startExchange c s).ret = s.ret := rfl

/-! ## `keyUp` -/

@[simp] theorem keyUp_reqOp (s : State) :
    (keyUp s).reqOp = s.reqOp := rfl
@[simp] theorem keyUp_reqCmd (s : State) :
    (keyUp s).reqCmd = s.reqCmd := rfl
@[simp] theorem keyUp_reqLen (s : State) :
    (keyUp s).reqLen = s.reqLen := rfl
@[simp] theorem keyUp_reqData (s : State) :
    (keyUp s).reqData = s.reqData := rfl
@[simp] theorem keyUp_resLong (s : State) :
    (keyUp s).resLong = s.resLong := rfl
@[simp] theorem keyUp_resAddr (s : State) :
    (keyUp s).resAddr = s.resAddr := rfl
@[simp] theorem keyUp_resCmd (s : State) :
    (keyUp s).resCmd = s.resCmd := rfl
@[simp] theorem keyUp_resStatus (s : State) :
    (keyUp s).resStatus = s.resStatus := rfl
@[simp] theorem keyUp_resLen (s : State) :
    (keyUp s).resLen = s.resLen := rfl
@[simp] theorem keyUp_resData (s : State) :
    (keyUp s).resData = s.resData := rfl
@[simp] theorem keyUp_cfgPreamble (s : State) :
    (keyUp s).cfgPreamble = s.cfgPreamble := rfl
@[simp] theorem keyUp_cfgMaxRetries (s : State) :
    (keyUp s).cfgMaxRetries = s.cfgMaxRetries := rfl
@[simp] theorem keyUp_cfgTimeoutMs (s : State) :
    (keyUp s).cfgTimeoutMs = s.cfgTimeoutMs := rfl
@[simp] theorem keyUp_cfgAutoZero (s : State) :
    (keyUp s).cfgAutoZero = s.cfgAutoZero := rfl
@[simp] theorem keyUp_opened (s : State) :
    (keyUp s).opened = s.opened := rfl
@[simp] theorem keyUp_curAddr (s : State) :
    (keyUp s).curAddr = s.curAddr := rfl
@[simp] theorem keyUp_curAddrValid (s : State) :
    (keyUp s).curAddrValid = s.curAddrValid := rfl
@[simp] theorem keyUp_sState (s : State) :
    (keyUp s).sState = .guard := rfl
@[simp] theorem keyUp_sPhase (s : State) :
    (keyUp s).sPhase = s.sPhase := rfl
@[simp] theorem keyUp_zeroDone (s : State) :
    (keyUp s).zeroDone = s.zeroDone := rfl
@[simp] theorem keyUp_retryBudget (s : State) :
    (keyUp s).retryBudget = s.retryBudget := rfl
@[simp] theorem keyUp_handlerArmed (s : State) :
    (keyUp s).handlerArmed = s.handlerArmed := rfl
@[simp] theorem keyUp_respValid (s : State) :
    (keyUp s).respValid = s.respValid := rfl
@[simp] theorem keyUp_pState (s : State) :
    (keyUp s).pState = s.pState := rfl
@[simp] theorem keyUp_pDelim (s : State) :
    (keyUp s).pDelim = s.pDelim := rfl
@[simp] theorem keyUp_pLong (s : State) :
    (keyUp s).pLong = s.pLong := rfl
@[simp] theorem keyUp_pAddr (s : State) :
    (keyUp s).pAddr = s.pAddr := rfl
@[simp] theorem keyUp_pCmd (s : State) :
    (keyUp s).pCmd = s.pCmd := rfl
@[simp] theorem keyUp_pBc (s : State) :
    (keyUp s).pBc = s.pBc := rfl
@[simp] theorem keyUp_pStatus (s : State) :
    (keyUp s).pStatus = s.pStatus := rfl
@[simp] theorem keyUp_pData (s : State) :
    (keyUp s).pData = s.pData := rfl
@[simp] theorem keyUp_pCnt (s : State) :
    (keyUp s).pCnt = s.pCnt := rfl
@[simp] theorem keyUp_pXor (s : State) :
    (keyUp s).pXor = s.pXor := rfl
@[simp] theorem keyUp_txBuf (s : State) :
    (keyUp s).txBuf = s.txBuf := rfl
@[simp] theorem keyUp_txLen (s : State) :
    (keyUp s).txLen = s.txLen := rfl
@[simp] theorem keyUp_txEn (s : State) :
    (keyUp s).txEn = true := rfl
@[simp] theorem keyUp_rxEnLine (s : State) :
    (keyUp s).rxEnLine = s.rxEnLine := rfl
@[simp] theorem keyUp_sElapsed (s : State) :
    (keyUp s).sElapsed = 0 := rfl
@[simp] theorem keyUp_sTxElapsed (s : State) :
    (keyUp s).sTxElapsed = s.sTxElapsed := rfl
@[simp] theorem keyUp_sHoldTarget (s : State) :
    (keyUp s).sHoldTarget = s.sHoldTarget := rfl
@[simp] theorem keyUp_schedule (s : State) :
    (keyUp s).schedule = s.schedule := rfl
@[simp] theorem keyUp_openAnswer (s : State) :
    (keyUp s).openAnswer = s.openAnswer := rfl
@[simp] theorem keyUp_outs (s : State) :
    (keyUp s).outs = s.outs := rfl
@[simp] theorem keyUp_ret (s : State) :
    (keyUp s).ret = s.ret := rfl

/-! ## `unkeyLine` -/

@[simp] theorem unkeyLine_reqOp (s : State) :
    (unkeyLine s).reqOp = s.reqOp := rfl
@[simp] theorem unkeyLine_reqCmd (s : State) :
    (unkeyLine s).reqCmd = s.reqCmd := rfl
@[simp] theorem unkeyLine_reqLen (s : State) :
    (unkeyLine s).reqLen = s.reqLen := rfl
@[simp] theorem unkeyLine_reqData (s : State) :
    (unkeyLine s).reqData = s.reqData := rfl
@[simp] theorem unkeyLine_resLong (s : State) :
    (unkeyLine s).resLong = s.resLong := rfl
@[simp] theorem unkeyLine_resAddr (s : State) :
    (unkeyLine s).resAddr = s.resAddr := rfl
@[simp] theorem unkeyLine_resCmd (s : State) :
    (unkeyLine s).resCmd = s.resCmd := rfl
@[simp] theorem unkeyLine_resStatus (s : State) :
    (unkeyLine s).resStatus = s.resStatus := rfl
@[simp] theorem unkeyLine_resLen (s : State) :
    (unkeyLine s).resLen = s.resLen := rfl
@[simp] theorem unkeyLine_resData (s : State) :
    (unkeyLine s).resData = s.resData := rfl
@[simp] theorem unkeyLine_cfgPreamble (s : State) :
    (unkeyLine s).cfgPreamble = s.cfgPreamble := rfl
@[simp] theorem unkeyLine_cfgMaxRetries (s : State) :
    (unkeyLine s).cfgMaxRetries = s.cfgMaxRetries := rfl
@[simp] theorem unkeyLine_cfgTimeoutMs (s : State) :
    (unkeyLine s).cfgTimeoutMs = s.cfgTimeoutMs := rfl
@[simp] theorem unkeyLine_cfgAutoZero (s : State) :
    (unkeyLine s).cfgAutoZero = s.cfgAutoZero := rfl
@[simp] theorem unkeyLine_opened (s : State) :
    (unkeyLine s).opened = s.opened := rfl
@[simp] theorem unkeyLine_curAddr (s : State) :
    (unkeyLine s).curAddr = s.curAddr := rfl
@[simp] theorem unkeyLine_curAddrValid (s : State) :
    (unkeyLine s).curAddrValid = s.curAddrValid := rfl
@[simp] theorem unkeyLine_sState (s : State) :
    (unkeyLine s).sState = s.sState := rfl
@[simp] theorem unkeyLine_sPhase (s : State) :
    (unkeyLine s).sPhase = s.sPhase := rfl
@[simp] theorem unkeyLine_zeroDone (s : State) :
    (unkeyLine s).zeroDone = s.zeroDone := rfl
@[simp] theorem unkeyLine_retryBudget (s : State) :
    (unkeyLine s).retryBudget = s.retryBudget := rfl
@[simp] theorem unkeyLine_handlerArmed (s : State) :
    (unkeyLine s).handlerArmed = s.handlerArmed := rfl
@[simp] theorem unkeyLine_respValid (s : State) :
    (unkeyLine s).respValid = s.respValid := rfl
@[simp] theorem unkeyLine_pState (s : State) :
    (unkeyLine s).pState = s.pState := rfl
@[simp] theorem unkeyLine_pDelim (s : State) :
    (unkeyLine s).pDelim = s.pDelim := rfl
@[simp] theorem unkeyLine_pLong (s : State) :
    (unkeyLine s).pLong = s.pLong := rfl
@[simp] theorem unkeyLine_pAddr (s : State) :
    (unkeyLine s).pAddr = s.pAddr := rfl
@[simp] theorem unkeyLine_pCmd (s : State) :
    (unkeyLine s).pCmd = s.pCmd := rfl
@[simp] theorem unkeyLine_pBc (s : State) :
    (unkeyLine s).pBc = s.pBc := rfl
@[simp] theorem unkeyLine_pStatus (s : State) :
    (unkeyLine s).pStatus = s.pStatus := rfl
@[simp] theorem unkeyLine_pData (s : State) :
    (unkeyLine s).pData = s.pData := rfl
@[simp] theorem unkeyLine_pCnt (s : State) :
    (unkeyLine s).pCnt = s.pCnt := rfl
@[simp] theorem unkeyLine_pXor (s : State) :
    (unkeyLine s).pXor = s.pXor := rfl
@[simp] theorem unkeyLine_txBuf (s : State) :
    (unkeyLine s).txBuf = s.txBuf := rfl
@[simp] theorem unkeyLine_txLen (s : State) :
    (unkeyLine s).txLen = s.txLen := rfl
@[simp] theorem unkeyLine_txEn (s : State) :
    (unkeyLine s).txEn = false := rfl
@[simp] theorem unkeyLine_rxEnLine (s : State) :
    (unkeyLine s).rxEnLine = s.rxEnLine := rfl
@[simp] theorem unkeyLine_sElapsed (s : State) :
    (unkeyLine s).sElapsed = s.sElapsed := rfl
@[simp] theorem unkeyLine_sTxElapsed (s : State) :
    (unkeyLine s).sTxElapsed = s.sTxElapsed := rfl
@[simp] theorem unkeyLine_sHoldTarget (s : State) :
    (unkeyLine s).sHoldTarget = s.sHoldTarget := rfl
@[simp] theorem unkeyLine_schedule (s : State) :
    (unkeyLine s).schedule = s.schedule := rfl
@[simp] theorem unkeyLine_openAnswer (s : State) :
    (unkeyLine s).openAnswer = s.openAnswer := rfl
@[simp] theorem unkeyLine_outs (s : State) :
    (unkeyLine s).outs = s.outs := rfl
@[simp] theorem unkeyLine_ret (s : State) :
    (unkeyLine s).ret = s.ret := rfl

/-! ## `recordOp` -/

@[simp] theorem recordOp_reqOp (op : HostOp) (s : State) :
    (recordOp op s).reqOp = opCode op := rfl
@[simp] theorem recordOp_reqCmd (op : HostOp) (s : State) :
    (recordOp op s).reqCmd = s.reqCmd := rfl
@[simp] theorem recordOp_reqLen (op : HostOp) (s : State) :
    (recordOp op s).reqLen = s.reqLen := rfl
@[simp] theorem recordOp_reqData (op : HostOp) (s : State) :
    (recordOp op s).reqData = s.reqData := rfl
@[simp] theorem recordOp_resLong (op : HostOp) (s : State) :
    (recordOp op s).resLong = s.resLong := rfl
@[simp] theorem recordOp_resAddr (op : HostOp) (s : State) :
    (recordOp op s).resAddr = s.resAddr := rfl
@[simp] theorem recordOp_resCmd (op : HostOp) (s : State) :
    (recordOp op s).resCmd = s.resCmd := rfl
@[simp] theorem recordOp_resStatus (op : HostOp) (s : State) :
    (recordOp op s).resStatus = s.resStatus := rfl
@[simp] theorem recordOp_resLen (op : HostOp) (s : State) :
    (recordOp op s).resLen = s.resLen := rfl
@[simp] theorem recordOp_resData (op : HostOp) (s : State) :
    (recordOp op s).resData = s.resData := rfl
@[simp] theorem recordOp_cfgPreamble (op : HostOp) (s : State) :
    (recordOp op s).cfgPreamble = s.cfgPreamble := rfl
@[simp] theorem recordOp_cfgMaxRetries (op : HostOp) (s : State) :
    (recordOp op s).cfgMaxRetries = s.cfgMaxRetries := rfl
@[simp] theorem recordOp_cfgTimeoutMs (op : HostOp) (s : State) :
    (recordOp op s).cfgTimeoutMs = s.cfgTimeoutMs := rfl
@[simp] theorem recordOp_cfgAutoZero (op : HostOp) (s : State) :
    (recordOp op s).cfgAutoZero = s.cfgAutoZero := rfl
@[simp] theorem recordOp_opened (op : HostOp) (s : State) :
    (recordOp op s).opened = s.opened := rfl
@[simp] theorem recordOp_curAddr (op : HostOp) (s : State) :
    (recordOp op s).curAddr = s.curAddr := rfl
@[simp] theorem recordOp_curAddrValid (op : HostOp) (s : State) :
    (recordOp op s).curAddrValid = s.curAddrValid := rfl
@[simp] theorem recordOp_sState (op : HostOp) (s : State) :
    (recordOp op s).sState = s.sState := rfl
@[simp] theorem recordOp_sPhase (op : HostOp) (s : State) :
    (recordOp op s).sPhase = s.sPhase := rfl
@[simp] theorem recordOp_zeroDone (op : HostOp) (s : State) :
    (recordOp op s).zeroDone = s.zeroDone := rfl
@[simp] theorem recordOp_retryBudget (op : HostOp) (s : State) :
    (recordOp op s).retryBudget = s.retryBudget := rfl
@[simp] theorem recordOp_handlerArmed (op : HostOp) (s : State) :
    (recordOp op s).handlerArmed = s.handlerArmed := rfl
@[simp] theorem recordOp_respValid (op : HostOp) (s : State) :
    (recordOp op s).respValid = s.respValid := rfl
@[simp] theorem recordOp_pState (op : HostOp) (s : State) :
    (recordOp op s).pState = s.pState := rfl
@[simp] theorem recordOp_pDelim (op : HostOp) (s : State) :
    (recordOp op s).pDelim = s.pDelim := rfl
@[simp] theorem recordOp_pLong (op : HostOp) (s : State) :
    (recordOp op s).pLong = s.pLong := rfl
@[simp] theorem recordOp_pAddr (op : HostOp) (s : State) :
    (recordOp op s).pAddr = s.pAddr := rfl
@[simp] theorem recordOp_pCmd (op : HostOp) (s : State) :
    (recordOp op s).pCmd = s.pCmd := rfl
@[simp] theorem recordOp_pBc (op : HostOp) (s : State) :
    (recordOp op s).pBc = s.pBc := rfl
@[simp] theorem recordOp_pStatus (op : HostOp) (s : State) :
    (recordOp op s).pStatus = s.pStatus := rfl
@[simp] theorem recordOp_pData (op : HostOp) (s : State) :
    (recordOp op s).pData = s.pData := rfl
@[simp] theorem recordOp_pCnt (op : HostOp) (s : State) :
    (recordOp op s).pCnt = s.pCnt := rfl
@[simp] theorem recordOp_pXor (op : HostOp) (s : State) :
    (recordOp op s).pXor = s.pXor := rfl
@[simp] theorem recordOp_txBuf (op : HostOp) (s : State) :
    (recordOp op s).txBuf = s.txBuf := rfl
@[simp] theorem recordOp_txLen (op : HostOp) (s : State) :
    (recordOp op s).txLen = s.txLen := rfl
@[simp] theorem recordOp_txEn (op : HostOp) (s : State) :
    (recordOp op s).txEn = s.txEn := rfl
@[simp] theorem recordOp_rxEnLine (op : HostOp) (s : State) :
    (recordOp op s).rxEnLine = s.rxEnLine := rfl
@[simp] theorem recordOp_sElapsed (op : HostOp) (s : State) :
    (recordOp op s).sElapsed = s.sElapsed := rfl
@[simp] theorem recordOp_sTxElapsed (op : HostOp) (s : State) :
    (recordOp op s).sTxElapsed = s.sTxElapsed := rfl
@[simp] theorem recordOp_sHoldTarget (op : HostOp) (s : State) :
    (recordOp op s).sHoldTarget = s.sHoldTarget := rfl
@[simp] theorem recordOp_schedule (op : HostOp) (s : State) :
    (recordOp op s).schedule = s.schedule := rfl
@[simp] theorem recordOp_openAnswer (op : HostOp) (s : State) :
    (recordOp op s).openAnswer = s.openAnswer := rfl
@[simp] theorem recordOp_outs (op : HostOp) (s : State) :
    (recordOp op s).outs = s.outs := rfl
@[simp] theorem recordOp_ret (op : HostOp) (s : State) :
    (recordOp op s).ret = s.ret := rfl

/-! ## `storeRequest` -/

@[simp] theorem storeRequest_reqOp (cmd len : Byte) (data : List Byte) (s : State) :
    (storeRequest cmd len data s).reqOp = 3 := rfl
@[simp] theorem storeRequest_reqCmd (cmd len : Byte) (data : List Byte) (s : State) :
    (storeRequest cmd len data s).reqCmd = cmd := rfl
@[simp] theorem storeRequest_reqLen (cmd len : Byte) (data : List Byte) (s : State) :
    (storeRequest cmd len data s).reqLen = len := rfl
@[simp] theorem storeRequest_reqData (cmd len : Byte) (data : List Byte) (s : State) :
    (storeRequest cmd len data s).reqData = Memory.writeBytes s.reqData 0 data := rfl
@[simp] theorem storeRequest_resLong (cmd len : Byte) (data : List Byte) (s : State) :
    (storeRequest cmd len data s).resLong = s.resLong := rfl
@[simp] theorem storeRequest_resAddr (cmd len : Byte) (data : List Byte) (s : State) :
    (storeRequest cmd len data s).resAddr = s.resAddr := rfl
@[simp] theorem storeRequest_resCmd (cmd len : Byte) (data : List Byte) (s : State) :
    (storeRequest cmd len data s).resCmd = s.resCmd := rfl
@[simp] theorem storeRequest_resStatus (cmd len : Byte) (data : List Byte) (s : State) :
    (storeRequest cmd len data s).resStatus = s.resStatus := rfl
@[simp] theorem storeRequest_resLen (cmd len : Byte) (data : List Byte) (s : State) :
    (storeRequest cmd len data s).resLen = s.resLen := rfl
@[simp] theorem storeRequest_resData (cmd len : Byte) (data : List Byte) (s : State) :
    (storeRequest cmd len data s).resData = s.resData := rfl
@[simp] theorem storeRequest_cfgPreamble (cmd len : Byte) (data : List Byte) (s : State) :
    (storeRequest cmd len data s).cfgPreamble = s.cfgPreamble := rfl
@[simp] theorem storeRequest_cfgMaxRetries (cmd len : Byte) (data : List Byte) (s : State) :
    (storeRequest cmd len data s).cfgMaxRetries = s.cfgMaxRetries := rfl
@[simp] theorem storeRequest_cfgTimeoutMs (cmd len : Byte) (data : List Byte) (s : State) :
    (storeRequest cmd len data s).cfgTimeoutMs = s.cfgTimeoutMs := rfl
@[simp] theorem storeRequest_cfgAutoZero (cmd len : Byte) (data : List Byte) (s : State) :
    (storeRequest cmd len data s).cfgAutoZero = s.cfgAutoZero := rfl
@[simp] theorem storeRequest_opened (cmd len : Byte) (data : List Byte) (s : State) :
    (storeRequest cmd len data s).opened = s.opened := rfl
@[simp] theorem storeRequest_curAddr (cmd len : Byte) (data : List Byte) (s : State) :
    (storeRequest cmd len data s).curAddr = s.curAddr := rfl
@[simp] theorem storeRequest_curAddrValid (cmd len : Byte) (data : List Byte) (s : State) :
    (storeRequest cmd len data s).curAddrValid = s.curAddrValid := rfl
@[simp] theorem storeRequest_sState (cmd len : Byte) (data : List Byte) (s : State) :
    (storeRequest cmd len data s).sState = s.sState := rfl
@[simp] theorem storeRequest_sPhase (cmd len : Byte) (data : List Byte) (s : State) :
    (storeRequest cmd len data s).sPhase = s.sPhase := rfl
@[simp] theorem storeRequest_zeroDone (cmd len : Byte) (data : List Byte) (s : State) :
    (storeRequest cmd len data s).zeroDone = s.zeroDone := rfl
@[simp] theorem storeRequest_retryBudget (cmd len : Byte) (data : List Byte) (s : State) :
    (storeRequest cmd len data s).retryBudget = s.retryBudget := rfl
@[simp] theorem storeRequest_handlerArmed (cmd len : Byte) (data : List Byte) (s : State) :
    (storeRequest cmd len data s).handlerArmed = s.handlerArmed := rfl
@[simp] theorem storeRequest_respValid (cmd len : Byte) (data : List Byte) (s : State) :
    (storeRequest cmd len data s).respValid = s.respValid := rfl
@[simp] theorem storeRequest_pState (cmd len : Byte) (data : List Byte) (s : State) :
    (storeRequest cmd len data s).pState = s.pState := rfl
@[simp] theorem storeRequest_pDelim (cmd len : Byte) (data : List Byte) (s : State) :
    (storeRequest cmd len data s).pDelim = s.pDelim := rfl
@[simp] theorem storeRequest_pLong (cmd len : Byte) (data : List Byte) (s : State) :
    (storeRequest cmd len data s).pLong = s.pLong := rfl
@[simp] theorem storeRequest_pAddr (cmd len : Byte) (data : List Byte) (s : State) :
    (storeRequest cmd len data s).pAddr = s.pAddr := rfl
@[simp] theorem storeRequest_pCmd (cmd len : Byte) (data : List Byte) (s : State) :
    (storeRequest cmd len data s).pCmd = s.pCmd := rfl
@[simp] theorem storeRequest_pBc (cmd len : Byte) (data : List Byte) (s : State) :
    (storeRequest cmd len data s).pBc = s.pBc := rfl
@[simp] theorem storeRequest_pStatus (cmd len : Byte) (data : List Byte) (s : State) :
    (storeRequest cmd len data s).pStatus = s.pStatus := rfl
@[simp] theorem storeRequest_pData (cmd len : Byte) (data : List Byte) (s : State) :
    (storeRequest cmd len data s).pData = s.pData := rfl
@[simp] theorem storeRequest_pCnt (cmd len : Byte) (data : List Byte) (s : State) :
    (storeRequest cmd len data s).pCnt = s.pCnt := rfl
@[simp] theorem storeRequest_pXor (cmd len : Byte) (data : List Byte) (s : State) :
    (storeRequest cmd len data s).pXor = s.pXor := rfl
@[simp] theorem storeRequest_txBuf (cmd len : Byte) (data : List Byte) (s : State) :
    (storeRequest cmd len data s).txBuf = s.txBuf := rfl
@[simp] theorem storeRequest_txLen (cmd len : Byte) (data : List Byte) (s : State) :
    (storeRequest cmd len data s).txLen = s.txLen := rfl
@[simp] theorem storeRequest_txEn (cmd len : Byte) (data : List Byte) (s : State) :
    (storeRequest cmd len data s).txEn = s.txEn := rfl
@[simp] theorem storeRequest_rxEnLine (cmd len : Byte) (data : List Byte) (s : State) :
    (storeRequest cmd len data s).rxEnLine = s.rxEnLine := rfl
@[simp] theorem storeRequest_sElapsed (cmd len : Byte) (data : List Byte) (s : State) :
    (storeRequest cmd len data s).sElapsed = s.sElapsed := rfl
@[simp] theorem storeRequest_sTxElapsed (cmd len : Byte) (data : List Byte) (s : State) :
    (storeRequest cmd len data s).sTxElapsed = s.sTxElapsed := rfl
@[simp] theorem storeRequest_sHoldTarget (cmd len : Byte) (data : List Byte) (s : State) :
    (storeRequest cmd len data s).sHoldTarget = s.sHoldTarget := rfl
@[simp] theorem storeRequest_schedule (cmd len : Byte) (data : List Byte) (s : State) :
    (storeRequest cmd len data s).schedule = s.schedule := rfl
@[simp] theorem storeRequest_openAnswer (cmd len : Byte) (data : List Byte) (s : State) :
    (storeRequest cmd len data s).openAnswer = s.openAnswer := rfl
@[simp] theorem storeRequest_outs (cmd len : Byte) (data : List Byte) (s : State) :
    (storeRequest cmd len data s).outs = s.outs := rfl
@[simp] theorem storeRequest_ret (cmd len : Byte) (data : List Byte) (s : State) :
    (storeRequest cmd len data s).ret = s.ret := rfl

/-! ## `readDelimiter` -/

@[simp] theorem readDelimiter_reqOp (b : Byte) (s : State) :
    (readDelimiter b s).reqOp = s.reqOp := rfl
@[simp] theorem readDelimiter_reqCmd (b : Byte) (s : State) :
    (readDelimiter b s).reqCmd = s.reqCmd := rfl
@[simp] theorem readDelimiter_reqLen (b : Byte) (s : State) :
    (readDelimiter b s).reqLen = s.reqLen := rfl
@[simp] theorem readDelimiter_reqData (b : Byte) (s : State) :
    (readDelimiter b s).reqData = s.reqData := rfl
@[simp] theorem readDelimiter_resLong (b : Byte) (s : State) :
    (readDelimiter b s).resLong = s.resLong := rfl
@[simp] theorem readDelimiter_resAddr (b : Byte) (s : State) :
    (readDelimiter b s).resAddr = s.resAddr := rfl
@[simp] theorem readDelimiter_resCmd (b : Byte) (s : State) :
    (readDelimiter b s).resCmd = s.resCmd := rfl
@[simp] theorem readDelimiter_resStatus (b : Byte) (s : State) :
    (readDelimiter b s).resStatus = s.resStatus := rfl
@[simp] theorem readDelimiter_resLen (b : Byte) (s : State) :
    (readDelimiter b s).resLen = s.resLen := rfl
@[simp] theorem readDelimiter_resData (b : Byte) (s : State) :
    (readDelimiter b s).resData = s.resData := rfl
@[simp] theorem readDelimiter_cfgPreamble (b : Byte) (s : State) :
    (readDelimiter b s).cfgPreamble = s.cfgPreamble := rfl
@[simp] theorem readDelimiter_cfgMaxRetries (b : Byte) (s : State) :
    (readDelimiter b s).cfgMaxRetries = s.cfgMaxRetries := rfl
@[simp] theorem readDelimiter_cfgTimeoutMs (b : Byte) (s : State) :
    (readDelimiter b s).cfgTimeoutMs = s.cfgTimeoutMs := rfl
@[simp] theorem readDelimiter_cfgAutoZero (b : Byte) (s : State) :
    (readDelimiter b s).cfgAutoZero = s.cfgAutoZero := rfl
@[simp] theorem readDelimiter_opened (b : Byte) (s : State) :
    (readDelimiter b s).opened = s.opened := rfl
@[simp] theorem readDelimiter_curAddr (b : Byte) (s : State) :
    (readDelimiter b s).curAddr = s.curAddr := rfl
@[simp] theorem readDelimiter_curAddrValid (b : Byte) (s : State) :
    (readDelimiter b s).curAddrValid = s.curAddrValid := rfl
@[simp] theorem readDelimiter_sState (b : Byte) (s : State) :
    (readDelimiter b s).sState = s.sState := rfl
@[simp] theorem readDelimiter_sPhase (b : Byte) (s : State) :
    (readDelimiter b s).sPhase = s.sPhase := rfl
@[simp] theorem readDelimiter_zeroDone (b : Byte) (s : State) :
    (readDelimiter b s).zeroDone = s.zeroDone := rfl
@[simp] theorem readDelimiter_retryBudget (b : Byte) (s : State) :
    (readDelimiter b s).retryBudget = s.retryBudget := rfl
@[simp] theorem readDelimiter_handlerArmed (b : Byte) (s : State) :
    (readDelimiter b s).handlerArmed = s.handlerArmed := rfl
@[simp] theorem readDelimiter_respValid (b : Byte) (s : State) :
    (readDelimiter b s).respValid = s.respValid := rfl
@[simp] theorem readDelimiter_pState (b : Byte) (s : State) :
    (readDelimiter b s).pState = (if Config.isLong b then .readAddress else .readCommand) := rfl
@[simp] theorem readDelimiter_pDelim (b : Byte) (s : State) :
    (readDelimiter b s).pDelim = b := rfl
@[simp] theorem readDelimiter_pLong (b : Byte) (s : State) :
    (readDelimiter b s).pLong = Config.isLong b := rfl
@[simp] theorem readDelimiter_pAddr (b : Byte) (s : State) :
    (readDelimiter b s).pAddr = s.pAddr := rfl
@[simp] theorem readDelimiter_pCmd (b : Byte) (s : State) :
    (readDelimiter b s).pCmd = s.pCmd := rfl
@[simp] theorem readDelimiter_pBc (b : Byte) (s : State) :
    (readDelimiter b s).pBc = s.pBc := rfl
@[simp] theorem readDelimiter_pStatus (b : Byte) (s : State) :
    (readDelimiter b s).pStatus = s.pStatus := rfl
@[simp] theorem readDelimiter_pData (b : Byte) (s : State) :
    (readDelimiter b s).pData = s.pData := rfl
@[simp] theorem readDelimiter_pCnt (b : Byte) (s : State) :
    (readDelimiter b s).pCnt = 0 := rfl
@[simp] theorem readDelimiter_pXor (b : Byte) (s : State) :
    (readDelimiter b s).pXor = b := rfl
@[simp] theorem readDelimiter_txBuf (b : Byte) (s : State) :
    (readDelimiter b s).txBuf = s.txBuf := rfl
@[simp] theorem readDelimiter_txLen (b : Byte) (s : State) :
    (readDelimiter b s).txLen = s.txLen := rfl
@[simp] theorem readDelimiter_txEn (b : Byte) (s : State) :
    (readDelimiter b s).txEn = s.txEn := rfl
@[simp] theorem readDelimiter_rxEnLine (b : Byte) (s : State) :
    (readDelimiter b s).rxEnLine = s.rxEnLine := rfl
@[simp] theorem readDelimiter_sElapsed (b : Byte) (s : State) :
    (readDelimiter b s).sElapsed = s.sElapsed := rfl
@[simp] theorem readDelimiter_sTxElapsed (b : Byte) (s : State) :
    (readDelimiter b s).sTxElapsed = s.sTxElapsed := rfl
@[simp] theorem readDelimiter_sHoldTarget (b : Byte) (s : State) :
    (readDelimiter b s).sHoldTarget = s.sHoldTarget := rfl
@[simp] theorem readDelimiter_schedule (b : Byte) (s : State) :
    (readDelimiter b s).schedule = s.schedule := rfl
@[simp] theorem readDelimiter_openAnswer (b : Byte) (s : State) :
    (readDelimiter b s).openAnswer = s.openAnswer := rfl
@[simp] theorem readDelimiter_outs (b : Byte) (s : State) :
    (readDelimiter b s).outs = s.outs := rfl
@[simp] theorem readDelimiter_ret (b : Byte) (s : State) :
    (readDelimiter b s).ret = s.ret := rfl

/-! ## `readCommand` -/

@[simp] theorem readCommand_reqOp (b : Byte) (s : State) :
    (readCommand b s).reqOp = s.reqOp := rfl
@[simp] theorem readCommand_reqCmd (b : Byte) (s : State) :
    (readCommand b s).reqCmd = s.reqCmd := rfl
@[simp] theorem readCommand_reqLen (b : Byte) (s : State) :
    (readCommand b s).reqLen = s.reqLen := rfl
@[simp] theorem readCommand_reqData (b : Byte) (s : State) :
    (readCommand b s).reqData = s.reqData := rfl
@[simp] theorem readCommand_resLong (b : Byte) (s : State) :
    (readCommand b s).resLong = s.resLong := rfl
@[simp] theorem readCommand_resAddr (b : Byte) (s : State) :
    (readCommand b s).resAddr = s.resAddr := rfl
@[simp] theorem readCommand_resCmd (b : Byte) (s : State) :
    (readCommand b s).resCmd = s.resCmd := rfl
@[simp] theorem readCommand_resStatus (b : Byte) (s : State) :
    (readCommand b s).resStatus = s.resStatus := rfl
@[simp] theorem readCommand_resLen (b : Byte) (s : State) :
    (readCommand b s).resLen = s.resLen := rfl
@[simp] theorem readCommand_resData (b : Byte) (s : State) :
    (readCommand b s).resData = s.resData := rfl
@[simp] theorem readCommand_cfgPreamble (b : Byte) (s : State) :
    (readCommand b s).cfgPreamble = s.cfgPreamble := rfl
@[simp] theorem readCommand_cfgMaxRetries (b : Byte) (s : State) :
    (readCommand b s).cfgMaxRetries = s.cfgMaxRetries := rfl
@[simp] theorem readCommand_cfgTimeoutMs (b : Byte) (s : State) :
    (readCommand b s).cfgTimeoutMs = s.cfgTimeoutMs := rfl
@[simp] theorem readCommand_cfgAutoZero (b : Byte) (s : State) :
    (readCommand b s).cfgAutoZero = s.cfgAutoZero := rfl
@[simp] theorem readCommand_opened (b : Byte) (s : State) :
    (readCommand b s).opened = s.opened := rfl
@[simp] theorem readCommand_curAddr (b : Byte) (s : State) :
    (readCommand b s).curAddr = s.curAddr := rfl
@[simp] theorem readCommand_curAddrValid (b : Byte) (s : State) :
    (readCommand b s).curAddrValid = s.curAddrValid := rfl
@[simp] theorem readCommand_sState (b : Byte) (s : State) :
    (readCommand b s).sState = s.sState := rfl
@[simp] theorem readCommand_sPhase (b : Byte) (s : State) :
    (readCommand b s).sPhase = s.sPhase := rfl
@[simp] theorem readCommand_zeroDone (b : Byte) (s : State) :
    (readCommand b s).zeroDone = s.zeroDone := rfl
@[simp] theorem readCommand_retryBudget (b : Byte) (s : State) :
    (readCommand b s).retryBudget = s.retryBudget := rfl
@[simp] theorem readCommand_handlerArmed (b : Byte) (s : State) :
    (readCommand b s).handlerArmed = s.handlerArmed := rfl
@[simp] theorem readCommand_respValid (b : Byte) (s : State) :
    (readCommand b s).respValid = s.respValid := rfl
@[simp] theorem readCommand_pState (b : Byte) (s : State) :
    (readCommand b s).pState = .readByteCount := rfl
@[simp] theorem readCommand_pDelim (b : Byte) (s : State) :
    (readCommand b s).pDelim = s.pDelim := rfl
@[simp] theorem readCommand_pLong (b : Byte) (s : State) :
    (readCommand b s).pLong = s.pLong := rfl
@[simp] theorem readCommand_pAddr (b : Byte) (s : State) :
    (readCommand b s).pAddr = s.pAddr := rfl
@[simp] theorem readCommand_pCmd (b : Byte) (s : State) :
    (readCommand b s).pCmd = b := rfl
@[simp] theorem readCommand_pBc (b : Byte) (s : State) :
    (readCommand b s).pBc = s.pBc := rfl
@[simp] theorem readCommand_pStatus (b : Byte) (s : State) :
    (readCommand b s).pStatus = s.pStatus := rfl
@[simp] theorem readCommand_pData (b : Byte) (s : State) :
    (readCommand b s).pData = s.pData := rfl
@[simp] theorem readCommand_pCnt (b : Byte) (s : State) :
    (readCommand b s).pCnt = s.pCnt := rfl
@[simp] theorem readCommand_pXor (b : Byte) (s : State) :
    (readCommand b s).pXor = s.pXor ^^^ b := rfl
@[simp] theorem readCommand_txBuf (b : Byte) (s : State) :
    (readCommand b s).txBuf = s.txBuf := rfl
@[simp] theorem readCommand_txLen (b : Byte) (s : State) :
    (readCommand b s).txLen = s.txLen := rfl
@[simp] theorem readCommand_txEn (b : Byte) (s : State) :
    (readCommand b s).txEn = s.txEn := rfl
@[simp] theorem readCommand_rxEnLine (b : Byte) (s : State) :
    (readCommand b s).rxEnLine = s.rxEnLine := rfl
@[simp] theorem readCommand_sElapsed (b : Byte) (s : State) :
    (readCommand b s).sElapsed = s.sElapsed := rfl
@[simp] theorem readCommand_sTxElapsed (b : Byte) (s : State) :
    (readCommand b s).sTxElapsed = s.sTxElapsed := rfl
@[simp] theorem readCommand_sHoldTarget (b : Byte) (s : State) :
    (readCommand b s).sHoldTarget = s.sHoldTarget := rfl
@[simp] theorem readCommand_schedule (b : Byte) (s : State) :
    (readCommand b s).schedule = s.schedule := rfl
@[simp] theorem readCommand_openAnswer (b : Byte) (s : State) :
    (readCommand b s).openAnswer = s.openAnswer := rfl
@[simp] theorem readCommand_outs (b : Byte) (s : State) :
    (readCommand b s).outs = s.outs := rfl
@[simp] theorem readCommand_ret (b : Byte) (s : State) :
    (readCommand b s).ret = s.ret := rfl

end Sys2Proof.Machine
end

