-- ==== Sys2Proof/Tests/Slice0.lean ====
section
/-! SUPPORT. Small tests: ill-formed terms refused, words written out from spec/30_encoding.md decoded, one step
on small states with results from spec/95_test_vectors.md, and for every statement with hypotheses a state and
operands that meet them. -/

namespace Sys2Proof.Tests

open Sys2Proof Sys2Proof.Machine

/-! ## Small states and views of a result -/

/-- The state that an operation goes on with, `State.reset` where it stops (used only where it goes on). -/
def after (r : Result) : State :=
  match r with
  | .next s => s
  | .fault _ => State.reset
  | .refused _ => State.reset

/-- Whether an operation goes on. -/
def goesOn (r : Result) : Bool :=
  match r with
  | .next _ => true
  | .fault _ => false
  | .refused _ => false

/-- Whether an operation is refused for `why`. -/
def refusedFor (why : Refusal) (r : Result) : Bool :=
  match r with
  | .next _ => false
  | .fault _ => false
  | .refused x => decide (x = why)

/-- The address `A` of spec/95_test_vectors.md. -/
def addrA : Addr5 := ⟨0x92, 0x34, 0xAA, 0xBB, 0xCC⟩

/-- The data bytes `z` of spec/95_test_vectors.md. -/
def dataZ : List Byte := [0xFE, 0x12, 0x34, 0x05, 0x05, 0x01, 0x02, 0x08, 0x00, 0xAA, 0xBB, 0xCC]

/-- An open port, idle. -/
def openIdle : State := { State.reset with opened := true }

/-- An open port with `A` learned. -/
def learned : State := { openIdle with curAddr := addrA, curAddrValid := true, zeroDone := true }

/-- An attempt waiting for its response, no retry left. -/
def waiting : State := { openIdle with sState := .wait, handlerArmed := true }

/-- The parser of an open port in state `p` with count `c`, byte count `n` and running checksum `x`. -/
def parsing (p : PState) (c n x : Byte) : State := { openIdle with pState := p, pCnt := c, pBc := n, pXor := x }

/-- The zero command's frame at reset (V15). -/
def zeroFrame : List Byte := List.replicate 10 0xFF ++ [0x02, 0x00, 0x00, 0x02]

/-! ## Well-formedness: each check refuses an ill-formed term -/

theorem test_wf_send_count : (Instr.hostSend 1 2 [0]).wellFormed = false := by decide
theorem test_wf_long_delimiter_is_not_preamble : (Instr.delimLong 0x7F).wellFormed = false := by decide
theorem test_wf_read_delimiter_is_not_preamble : (Instr.rxReadDelimiter 0xFF).wellFormed = false := by decide
theorem test_wf_request_data :
    (Instr.reqLong 0 addrA 1 (List.replicate 256 0)).wellFormed = false ∧
    (Instr.reqShort 0 1 (List.replicate 256 0)).wellFormed = false ∧
    (Instr.reqShort 0 1 (List.replicate 255 0)).wellFormed = true := by decide +kernel
theorem test_wf_response_data :
    (Instr.rspLong 0 6 addrA 1 ⟨0, 0⟩ (List.replicate 254 0)).wellFormed = false ∧
    (Instr.rspShort 0 6 1 ⟨0, 0⟩ (List.replicate 254 0)).wellFormed = false ∧
    (Instr.rspShort 0 6 1 ⟨0, 0⟩ (List.replicate 253 0)).wellFormed = true := by decide +kernel
theorem test_wf_response_delimiter : (Instr.rspLong 0 0x7F addrA 1 ⟨0, 0⟩ []).wellFormed = false := by decide
theorem test_wf_command_status :
    (Instr.encode ⟨0, none, 1, [0], []⟩).wellFormed = false ∧
    (Instr.exchange ⟨0, none, 1, [0], []⟩).wellFormed = false := by decide
theorem test_wf_command_data :
    (Instr.encode ⟨0, none, 1, [], List.replicate 256 0⟩).wellFormed = false ∧
    (Instr.exchange ⟨0, none, 1, [], List.replicate 256 0⟩).wellFormed = false := by decide +kernel
theorem test_wf_result_data :
    (Instr.notify ⟨none, 1, ⟨0, 0⟩, List.replicate 254 0⟩).wellFormed = false ∧
    (Instr.learn ⟨none, 0, ⟨0, 0⟩, List.replicate 254 0⟩).wellFormed = false := by decide +kernel
theorem test_wf_learn_command : (Instr.learn ⟨none, 1, ⟨0, 0⟩, dataZ⟩).wellFormed = false := by decide
theorem test_wf_hold_range :
    (Instr.holdMs 3).wellFormed = false ∧ (Instr.holdMs 520).wellFormed = false ∧
    (Instr.holdMs 4).wellFormed = true ∧ (Instr.holdMs 519).wellFormed = true := by decide
theorem test_wf_flags_byte : (Instr.flags 0x7F).wellFormed = false := by decide
theorem test_wf_hostop_count :
    (Instr.hostop 0x00010103 []).wellFormed = false ∧ (Instr.hostop 0x00000001 [0]).wellFormed = false ∧
    (Instr.hostop 0x00010103 [7]).wellFormed = true := by decide

/-! ## Decoding of words written out from spec/30_encoding.md -/

/-- R96, R97: bits 31:24, 23:16, 15:8, 7:0. -/
theorem test_decode_host_words :
    decode (.hostw 0b00000000_00000000_00000000_00000001 []) = .ok .hostOpen ∧
    decode (.hostw 0b00000000_00000000_00000000_00000010 []) = .ok .hostClose ∧
    decode (.hostw 0b00000000_00000010_10110001_00000011 [5, 6]) = .ok (.hostSend 0xB1 2 [5, 6]) ∧
    decode (.hostw 0b00000000_00000000_00000000_00000100 []) = .ok .hostSendz := by decide
theorem test_decode_cfgwr_words :
    decode (.hostw 0b00000000_10000001_00000000_00000101 []) = .ok (.cfgwrPreamble 0x81) ∧
    decode (.hostw 0b00000000_10000001_00000001_00000101 []) = .ok (.cfgwrMaxRetries 0x81) ∧
    decode (.hostw 0b10000000_00000001_00000010_00000101 []) = .ok (.cfgwrTimeout 0x8001) ∧
    decode (.hostw 0b00000000_00000001_00000011_00000101 []) = .ok (.cfgwrAutoZero true) := by decide
/-- V65: the longest `SEND`. -/
theorem test_decode_longest_send :
    decode (.hostw 0x00FFFF03 (List.replicate 255 0xFF)) = .ok (.hostSend 0xFF 0xFF (List.replicate 255 0xFF)) := by
  decide +kernel
/-- R99, V71 to V76; R180: a `SEND` with bytes missing. -/
theorem test_decode_refuses_host_words :
    decode (.hostw 0x00000006 []) = .error .badop ∧ decode (.hostw 0x00000007 []) = .error .badop ∧
    decode (.hostw 0x00000105 []) = .ok (.cfgwrMaxRetries 0) ∧ decode (.hostw 0x01000105 []) = .error .badop ∧
    decode (.hostw 0x00010103 []) = .error .operandCount := by decide
/-- R97: no word has two readings. -/
theorem test_host_rows_do_not_overlap : hostRows.Pairwise (fun a b => rowsOverlap a b = false) := by decide
/-- R85. -/
theorem test_decode_delimiters :
    decode (.delim 0b11111111) = .ok .delimPreamble ∧ decode (.delim 0b10000110) = .ok (.delimLong 0b0000110) ∧
    decode (.delim 0b00000110) = .ok (.delimShort 0b0000110) ∧ decode (.delimReq 0x82) = .ok .delimReqLong ∧
    decode (.delimReq 0x02) = .ok .delimReqShort ∧
    decode (.delimReq 0x06) = .error .notARequestDelimiter := by decide
/-- R88. -/
theorem test_decode_status :
    decode (.status1 0b11010000) = .ok (.status1Comm 0b1010000) ∧
    decode (.status1 0b01111111) = .ok (.status1CmdSpecific 0b1111111) := by decide
/-- R92. -/
theorem test_decode_parser_states :
    decode (.pstate 0 0xFF) = .ok (.rxSeekPreamble 0xFF) ∧ decode (.pstate 1 0x06) = .ok (.rxReadDelimiter 6) ∧
    decode (.pstate 2 9) = .ok (.rxReadAddress 9) ∧ decode (.pstate 3 9) = .ok (.rxReadCommand 9) ∧
    decode (.pstate 4 9) = .ok (.rxReadByteCount 9) ∧ decode (.pstate 5 9) = .ok (.rxReadStatus 9) ∧
    decode (.pstate 6 9) = .ok (.rxReadData 9) ∧ decode (.pstate 7 9) = .ok (.rxReadChecksum 9) ∧
    decode (.pstate 8 9) = .ok .rxComplete ∧ decode (.pstate 9 9) = .error .reservedParserState ∧
    decode (.pstate 1 0xFF) = .error .preambleByteAsDelimiter := by decide
/-- R93. -/
theorem test_decode_sequencer_states :
    decode (.sstate 0) = .ok .tickIdle ∧ decode (.sstate 1) = .ok .tickSettle ∧
    decode (.sstate 2) = .ok .tickGuard ∧ decode (.sstate 3) = .ok .tickWrite ∧
    decode (.sstate 4) = .ok .tickHold ∧ decode (.sstate 5) = .ok .tickWait ∧
    decode (.sstate 6) = .error .reservedSequencerState := by decide
/-- R98. -/
theorem test_decode_completion_codes :
    decode (.done 0x0) = .ok .doneOpened ∧ decode (.done 0x1) = .ok .doneClosed ∧
    decode (.done 0x2) = .ok .doneSuccess ∧ decode (.done 0x3) = .ok .doneCommfault ∧
    decode (.done 0x4) = .ok .doneNone ∧ decode (.done 0x5) = .ok .doneCfgOk ∧
    decode (.done 0x8) = .ok .doneErrNotExisting ∧ decode (.done 0x9) = .ok .doneErrAlreadyOpen ∧
    decode (.done 0xA) = .ok .doneErrUnknown ∧ decode (.done 0xB) = .ok .doneErrNotOpen ∧
    decode (.done 0xF) = .ok .doneBadop ∧ decode (.done 0x6) = .error .reservedDoneCode := by decide
/-- V16 and V19 (R81, R82). -/
theorem test_decode_requests :
    decode (.request (List.replicate 10 0xFF ++ [0x82, 0x92, 0x34, 0xAA, 0xBB, 0xCC, 0x01, 0x00, 0xF8])) =
      .ok (.reqLong 10 addrA 1 []) ∧
    decode (.request [0xFF, 0xFF, 0xFF, 0x02, 0x06, 0x01, 0x05, 0x00]) = .ok (.reqShort 3 6 [5]) ∧
    decode (.request [0xFF, 0x02, 0x06, 0x01, 0x05, 0x01]) = .error .checksum := by decide
/-- The frames of V20 and V26 (R83, R84); a byte count below 2 (R87). -/
theorem test_decode_responses :
    decode (.response [0xFF, 0xFF, 0x86, 0x92, 0x34, 0xAA, 0xBB, 0xCC, 0x01, 0x07, 0x00, 0x40, 0x20, 0x41, 0xBC, 0,
      0, 0x66]) = .ok (.rspLong 2 6 addrA 1 ⟨0x00, 0x40⟩ [0x20, 0x41, 0xBC, 0, 0]) ∧
    decode (.response [0xFF, 0xFF, 0x06, 0x09, 0x05, 0, 0, 0xFF, 0xFF, 0x06, 0x0C]) =
      .ok (.rspShort 2 6 9 ⟨0, 0⟩ [0xFF, 0xFF, 0x06]) ∧
    decode (.response [0x06, 0x03, 0x01, 0x00, 0x04]) = .error .byteCountBelowTwo ∧
    decode (.response [0x06, 0x03, 0x02, 0x00, 0x00]) = .error .frameLength := by decide
/-- The words of the opcode table, as the host numbers them. -/
theorem test_table_words :
    decodeTableWord 32 0x00FFFF03 = some (.hostSend 0xFF 0xFF (List.replicate 255 0)) ∧
    decodeTableWord 8 0x82 = some .delimReqLong ∧ decodeTableWord 8 0x80 = some (.delimLong 0) ∧
    decodeTableWord 4 0x8 = some .rxComplete ∧ decodeTableWord 4 0xF = some .doneBadop ∧
    decodeTableWord 3 0x5 = some .tickWait ∧ decodeTableWord 3 0x7 = none := by decide +kernel

/-! ## Codec (V10 to V19c) -/

theorem test_xor8 :
    xor8 [] = 0x00 ∧ xor8 [0xA5] = 0xA5 ∧ xor8 [0x0F, 0xF0, 0xFF] = 0x00 ∧
    xor8 [0x82, 0x92, 0x34, 0xAA, 0xBB, 0xCC, 0x01, 0x00] = 0xF8 := by decide
theorem test_encode_zero :
    Memory.readBytes (after (exec (.encode ⟨10, none, 0, [], []⟩) State.reset)).txBuf 0 14 = zeroFrame ∧
    (after (exec (.encode ⟨10, none, 0, [], []⟩) State.reset)).txLen = 14 := by decide
/-- V17. -/
theorem test_encode_long :
    requestFrame ⟨10, some addrA, 35, [], [0x20, 0, 0, 0, 0, 0, 0x20, 0x42, 0xC8]⟩ =
      List.replicate 10 0xFF ++ [0x82, 0x92, 0x34, 0xAA, 0xBB, 0xCC, 0x23, 0x09, 0x20, 0, 0, 0, 0, 0, 0x20, 0x42,
        0xC8, 0x59] := by decide
/-- V19a, V19b: the least and the greatest frame. -/
theorem test_frame_limits :
    requestFrame ⟨0, none, 0, [], []⟩ = [0x02, 0x00, 0x00, 0x02] ∧
    (requestFrame ⟨255, some addrA, 0xFF, [], List.replicate 255 0xFF⟩).length = 519 ∧
    (requestFrame ⟨255, some addrA, 0xFF, [], List.replicate 255 0xFF⟩)[518]? = some 0x06 := by decide +kernel
/-- V19c. -/
theorem test_build :
    (after (exec .build { State.reset with reqCmd := 3, cfgPreamble := 5 })).ret = .command ⟨5, none, 3, [], []⟩ := by
  decide
theorem test_encode_refuses_long_data :
    refusedFor .dataTooLong (exec (.encode ⟨0, none, 1, [], List.replicate 256 0⟩) State.reset) = true := by decide +kernel

/-! ## Parser (V20 to V32) -/

theorem test_delimiter_long :
    (after (exec (.rxbyte 0x86) openIdle)).pState = .readAddress ∧
    (after (exec (.rxbyte 0x86) openIdle)).pXor = 0x86 := by decide
theorem test_delimiter_short_request_type : (after (exec (.rxbyte 0x02) openIdle)).pState = .readCommand := by decide
/-- V20: the fifth address byte. -/
theorem test_last_address_byte :
    (after (exec (.rxbyte 0xCC) { parsing .readAddress 4 0 0x31 with pAddr := ⟨0x92, 0x34, 0xAA, 0xBB, 0⟩ })).pAddr =
      addrA ∧
    (after (exec (.rxbyte 0xCC) (parsing .readAddress 4 0 0x31))).pState = .readCommand ∧
    (after (exec (.rxbyte 0xCC) (parsing .readAddress 4 0 0x31))).pXor = 0xFD := by decide
/-- V24. -/
theorem test_byte_count_below_two : (after (exec (.rxbyte 1) (parsing .readByteCount 0 0 5))).pState = .seekPreamble := by
  decide
/-- V21: no data bytes. -/
theorem test_second_status_byte :
    (after (exec (.rxbyte 0) (parsing .readStatus 1 2 7))).pState = .readChecksum ∧
    (after (exec (.rxbyte 0) (parsing .readStatus 1 3 7))).pState = .readData := by decide
/-- V25: the last of 253 data bytes. -/
theorem test_last_data_byte :
    (after (exec (.rxbyte 0xE7) (parsing .readData 252 255 0))).pState = .readChecksum ∧
    Memory.read (after (exec (.rxbyte 0xE7) (parsing .readData 252 255 0))).pData 252 = 0xE7 := by decide
/-- V20, V23: the checksum byte of an armed attempt. -/
theorem test_checksum_decides_latch :
    (after (exec (.rxbyte 0x66) { parsing .readChecksum 0 2 0x66 with handlerArmed := true })).respValid = true ∧
    (after (exec (.rxbyte 0x67) { parsing .readChecksum 0 2 0x66 with handlerArmed := true })).respValid = false := by
  decide
/-- V32. -/
theorem test_byte_while_closed : after (exec (.rxbyte 0x86) State.reset) = State.reset := by decide
/-- V21: a whole short frame. -/
theorem test_short_frame :
    (after (exec (.rspShort 2 6 3 ⟨0, 0x40⟩ [9]) { openIdle with handlerArmed := true })).resStatus = ⟨0, 0x40⟩ ∧
    (after (exec (.rspShort 2 6 3 ⟨0, 0x40⟩ [9]) { openIdle with handlerArmed := true })).resLen = 1 := by decide
/-- V40. -/
theorem test_long_frame_of_command_zero_learns :
    (after (exec (.rspLong 5 6 addrA 0 ⟨0, 0⟩ dataZ) openIdle)).curAddr = addrA ∧
    (after (exec (.rspLong 5 6 addrA 0 ⟨0, 0⟩ dataZ) openIdle)).respValid = false := by decide
/-- V41, V42. -/
theorem test_learn_needs_twelve_bytes :
    (after (exec (.learn ⟨none, 0, ⟨0, 0⟩, dataZ.take 11⟩) openIdle)).curAddrValid = false ∧
    (after (exec (.learn ⟨none, 0, ⟨0, 0⟩, dataZ⟩) openIdle)).curAddr = addrA := by decide

/-! ## Turnaround (V33 to V36) -/

/-- V33. -/
theorem test_hold_times :
    [0, 1, 2, 4, 9, 14, 19, 20, 22, 28, 100, 400, 519].map holdMs =
      [50, 60, 69, 87, 133, 179, 224, 234, 252, 307, 966, 3711, 4801] := by decide
theorem test_settle_boundary :
    (after (exec .tick { openIdle with sState := .settle, sElapsed := 98 })).txEn = false ∧
    (after (exec .tick { openIdle with sState := .settle, sElapsed := 99 })).txEn = true := by decide
theorem test_guard_boundary :
    (after (exec .tick { openIdle with sState := .guard, sElapsed := 3, txLen := 14 })).sState = .guard ∧
    (after (exec .tick { openIdle with sState := .guard, sElapsed := 4, txLen := 14 })).sHoldTarget = 179 := by decide
theorem test_hold_boundary :
    (after (exec .tick { waiting with sState := .hold, txEn := true, sTxElapsed := 177, sHoldTarget := 179 })).txEn =
      true ∧
    (after (exec .tick { waiting with sState := .hold, txEn := true, sTxElapsed := 178, sHoldTarget := 179 })).txEn =
      false := by decide
/-- V36. -/
theorem test_txdone_at_target :
    (after (exec .txdone { waiting with sState := .write, sTxElapsed := 179, sHoldTarget := 179 })).sState = .wait ∧
    (after (exec .txdone { waiting with sState := .write, sTxElapsed := 178, sHoldTarget := 179 })).sState = .hold := by
  decide
theorem test_wait_boundary :
    (after (exec .tick { waiting with sElapsed := 3998 })).sState = .wait ∧
    (after (exec .tick { waiting with sElapsed := 3999 })).outs = [.done .none] := by decide
theorem test_counter_saturates :
    (after (exec .tick { waiting with sState := .write, sTxElapsed := 65535 })).sTxElapsed = 65535 := by decide

/-! ## Session (V44 to V57) -/

/-- V52. -/
theorem test_open_answers :
    (after (exec .hostOpen State.reset)).outs = [.done .opened, .subscribe, .cfgport 1200 .odd 8 1] ∧
    (after (exec .hostOpen { State.reset with openAnswer := .notExisting })).outs =
      [.done .errNotExisting, .cfgport 1200 .odd 8 1] := by decide
/-- V51. -/
theorem test_open_close_errors :
    after (exec .hostOpen openIdle) = { openIdle with outs := [.done .errAlreadyOpen] } ∧
    after (exec .hostClose State.reset) = { State.reset with outs := [.done .errNotOpen] } := by decide
theorem test_close_forgets_address :
    (after (exec .hostClose learned)).curAddrValid = false ∧ (after (exec .hostClose learned)).zeroDone = false := by
  decide
/-- spec/10_state.md R21, spec/30_encoding.md R96: the accepted operation's code, none for one that ends in an error. -/
theorem test_accepted_operation_code :
    (after (exec .hostOpen State.reset)).reqOp = 1 ∧ (after (exec .hostClose learned)).reqOp = 2 ∧
    (after (exec (.hostSend 1 0 []) openIdle)).reqOp = 3 ∧ (after (exec .hostSendz openIdle)).reqOp = 4 ∧
    (after (exec (.cfgwrTimeout 1500) openIdle)).reqOp = 5 ∧
    (after (exec .hostOpen { openIdle with reqOp := 4 })).reqOp = 4 := by decide
/-- V50, spec/92_eei_decisions.md D18: nothing but the completion, the request registers as before. -/
theorem test_send_while_closed :
    after (exec (.hostSend 1 1 [7]) State.reset) = { State.reset with outs := [.done .none] } := by decide
/-- V53, program P3. -/
theorem test_send_automatic_zero :
    (after (exec (.hostSend 3 0 []) openIdle)).sPhase = true ∧
    (after (exec (.hostSend 0 0 []) openIdle)).sPhase = false := by decide
/-- V54, program P2. -/
theorem test_address_on_the_wire :
    (after (exec (.hostSend 1 0 []) learned)).txLen = 19 ∧ (after (exec .hostSendz learned)).txLen = 14 := by decide
theorem test_host_busy : refusedFor .hostBusy (exec .hostSendz waiting) = true := by decide
/-- V44, V45. -/
theorem test_classify :
    (after (exec .classify { waiting with resStatus := ⟨0x7F, 0⟩ })).outs = [.done .success] ∧
    (after (exec .classify { waiting with resStatus := ⟨0x80, 0⟩, retryBudget := 1 })).sState = .settle := by decide
/-- Program P4. -/
theorem test_comm_fault_without_retry :
    (after (exec (.status1Comm 0x50) waiting)).outs =
      [.done .commfault, .evCommfault ⟨true, false, true, false, false⟩] := by decide
/-- V46, V47. -/
theorem test_flags :
    commFlags 0x8A = ⟨false, false, false, true, true⟩ ∧ commFlags 0xFF = ⟨true, true, true, true, true⟩ := by decide
/-- V48. -/
theorem test_retry_counts :
    (after (exec (.retryOr .none) { waiting with retryBudget := 2 })).retryBudget = 1 ∧
    (after (exec (.retryOr .none) waiting)).outs = [.done .none] := by decide
/-- V55. -/
theorem test_xfault_releases_line :
    (after (exec .xfault { waiting with sState := .write, txEn := true })).txEn = false ∧
    (after (exec .xfault { waiting with sState := .write, txEn := true })).outs = [.done .none] := by decide
/-- V56. -/
theorem test_latched_frame_resolves_at_release :
    (after (exec .tick { waiting with
      sState := .hold, respValid := true, sTxElapsed := 178, sHoldTarget := 179 })).outs = [.done .success] := by
  decide
/-- V57. -/
theorem test_zero_timeout :
    (after (exec .enterWait { waiting with cfgTimeoutMs := 0 })).outs = [.done .none] := by decide
/-- Program P3: after the zero exchange fails, the command's own exchange starts. -/
theorem test_finish_starts_second_exchange :
    (after (exec (.finish .none) { waiting with sPhase := true, reqOp := 3, reqCmd := 3 })).txLen = 14 ∧
    (after (exec (.finish .none) { waiting with sPhase := true, reqOp := 3, reqCmd := 3 })).outs = [] := by decide

/-! ## The step -/

theorem test_step_takes_head :
    (after (step { State.reset with schedule := [.hostop 0x00000001 [], .tick] })).opened = true ∧
    (after (step { State.reset with schedule := [.hostop 0x00000001 [], .tick] })).schedule = [.tick] := by decide
theorem test_step_bad_word :
    (after (step { State.reset with schedule := [.hostop 0x00000101 []] })).outs = [.done .badop] := by decide
theorem test_step_runs_table_word :
    goesOn (step (State.reset.withFetchWord 32 0x00010305)) = true ∧
    (after (step (State.reset.withFetchWord 4 0x6))).pState = .readChecksum := by decide
/-- spec/60_exceptions.md R231. -/
theorem test_cycle_order :
    cycleOrder [.hostop 1 [], .tick, .rxbyte 1, .xfault, .rxbyte 2, .txdone] =
      [.rxbyte 1, .rxbyte 2, .txdone, .xfault, .tick, .hostop 1 []] := by decide

/-! ## Witnesses: for every statement with hypotheses, a state and operands that meet them, for each clause at the
ends of its range -/

/-- A result that goes on is its next state. -/
theorem next_after {r : Result} (h : goesOn r = true) : r = .next (after r) := by
  cases r with
  | next s => rfl
  | fault e => cases h
  | refused e => cases h

/-- The invariant of a state that the sequencer leaves waiting. -/
theorem waiting_inv : waiting.Inv := by
  refine ⟨⟨?_, ?_, ?_⟩, ?_, ?_⟩
  · unfold State.lineDiscipline; decide
  · unfold State.sessionInv; decide
  · unfold State.parserInv; decide
  · unfold State.sizeInv; decide
  · unfold State.memoryWf; decide

/-- An exchange whose guard ends at the next millisecond, with the least frame. -/
def guardEnds : State := { waiting with sState := .guard, txEn := true, sElapsed := 4, txLen := 4 }

theorem guardEnds_inv : guardEnds.Inv := by
  refine ⟨⟨?_, ?_, ?_⟩, ?_, ?_⟩
  · unfold State.lineDiscipline; decide
  · unfold State.sessionInv; decide
  · unfold State.parserInv; decide
  · unfold State.sizeInv; decide
  · unfold State.memoryWf; decide

/-- A state with one event to come. -/
def facing (e : Input) (s : State) : State := { s with schedule := [e] }

theorem witness_StepRunsDecodedEvent :
    (facing (.hostop 0x00000001 []) State.reset).schedule = .hostop 0x00000001 [] :: [] ∧
    eventInstr (.hostop 0x00000001 []) = some .hostOpen ∧ decode (.hostw 0x00000001 []) = .ok .hostOpen ∧
    decode (.hostw 0x00000000 []) = .error .badop ∧
    (facing (.rxbyte 6) State.reset).schedule = [.rxbyte 6] ∧ (facing .tick State.reset).schedule = [.tick] ∧
    (facing .txdone State.reset).schedule = [.txdone] ∧ (facing .xfault State.reset).schedule = [.xfault] := by
  decide
theorem witness_QuietScheduleAndSampledAnswer :
    State.reset.schedule = [] ∧ (facing (.openAnswer .unknown) State.reset).schedule = [.openAnswer .unknown] := by
  decide
theorem witness_DecodeEncodeAgree :
    (Instr.cfgwrTimeout 0xFFFF).wellFormed = true ∧ encode (.cfgwrTimeout 0xFFFF) = some (.hostw 0xFFFF0205 []) ∧
    (Instr.rspShort 1 6 3 ⟨0, 0⟩ []).wellFormed = true ∧
    encode (.rspShort 1 6 3 ⟨0, 0⟩ []) = some (.response [0xFF, 0x06, 0x03, 0x02, 0x00, 0x00, 0x07]) := by decide
theorem witness_HostWordHasOneReading :
    decodeHostOp 0x00FFFF03 = some (.opSend 0xFF 0xFF) ∧ decodeHostOp 0x00010305 = some (.cfgAutoZero true) := by
  decide
theorem witness_HostopRunsItsRow :
    openIdle.sState = .idle ∧ decode (.hostw 0x00020103 [7, 8]) = .ok (.hostSend 1 2 [7, 8]) ∧
    decode (.hostw 0x00000001 []) = .ok .hostOpen := by decide
theorem witness_BadHostWordChangesNothing :
    openIdle.sState = .idle ∧ decodeHostOp 0 = none ∧ decodeHostOp 0x00020305 = none := by decide
theorem witness_EventsWithoutStep :
    State.reset.opened = false ∧ State.reset.sState = .idle ∧ waiting.sState ≠ .idle ∧ openIdle.sState = .idle ∧
    ([] : List Byte).length ≠ (1 : Byte).toNat ∧ decodeHostOp 0x00010103 = some (.opSend 1 1) ∧
    waiting.sState ≠ .write ∧ 255 < (List.replicate 256 (0 : Byte)).length ∧
    253 < (List.replicate 254 (0 : Byte)).length := by decide +kernel
theorem witness_OutOfRangeFaults :
    5 ≤ (parsing .readAddress 5 0 0).pCnt.toNat ∧ 2 ≤ (parsing .readStatus 2 2 0).pCnt.toNat ∧
    (parsing .readData 0 1 0).pBc.toNat < 2 ∧
    (2 ≤ (parsing .readData 253 255 0).pBc.toNat ∧ 253 ≤ (parsing .readData 253 255 0).pCnt.toNat) ∧
    519 < ({ guardEnds with txLen := 520 } : State).txLen.toNat ∧
    5 ≤ nextMs ({ guardEnds with txLen := 520 } : State).sElapsed := by decide
theorem witness_OpenAsksTransport :
    State.reset.sState = .idle ∧ State.reset.opened = false ∧ openIdle.sState = .idle ∧ openIdle.opened = true := by
  decide
theorem witness_CloseEndsSession :
    learned.sState = .idle ∧ learned.opened = true ∧ State.reset.sState = .idle ∧ State.reset.opened = false := by
  decide
theorem witness_CfgwrWritesOneRegister : State.reset.sState = .idle := by decide
theorem witness_SendWhileClosedCompletesNone :
    State.reset.sState = .idle ∧ State.reset.opened = false ∧ ([7] : List Byte).length = (1 : Byte).toNat := by decide
theorem witness_SendStartsExchange :
    openIdle.sState = .idle ∧ openIdle.opened = true ∧ Memory.wf openIdle.reqData = true ∧
    Memory.wf openIdle.txBuf = true ∧ ([7] : List Byte).length = (1 : Byte).toNat ∧ openIdle.cfgAutoZero = true ∧
    (1 : Byte) ≠ 0 ∧ openIdle.zeroDone = false ∧ learned.sState = .idle ∧ Memory.wf learned.reqData = true ∧
    Memory.wf learned.txBuf = true ∧ learned.opened = true ∧ learned.zeroDone = true ∧
    State.reset.sState = .idle ∧ State.reset.opened = false := by decide
theorem witness_SendzStartsZeroExchange :
    learned.sState = .idle ∧ learned.opened = true ∧ Memory.wf learned.txBuf = true ∧
    State.reset.sState = .idle ∧ State.reset.opened = false := by decide
theorem witness_EncodeWritesFrame :
    Memory.wf State.reset.txBuf = true ∧ (List.replicate 255 (9 : Byte)).length ≤ 255 ∧
    (Command.mk 10 (some addrA) 1 [] []).address = some addrA ∧ (Command.mk 10 none 1 [] []).address = none ∧
    (Command.mk 10 none 1 [] []).status = [] := by decide +kernel
theorem witness_RequestFrameLayout :
    Memory.wf State.reset.txBuf = true ∧
    (Command.mk 255 (some addrA) 1 [] (List.replicate 255 9)).data.length ≤ 255 ∧
    (Command.mk 0 none 1 [] []).data.length ≤ 255 ∧ 254 < (255 : Byte).toNat ∧
    (Command.mk 255 (some addrA) 1 [] []).address = some addrA ∧
    254 < (List.replicate 255 (9 : Byte)).length := by decide +kernel
theorem witness_ChecksumLaws : List.Perm [1, (2 : Byte)] [2, 1] ∧ 1 < ([1, 2] : List Byte).length := by decide
theorem witness_DecodeReturnsParserRegisters :
    2 ≤ (parsing .complete 0 2 0).pBc.toNat ∧ 2 ≤ (parsing .complete 0 255 0).pBc.toNat := by decide
theorem witness_SeekPreambleTakesDelimiter : (0xFE : Byte) ≠ 0xFF ∧ (0x00 : Byte) ≠ 0xFF := by decide
theorem witness_DelimiterRows : (0x7E : BitVec 7) ≠ 0x7F := by decide
theorem witness_ReadAddressAccumulates :
    (parsing .readAddress 4 0 0).pCnt.toNat < 5 ∧ (parsing .readAddress 0 0 0).pCnt.toNat < 5 := by decide
theorem witness_ReadCommandAndByteCount : (1 : Byte).toNat < 2 ∧ 2 ≤ (2 : Byte).toNat := by decide
theorem witness_ReadStatusAccumulates :
    (parsing .readStatus 0 2 0).pCnt = 0 ∧ (parsing .readStatus 1 2 0).pCnt = 1 := by decide
theorem witness_ReadDataAccumulates :
    Memory.wf (parsing .readData 252 255 0).pData = true ∧ 2 ≤ (parsing .readData 252 255 0).pBc.toNat ∧
    (parsing .readData 252 255 0).pCnt.toNat < 253 := by decide
theorem witness_ChecksumDecidesNotification :
    (7 : Byte) ≠ (parsing .readChecksum 0 2 6).pXor ∧ (6 : Byte) = (parsing .readChecksum 0 2 6).pXor ∧
    2 ≤ (parsing .readChecksum 0 2 6).pBc.toNat := by decide
theorem witness_RxbyteRunsParserState : waiting.opened = true ∧ waiting.parserInv ∧ waiting.sizeInv :=
  ⟨by decide, waiting_inv.1.2.2, waiting_inv.2.1⟩
theorem witness_NotifyLearnsLatchesWakes :
    Memory.wf waiting.resData = true ∧ (List.replicate 253 (1 : Byte)).length ≤ 253 ∧ waiting.handlerArmed = true ∧
    waiting.respValid = false ∧ waiting.sState = .wait := by decide +kernel
theorem witness_LearnTakesFiveBytes : 12 ≤ dataZ.length ∧ (dataZ.take 11).length < 12 := by decide
/-- An attempt in state `q` whose two elapsed times are `e`, with the hold target of 14 bytes. -/
def timed (q : SState) (e : BitVec 16) : State :=
  { waiting with sState := q, sElapsed := e, sTxElapsed := e, sHoldTarget := 179, txLen := 519 }
theorem witness_TickSettlesThenKeysUp :
    nextMs (timed .settle 98).sElapsed < 100 ∧ 100 ≤ nextMs (timed .settle 99).sElapsed ∧
    100 ≤ nextMs (timed .settle 65535).sElapsed := by decide
theorem witness_GuardEndsWithTheWrite :
    (timed .guard 3).txLen.toNat ≤ 519 ∧ nextMs (timed .guard 3).sElapsed < 5 ∧
    (timed .guard 4).txLen.toNat ≤ 519 ∧ 5 ≤ nextMs (timed .guard 4).sElapsed := by decide
theorem witness_HoldEndsAtItsTarget :
    nextMs (timed .hold 177).sTxElapsed < (timed .hold 177).sHoldTarget.toNat ∧
    (timed .hold 178).sHoldTarget.toNat ≤ nextMs (timed .hold 178).sTxElapsed ∧
    (timed .write 178).sState = .write ∧
    (timed .write 178).sTxElapsed.toNat < (timed .write 178).sHoldTarget.toNat ∧
    (timed .write 179).sHoldTarget.toNat ≤ (timed .write 179).sTxElapsed.toNat := by decide
theorem witness_WaitTimesOut :
    Memory.wf (timed .wait 3998).txBuf = true ∧
    nextMs (timed .wait 3998).sElapsed < (timed .wait 3998).cfgTimeoutMs.toNat ∧
    (timed .wait 3999).cfgTimeoutMs.toNat ≤ nextMs (timed .wait 3999).sElapsed := by decide
theorem witness_TickHandlesSequencerState : (timed .guard 4).txLen.toNat ≤ 519 := by decide
theorem witness_HoldTimeIsCeiling :
    91525 * 4 ≤ 10000 * 37 ∧ 10000 * 37 < 91525 * 4 + 10000 ∧ holdMs 4 = 37 + 50 ∧ 4 ≤ 519 := by decide
theorem witness_RetryDecision :
    Memory.wf waiting.txBuf = true ∧ waiting.retryBudget = 0 ∧
    ({ waiting with retryBudget := 255 } : State).retryBudget ≠ 0 := by decide
theorem witness_FinishEndsExchange :
    Memory.wf waiting.txBuf = true ∧ waiting.sPhase = false ∧
    ({ waiting with sPhase := true } : State).sPhase = true := by decide
theorem witness_ExchangeArmsFirstAttempt :
    Memory.wf openIdle.txBuf = true ∧ (List.replicate 255 (0 : Byte)).length ≤ 255 := by decide +kernel
theorem witness_EnterWaitTestsLatchFirst :
    ({ waiting with respValid := true } : State).respValid = true ∧ waiting.respValid = false ∧
    ({ waiting with cfgTimeoutMs := 0 } : State).cfgTimeoutMs = 0 ∧ waiting.cfgTimeoutMs ≠ 0 := by decide
theorem witness_FirstStatusByteDecides :
    Memory.wf waiting.txBuf = true ∧ ({ waiting with resStatus := ⟨0x80, 0⟩ } : State).resStatus.s0 = 0x80 ∧
    (0x80 : Byte).getLsbD 7 = true ∧ ({ waiting with resStatus := ⟨0x7F, 0⟩ } : State).resStatus.s0 = 0x7F ∧
    (0x7F : Byte).getLsbD 7 = false := by decide
theorem witness_XfaultEndsAttempt : Memory.wf waiting.txBuf = true ∧ waiting.sState ≠ .idle := by decide
theorem witness_InvariantKeptByEveryStep : waiting.Inv ∧ step waiting = .next (after (step waiting)) :=
  ⟨waiting_inv, next_after (by decide)⟩
theorem witness_NoFatalPath :
    (facing (.rxbyte 6) waiting).Inv ∧
    ∀ e rest, (facing (.rxbyte 6) waiting).schedule = e :: rest → enabled e (facing (.rxbyte 6) waiting) :=
  ⟨waiting_inv, fun _ _ h => by cases h; trivial⟩
/-- The host's word and `TXDONE` meet `enabled` where the spec gives them a step. -/
theorem witness_enabled_events :
    enabled (.hostop 0x00010103 [7]) openIdle ∧ enabled .txdone { waiting with sState := .write } := by
  refine ⟨⟨rfl, fun cmd len h => ?_⟩, rfl⟩
  have h1 : decodeHostOp 0x00010103 = some (.opSend 1 1) := by decide
  rw [h1] at h
  cases h
  rfl
/-- The long frame of V1. -/
theorem witness_ResponseFrameRoundTrip :
    let f : CommandResult := ⟨some addrA, 1, ⟨0, 0x40⟩, [0x20, 0x41, 0xBC, 0, 0]⟩
    let body : List Byte := [0x86] ++ (f.address.map Addr5.toList).getD [] ++ [f.commandNumber] ++
      [BitVec.ofNat 8 (f.data.length + 2)] ++ [f.responseCode.s0, f.responseCode.s1] ++ f.data
    let frame := List.replicate 0 0xFF ++ body ++ [xor8 body]
    let s : State := { waiting with schedule := frame.map Input.rxbyte ++ [] }
    s.opened = true ∧ s.pState = .seekPreamble ∧ Memory.wf s.pData = true ∧ f.data.length ≤ 253 ∧
    (0x86 : Byte) ≠ 0xFF ∧ f.address.isSome = Config.isLong 0x86 ∧
    frame = [0x86, 0x92, 0x34, 0xAA, 0xBB, 0xCC, 0x01, 0x07, 0x00, 0x40, 0x20, 0x41, 0xBC, 0, 0, 0x66] ∧
    s.schedule = frame.map Input.rxbyte ++ [] := by decide
theorem witness_ResponseRowsDeliverTheirBytes :
    waiting.opened = true ∧ waiting.pState = .seekPreamble ∧ (List.replicate 253 (0xFF : Byte)).length ≤ 253 ∧
    (0x7E : BitVec 7) ≠ 0x7F := by decide +kernel
/-- V23: bit 2 of the third data byte flipped, the frame and nothing else to come. -/
theorem witness_CorruptedFrameDropped :
    let f : CommandResult := ⟨some addrA, 1, ⟨0, 0x40⟩, [0x20, 0x41, 0xBC, 0, 0]⟩
    let frame := responseFrame 2 0x86 f
    let s : State := { waiting with schedule := (frame.set 14 0xB8).map Input.rxbyte ++ [] }
    s.opened = true ∧ s.pState = .seekPreamble ∧ f.data.length ≤ 253 ∧ (0x86 : Byte) ≠ 0xFF ∧
    f.address.isSome = (0x86 : Byte).getLsbD 7 ∧ 2 + 3 + (if f.address.isSome then 5 else 0) ≤ 14 ∧
    14 < frame.length ∧ frame[14]? ≠ some 0xB8 ∧
    s.schedule = (frame.set 14 0xB8).map Input.rxbyte ++ [] := by decide
/-- V34: a write that returns at once; the least and the greatest frame length. -/
theorem witness_SilentAttemptDuration :
    let s : State := { openIdle with
      sState := .settle
      handlerArmed := true
      txLen := 519
      cfgTimeoutMs := 0
      schedule := silentAttempt 0 519 0 ++ [] }
    s.sState = .settle ∧ s.sElapsed = 0 ∧ s.respValid = false ∧ s.txLen.toNat ≤ 519 ∧
    s.schedule = silentAttempt 0 s.txLen.toNat s.cfgTimeoutMs.toNat ++ [] := by
  refine ⟨rfl, rfl, rfl, by decide, rfl⟩
theorem witness_SilentLineAttemptCount :
    let events := Input.hostop 0x00000004 [] :: (List.replicate 3 (silentAttempt 0 14 4000)).flatten
    let s : State := { openIdle with schedule := events ++ [] }
    s.sState = .idle ∧ s.opened = true ∧ Memory.wf s.txBuf = true ∧ s.cfgMaxRetries.toNat + 1 = 3 ∧
    (requestFrame ⟨s.cfgPreamble, none, 0, [], []⟩).length = 14 ∧ s.cfgTimeoutMs.toNat = 4000 ∧
    s.schedule = events ++ [] := by
  refine ⟨rfl, rfl, rfl, rfl, by decide, rfl, rfl⟩
theorem witness_ChunkBoundariesUnobservable :
    ({ openIdle with schedule := [.rxbyte 6, .rxbyte 3, .tick] } : State).schedule =
      [6, 3].map Input.rxbyte ++ [.tick] ∧
    openIdle.opened = true ∧ waiting.opened = true ∧ SameParser openIdle waiting ∧
    exec (.rxbyte 6) openIdle = .next (after (exec (.rxbyte 6) openIdle)) :=
  ⟨by decide, by decide, by decide, by unfold SameParser; decide, next_after (by decide)⟩
theorem witness_ConfigurationWrittenOnlyByCfgwr :
    step (facing (.hostop 0x05DC0205 []) State.reset) =
      .next (after (step (facing (.hostop 0x05DC0205 []) State.reset))) ∧
    (after (step (facing (.hostop 0x05DC0205 []) State.reset))).cfgTimeoutMs = 1500 ∧
    (facing (.hostop 0x05DC0205 []) State.reset).rxEnLine = false :=
  ⟨next_after (by decide), by decide, by decide⟩
/-- The checksum byte of a command-0 frame, the address being learned from it, and a `CLOSE`. -/
theorem witness_AddressWrittenOnlyByLearning :
    let s := facing (.rxbyte 6)
      { parsing .readChecksum 0 14 6 with pData := Memory.writeBytes [] 0 dataZ }
    let u := facing (.hostop 0x00000002 []) learned
    step s = .next (after (step s)) ∧ s.zeroDone = false ∧ (after (step s)).zeroDone = true ∧
    s.curAddrValid = false ∧ (after (step s)).curAddrValid = true ∧ (after (step s)).curAddr = addrA ∧ step u = .next (after (step u)) ∧ u.curAddrValid = true ∧
    u.zeroDone = true ∧ (after (step u)).curAddrValid = false :=
  ⟨next_after (by decide), by decide, by decide, by decide, by decide, by decide, next_after (by decide), by decide,
    by decide, by decide⟩
/-- A retry of a requested command, and one of the automatic zero command. -/
theorem witness_RetrySendsTheSameBytes :
    let s := facing .tick { waiting with retryBudget := 2, sElapsed := 3999 }
    let u := facing .tick { waiting with retryBudget := 2, sElapsed := 3999, sPhase := true, reqOp := 3 }
    step s = .next (after (step s)) ∧ s.sPhase = false ∧ (after (step s)).retryBudget = 1 ∧
    (∀ w bytes rest, s.schedule ≠ .hostop w bytes :: rest) ∧
    step u = .next (after (step u)) ∧ (after (step u)).sPhase = true ∧ (after (step u)).retryBudget = 1 ∧
    ∀ w bytes rest, u.schedule ≠ .hostop w bytes :: rest :=
  ⟨next_after (by decide), by decide, by decide, fun _ _ _ h => (by cases h), next_after (by decide), by decide,
    by decide, fun _ _ _ h => by cases h⟩
theorem witness_ResultsWrittenOnlyWhileArmed :
    let s := facing (.rxbyte 6) { parsing .readChecksum 0 2 6 with
      handlerArmed := true
      sState := .hold
      pStatus := ⟨0, 0x40⟩ }
    step s = .next (after (step s)) ∧ (after (step s)).resStatus = ⟨0, 0x40⟩ :=
  ⟨next_after (by decide), by decide⟩
theorem witness_TransmitsOnlyWhileKeyed :
    guardEnds.Inv ∧ step guardEnds = .next (after (step guardEnds)) ∧
    txStream (after (step guardEnds)) = [0, 0, 0, 0] :=
  ⟨guardEnds_inv, next_after (by decide), by decide⟩
/-- Two received bytes of one cycle stay in arrival order before its millisecond. -/
theorem witness_CycleEventsInOrder :
    State.reset.schedule ++ [.rxbyte 7, .rxbyte 6, .tick] = .rxbyte 7 :: [.rxbyte 6, .tick] ∧
    (offerCycle [.rxbyte 7, .tick, .rxbyte 6] State.reset).schedule = [.rxbyte 7, .rxbyte 6, .tick] ∧
    eventInstr (.rxbyte 7) = some (.rxbyte 7) ∧
    step (offerCycle [.rxbyte 7, .tick, .rxbyte 6] State.reset) =
      .next (after (step (offerCycle [.rxbyte 7, .tick, .rxbyte 6] State.reset))) :=
  ⟨by decide, by decide, by decide, next_after (by decide)⟩

end Sys2Proof.Tests
end

/-! What a step does with the event it takes (spec/00_scope.md R9, R10, spec/60_exceptions.md R231), and the
statements about the head of the schedule. -/

namespace Sys2Proof.Machine

theorem nextInput_cons {s : State} {e : Input} {rest : List Input} (h : s.schedule = e :: rest) :
    nextInput s = (e, { s with schedule := rest }) := by
  simp only [nextInput, h]

theorem nextInput_nil {s : State} (h : s.schedule = []) : nextInput s = (.tick, s) := by
  simp only [nextInput, h]

@[simp] theorem eventInstr_rxbyte (b : Byte) : eventInstr (.rxbyte b) = some (.rxbyte b) := rfl

@[simp] theorem eventInstr_tick : eventInstr .tick = some .tick := rfl

@[simp] theorem eventInstr_txdone : eventInstr .txdone = some .txdone := rfl

@[simp] theorem eventInstr_xfault : eventInstr .xfault = some .xfault := rfl

@[simp] theorem eventInstr_openAnswer (a : OpenAnswer) : eventInstr (.openAnswer a) = none := rfl

theorem eventInstr_hostop_of_decode_ok {w : HostWord} {bytes : List Byte} {i : Instr}
    (h : decode (.hostw w bytes) = .ok i) : eventInstr (.hostop w bytes) = some i := by
  simp only [eventInstr, h]

theorem eventInstr_hostop_of_decode_error {w : HostWord} {bytes : List Byte} {r : Reject}
    (h : decode (.hostw w bytes) = .error r) : eventInstr (.hostop w bytes) = some (.hostop w bytes) := by
  simp only [eventInstr, h]

/-- An event that stands for an operation: the step is that operation. -/
theorem step_of_eventInstr_some {s t : State} {e : Input} {i : Instr} (hn : nextInput s = (e, t))
    (hi : eventInstr e = some i) : step s = exec i t := by
  simp only [step, hn, hi]

/-- An event that stands for no operation: the step only samples the transport's answer. -/
theorem step_of_eventInstr_none {s t : State} {e : Input} (hn : nextInput s = (e, t))
    (hi : eventInstr e = none) : step s = .next (sampleAnswer e t) := by
  simp only [step, hn, hi]

end Sys2Proof.Machine

namespace Sys2Proof.Proofs

open Sys2Proof Sys2Proof.Machine

/-- Settles O3: each clause names the operation of one kind of event, and a step runs the operation of its event. -/
theorem stepRunsDecodedEvent : Obligations.StepRunsDecodedEvent := by
  intro s e rest hs
  have runs : ∀ i, eventInstr e = some i → step s = exec i { s with schedule := rest } :=
    fun _ hi => step_of_eventInstr_some (nextInput_cons hs) hi
  refine ⟨runs, ?decodes, ?rejected, ?rxbyte, ?tick, ?txdone, ?xfault⟩
  case decodes =>
    rintro w bytes i rfl hd
    exact runs i (eventInstr_hostop_of_decode_ok hd)
  case rejected =>
    rintro w bytes r rfl hd
    exact runs _ (eventInstr_hostop_of_decode_error hd)
  case rxbyte =>
    rintro b rfl
    exact runs _ (eventInstr_rxbyte b)
  case tick =>
    rintro rfl
    exact runs _ eventInstr_tick
  case txdone =>
    rintro rfl
    exact runs _ eventInstr_txdone
  case xfault =>
    rintro rfl
    exact runs _ eventInstr_xfault

/-- Settles O4: the event of an empty schedule is a `TICK`, and the transport's answer stands for no operation. -/
theorem quietScheduleAndSampledAnswer : Obligations.QuietScheduleAndSampledAnswer := by
  refine ⟨?quiet, ?sampled⟩
  case quiet =>
    intro s hs
    exact step_of_eventInstr_some (nextInput_nil hs) eventInstr_tick
  case sampled =>
    intro s a rest hs
    exact step_of_eventInstr_none (nextInput_cons hs) (eventInstr_openAnswer a)

end Sys2Proof.Proofs

/-! What each event's operation keeps: the invariant of spec/10_state.md R51, and the registers that few events write
(spec/10_state.md R23 to R32, R45). -/

namespace Sys2Proof.Machine

/-! ## The handler an event goes to -/

/-- `TICK` is the handler of the state the sequencer is in. -/
theorem exec_tick_cases (s : State) :
    (s.sState = .idle ∧ exec .tick s = .next s) ∨
    (s.sState = .settle ∧ exec .tick s = .next (tickInSettle s)) ∨
    (s.sState = .guard ∧ exec .tick s = tickInGuard s) ∨
    (s.sState = .write ∧ exec .tick s = .next (tickInWrite s)) ∨
    (s.sState = .hold ∧ exec .tick s = .next (tickInHold s)) ∨
    (s.sState = .wait ∧ exec .tick s = .next (tickInWait s)) := by
  have he : exec .tick s = tickOnce s := rfl
  rw [he, tickOnce]
  cases s.sState <;> simp

/-- A byte goes to the handler of the state the parser is in. -/
theorem parseByte_cases (b : Byte) (s : State) :
    (s.pState = .seekPreamble ∧ parseByte b s = .next (seekPreamble b s)) ∨
    (s.pState = .readDelimiter ∧ parseByte b s = .next (readDelimiter b s)) ∨
    (s.pState = .readAddress ∧ parseByte b s = readAddress b s) ∨
    (s.pState = .readCommand ∧ parseByte b s = .next (readCommand b s)) ∨
    (s.pState = .readByteCount ∧ parseByte b s = .next (readByteCount b s)) ∨
    (s.pState = .readStatus ∧ parseByte b s = readStatus b s) ∨
    (s.pState = .readData ∧ parseByte b s = readData b s) ∨
    (s.pState = .readChecksum ∧ parseByte b s = readChecksum b s) ∨
    (s.pState = .complete ∧ parseByte b s = completeFrame s) := by
  rw [parseByte]
  cases s.pState <;> simp

/-- `XFAULT` is ignored in `IDLE` and otherwise the cause of an attempt's end (spec/60_exceptions.md R226). -/
theorem execXfault_cases (s : State) :
    (s.sState = .idle ∧ exec .xfault s = .next s) ∨
    (s.sState ≠ .idle ∧ exec .xfault s = .next (takeCause .xfault s)) := by
  by_cases h : s.sState = .idle
  · exact .inl ⟨h, if_pos h⟩
  · exact .inr ⟨h, if_neg h⟩

/-! ## The end of an attempt -/

/-- How an attempt that has ended goes on (spec/43_session.md R195, R197): the exchange completes, the exchange of the
requested command starts after the automatic zero command's, or the attempt is armed again. -/
inductive AttemptEnd (s : State) : State → Prop
  | completed (log : List Output) (hp : s.sPhase = false) :
      AttemptEnd s { s with sState := .idle, outs := log }
  | secondExchange (c : Command) (log : List Output) (hc : c.data.length ≤ 255) :
      AttemptEnd s (startExchange c { s with sPhase := false, outs := log })
  | retried (budget : Byte) (log : List Output) :
      AttemptEnd s (arm { s with retryBudget := budget, outs := log })

/-- `EXCHANGE` enters `SETTLE` from whatever state the sequencer was in. -/
theorem startExchange_with_sState (c : Command) (q : SState) (s : State) :
    startExchange c { s with sState := q } = startExchange c s := by
  rw [startExchange_eq, startExchange_eq]

theorem finishWith_ends (code : FinishCode) (s : State) : AttemptEnd s (finishWith code s) := by
  rcases finishWith_cases code s with ⟨hp, h⟩ | ⟨_, h⟩ <;> rw [h]
  · exact .completed _ hp
  · rw [startExchange_with_sState _ _ { s with sPhase := false }]
    exact .secondExchange _ s.outs (buildCommand_fits s)

theorem retryOr_ends (code : RetryCode) (s : State) : AttemptEnd s (retryOr code s) := by
  rcases retryOr_cases code s with ⟨_, h⟩ | ⟨_, h⟩ <;> rw [h]
  · exact finishWith_ends _ s
  · exact .retried _ s.outs

/-- The log event of a communication fault does not change how the attempt ends. -/
theorem AttemptEnd.of_logged {s t : State} {log : List Output} (h : AttemptEnd { s with outs := log } t) :
    AttemptEnd s t := by
  cases h with
  | completed log hp => exact .completed log hp
  | secondExchange c log hc => exact .secondExchange c log hc
  | retried budget log => exact .retried budget log

theorem classifyByte_ends (b : Byte) (s : State) : AttemptEnd s (classifyByte b s) := by
  rcases classifyByte_cases b s with ⟨_, h⟩ | ⟨_, h⟩ <;> rw [h]
  · exact (retryOr_ends _ _).of_logged
  · exact finishWith_ends _ s

theorem resolveWait_ends (s : State) : AttemptEnd { s with handlerArmed := false } (resolveWait s) :=
  classifyByte_ends _ _

theorem timeoutWait_ends (s : State) : AttemptEnd { s with handlerArmed := false } (timeoutWait s) :=
  retryOr_ends _ _

theorem takeXfault_ends (s : State) :
    AttemptEnd { s with txEn := false, handlerArmed := false } (takeCause .xfault s) :=
  retryOr_ends _ _

/-! ## The invariant in two parts, which different operations touch -/

/-- The byte buffers are canonical and the frame in `TXBUF` fits (spec/10_state.md R43). -/
def State.bufferInv (s : State) : Prop := s.txLen.toNat ≤ Config.txBufSize ∧ s.memoryWf

/-- What the invariant says of the line, the session registers and the buffers: all but the parser's items. -/
def State.exchangeInv (s : State) : Prop := s.lineDiscipline ∧ s.sessionInv ∧ s.bufferInv

/-- What the invariant says of the parser, state by state: its items of R51 and the byte count they rest on. -/
def parserStateInv (p : PState) (cnt bc : Nat) : Prop :=
  match p with
  | .seekPreamble | .readCommand | .readByteCount => True
  | .readAddress => cnt < 5
  | .readStatus => cnt < 2 ∧ 2 ≤ bc
  | .readData => 3 ≤ bc ∧ cnt < bc - 2
  | .readChecksum => 2 ≤ bc
  | .readDelimiter | .complete => False

/-- The parser's items hold of the state's parser registers. -/
def State.parsingInv (s : State) : Prop := parserStateInv s.pState s.pCnt.toNat s.pBc.toNat

theorem State.parsingInv_iff (s : State) : s.parsingInv ↔ s.parserInv ∧
    (s.pState = .readStatus → 2 ≤ s.pBc.toNat) ∧ (s.pState = .readChecksum → 2 ≤ s.pBc.toNat) := by
  unfold State.parsingInv parserStateInv State.parserInv
  cases s.pState <;> simp

theorem State.inv_iff (s : State) : s.Inv ↔ s.exchangeInv ∧ s.parsingInv := by
  rw [State.parsingInv_iff]
  unfold State.Inv State.specInv State.sizeInv State.exchangeInv State.bufferInv
  tauto

/-! ### The buffers -/

theorem bufferInv_storeRequest {s : State} (h : s.bufferInv) (cmd len : Byte) (data : List Byte) :
    (storeRequest cmd len data s).bufferInv := by
  obtain ⟨hlen, hreq, hres, hp, htx⟩ := h
  exact ⟨hlen, Memory.wf_writeBytes 0 data hreq, hres, hp, htx⟩

theorem bufferInv_encodeInto {s : State} {c : Command} (h : s.bufferInv) (hc : c.data.length ≤ 255) :
    (encodeInto c s).bufferInv := by
  obtain ⟨_, hreq, hres, hp, htx⟩ := h
  refine ⟨?_, hreq, hres, hp, Memory.wf_writeBytes 0 _ htx⟩
  rw [encodeInto_txLen_toNat hc]
  exact requestFrame_fits hc

/-! ### The sequencer in `IDLE`, and moving among the busy states -/

/-- In `IDLE` the line is released, no handler is armed and no automatic zero exchange is under way. -/
theorem exchangeInv_idle_iff {s : State} (hi : s.sState = .idle) :
    s.exchangeInv ↔ s.txEn = false ∧ s.handlerArmed = false ∧ s.sPhase = false ∧
      (s.zeroDone = true → s.curAddrValid = true) ∧ s.bufferInv := by
  simp [State.exchangeInv, State.lineDiscipline, State.sessionInv, hi, and_assoc]

/-- The session's items only ask whether the sequencer is in `IDLE`, so it may move among the other states. -/
theorem sessionInv_of_busy {s : State} {q : SState} (h : s.sessionInv) (hs : s.sState ≠ .idle) (hq : q ≠ .idle) :
    State.sessionInv { s with sState := q } := by
  obtain ⟨hopen, _, hphase, hzero⟩ := h
  exact ⟨fun _ => hopen hs, fun _ => hq, fun hp => ⟨hq, (hphase hp).2⟩, hzero⟩

/-! ### Between attempts -/

/-- What holds when an attempt has ended and before the next one is armed: the line released and the handler off. -/
structure State.BetweenAttempts (s : State) : Prop where
  opened : s.opened = true
  released : s.txEn = false
  disarmed : s.handlerArmed = false
  phase : s.sPhase = true → s.reqOp = 3
  learned : s.zeroDone = true → s.curAddrValid = true
  buffers : s.bufferInv

/-- An attempt of a running exchange ends once the line is released and the handler is disarmed. -/
theorem betweenAttempts_of_busy {s : State} (h : s.sessionInv) (hb : s.bufferInv) (hs : s.sState ≠ .idle)
    (htx : s.txEn = false) : State.BetweenAttempts { s with handlerArmed := false } := by
  obtain ⟨hopen, _, hphase, hzero⟩ := h
  exact ⟨hopen hs, htx, rfl, fun hp => (hphase hp).2, hzero, hb⟩

theorem State.BetweenAttempts.exchangeInv_arm {s : State} (h : s.BetweenAttempts) : (arm s).exchangeInv := by
  obtain ⟨hopen, htx, _, hphase, hzero, hb⟩ := h
  refine ⟨?line, ⟨fun _ => hopen, ?armed, ?phase, hzero⟩, hb⟩
  case line => simp [State.lineDiscipline, htx]
  case armed => simp
  case phase => simpa using hphase

theorem State.BetweenAttempts.encodeInto {s : State} {c : Command} (h : s.BetweenAttempts) (hc : c.data.length ≤ 255) :
    (encodeInto c s).BetweenAttempts :=
  { h with buffers := bufferInv_encodeInto h.buffers hc }

theorem State.BetweenAttempts.exchangeInv_startExchange {s : State} {c : Command} (h : s.BetweenAttempts)
    (hc : c.data.length ≤ 255) : (startExchange c s).exchangeInv := by
  have hbudget : State.BetweenAttempts { s with retryBudget := s.cfgMaxRetries } := { h with }
  exact (hbudget.encodeInto hc).exchangeInv_arm

/-- However an attempt ends, the invariant of line, session and buffers holds again. -/
theorem AttemptEnd.exchangeInv {s t : State} (h : AttemptEnd s t) (hs : s.BetweenAttempts) : t.exchangeInv := by
  cases h with
  | completed log hp =>
    exact (exchangeInv_idle_iff rfl).mpr ⟨hs.released, hs.disarmed, hp, hs.learned, hs.buffers⟩
  | secondExchange c log hc =>
    have hs' : State.BetweenAttempts { s with sPhase := false, outs := log } := { hs with phase := nofun }
    exact hs'.exchangeInv_startExchange hc
  | retried budget log =>
    have hs' : State.BetweenAttempts { s with retryBudget := budget, outs := log } := { hs with }
    exact hs'.exchangeInv_arm

/-- The end of an attempt leaves the parser alone or resets it. -/
theorem AttemptEnd.parsingInv {s t : State} (h : AttemptEnd s t) (hs : s.parsingInv) : t.parsingInv := by
  cases h with
  | completed => exact hs
  | secondExchange => exact trivial
  | retried => exact trivial

theorem AttemptEnd.inv {s t : State} (h : AttemptEnd s t) (hs : s.BetweenAttempts) (hp : s.parsingInv) : t.Inv :=
  t.inv_iff.mpr ⟨h.exchangeInv hs, h.parsingInv hp⟩

/-! ## The sequencer keeps the invariant -/

/-- `ENTER_WAIT` with the line released: wait, or end the attempt at once. -/
theorem enterWait_inv {s : State} (h : s.sessionInv) (hb : s.bufferInv) (hp : s.parsingInv)
    (hs : s.sState ≠ .idle) (htx : s.txEn = false) : (enterWait s).Inv := by
  have hwait : State.sessionInv { s with sState := .wait, sElapsed := 0 } := sessionInv_of_busy h hs nofun
  have hover := betweenAttempts_of_busy hwait hb nofun htx
  rcases enterWait_cases s with ⟨_, he⟩ | ⟨_, _, he⟩ | ⟨_, _, he⟩ <;> rw [he]
  · exact (resolveWait_ends _).inv hover hp
  · exact (timeoutWait_ends _).inv hover hp
  · refine (State.inv_iff _).mpr ⟨⟨?_, hwait, hb⟩, hp⟩
    simp [State.lineDiscipline, htx]

theorem tickInSettle_inv {s : State} (h : s.Inv) (hs : s.sState = .settle) : (tickInSettle s).Inv := by
  obtain ⟨⟨hline, hsession, hbuf⟩, hp⟩ := s.inv_iff.mp h
  rcases tickInSettle_cases s with ⟨_, he⟩ | ⟨_, he⟩ <;> rw [he]
  · exact h
  · refine (State.inv_iff _).mpr ⟨⟨?_, sessionInv_of_busy hsession ?_ ?_, hbuf⟩, hp⟩
    · simp [State.lineDiscipline]
    · simp [hs]
    · decide

theorem tickInGuard_inv {s t : State} (h : s.Inv) (hs : s.sState = .guard) (ht : tickInGuard s = .next t) :
    t.Inv := by
  obtain ⟨⟨hline, hsession, hbuf⟩, hp⟩ := s.inv_iff.mp h
  rcases tickInGuard_cases s with ⟨_, he⟩ | ⟨_, he⟩ <;> rw [he] at ht
  · cases ht
    exact h
  · rcases beginWrite_cases { s with sElapsed := sat16Succ s.sElapsed } with ⟨_, hw⟩ | ⟨_, hw⟩ <;>
      rw [hw] at ht <;> cases ht
    refine (State.inv_iff _).mpr ⟨⟨?_, sessionInv_of_busy hsession ?_ ?_, hbuf⟩, hp⟩
    · simpa [State.lineDiscipline, hs] using hline
    · simp [hs]
    · decide

theorem tickInHold_inv {s : State} (h : s.Inv) (hs : s.sState = .hold) : (tickInHold s).Inv := by
  obtain ⟨⟨_, hsession, hbuf⟩, hp⟩ := s.inv_iff.mp h
  rcases tickInHold_cases s with ⟨_, he⟩ | ⟨_, he⟩ <;> rw [he]
  · exact h
  · refine enterWait_inv hsession hbuf hp ?_ rfl
    simp [hs]

theorem State.released_of_wait {s : State} (h : s.lineDiscipline) (hs : s.sState = .wait) : s.txEn = false := by
  simpa [State.lineDiscipline, hs] using h

theorem tickInWait_inv {s : State} (h : s.Inv) (hs : s.sState = .wait) : (tickInWait s).Inv := by
  obtain ⟨⟨hline, hsession, hbuf⟩, hp⟩ := s.inv_iff.mp h
  have hbusy : s.sState ≠ .idle := by simp [hs]
  rcases tickInWait_cases s with ⟨_, he⟩ | ⟨_, he⟩ <;> rw [he]
  · exact h
  · exact (timeoutWait_ends _).inv (betweenAttempts_of_busy hsession hbuf hbusy (s.released_of_wait hline hs)) hp

/-- One millisecond, in the state the sequencer is in. -/
theorem tick_inv {s t : State} (h : s.Inv) (ht : exec .tick s = .next t) : t.Inv := by
  rcases exec_tick_cases s with ⟨_, he⟩ | ⟨hs, he⟩ | ⟨hs, he⟩ | ⟨_, he⟩ | ⟨hs, he⟩ | ⟨hs, he⟩ <;> rw [he] at ht
  case inl => cases ht; exact h
  · cases ht; exact tickInSettle_inv h hs
  · exact tickInGuard_inv h hs ht
  · cases ht; exact h
  · cases ht; exact tickInHold_inv h hs
  · cases ht; exact tickInWait_inv h hs

theorem txdone_inv {s t : State} (h : s.Inv) (ht : exec .txdone s = .next t) : t.Inv := by
  obtain ⟨⟨hline, hsession, hbuf⟩, hp⟩ := s.inv_iff.mp h
  change execTxdone s = .next t at ht
  rcases execTxdone_cases s with ⟨hs, _, he⟩ | ⟨hs, _, he⟩ | ⟨_, he⟩ <;> rw [he] at ht <;> cases ht
  · refine (State.inv_iff _).mpr ⟨⟨?_, sessionInv_of_busy hsession ?_ ?_, hbuf⟩, hp⟩
    · simpa [State.lineDiscipline, hs] using hline
    · simp [hs]
    · decide
  · refine enterWait_inv hsession hbuf hp ?_ rfl
    simp [hs]

theorem xfault_inv {s t : State} (h : s.Inv) (ht : exec .xfault s = .next t) : t.Inv := by
  obtain ⟨⟨_, hsession, hbuf⟩, hp⟩ := s.inv_iff.mp h
  rcases execXfault_cases s with ⟨_, he⟩ | ⟨hs, he⟩ <;> rw [he] at ht <;> cases ht
  · exact h
  · have hreleased : State.sessionInv { s with txEn := false } := hsession
    exact (takeXfault_ends s).inv (betweenAttempts_of_busy hreleased hbuf hs rfl) hp

/-! ## A received byte keeps the invariant -/

theorem learnFrom_exchangeInv {s : State} (f : CommandResult) (h : s.exchangeInv) :
    (learnFrom f s).exchangeInv := by
  obtain ⟨hline, ⟨hopen, harmed, hphase, _⟩, hbuf⟩ := h
  rcases learnFrom_cases f s with ⟨_, he⟩ | ⟨_, he⟩ <;> rw [he]
  · exact ⟨hline, ⟨hopen, harmed, hphase, fun _ => rfl⟩, hbuf⟩
  · exact ⟨hline, ⟨hopen, harmed, hphase, ‹_›⟩, hbuf⟩

theorem latch_exchangeInv {s : State} (f : CommandResult) (h : s.exchangeInv) : (latch f s).exchangeInv := by
  rcases latch_cases f s with ⟨_, _, he⟩ | ⟨_, he⟩ <;> rw [he]
  · obtain ⟨hline, hsession, hlen, hreq, hres, hp, htx⟩ := h
    exact ⟨hline, hsession, hlen, hreq, Memory.wf_writeBytes 0 f.data hres, hp, htx⟩
  · exact h

/-- `NOTIFY` learns, latches and, in `WAIT`, ends the attempt. -/
theorem notifyFrame_exchangeInv {s : State} (f : CommandResult) (h : s.exchangeInv) :
    (notifyFrame f s).exchangeInv := by
  obtain ⟨u, hu, hw⟩ := notifyFrame_cases f s
  have hlearned : u.exchangeInv := by
    rcases hu with ⟨_, rfl⟩ | ⟨_, rfl⟩
    · exact learnFrom_exchangeInv f h
    · exact h
  have hlatched := latch_exchangeInv f hlearned
  rcases hw with ⟨hwait, _, he⟩ | ⟨_, he⟩ <;> rw [he]
  · obtain ⟨hline, hsession, hbuf⟩ := hlatched
    have hbusy : (latch f u).sState ≠ .idle := by simp [hwait]
    exact (resolveWait_ends _).exchangeInv
      (betweenAttempts_of_busy hsession hbuf hbusy (State.released_of_wait hline hwait))
  · exact hlatched

/-- `Complete` needs nothing of the parser: it leaves it seeking a preamble. -/
theorem completeFrame_inv {s t : State} (h : s.exchangeInv) (ht : completeFrame s = .next t) : t.Inv := by
  rcases completeFrame_cases s with ⟨_, he⟩ | ⟨_, he⟩ <;> rw [he] at ht <;> cases ht
  exact (State.inv_iff _).mpr ⟨notifyFrame_exchangeInv _ h, trivial⟩

theorem readDelimiter_inv {s : State} (b : Byte) (h : s.exchangeInv) : (readDelimiter b s).Inv := by
  refine (State.inv_iff _).mpr ⟨h, ?_⟩
  cases hb : Config.isLong b <;> simp [State.parsingInv, parserStateInv, readDelimiter, hb]

theorem seekPreamble_inv {s : State} (b : Byte) (h : s.Inv) : (seekPreamble b s).Inv := by
  rcases seekPreamble_cases b s with ⟨_, he⟩ | ⟨_, he⟩ <;> rw [he]
  · exact h
  · exact readDelimiter_inv b (s.inv_iff.mp h).1

theorem readAddress_inv {s t : State} {b : Byte} (h : s.Inv) (hs : s.pState = .readAddress)
    (ht : readAddress b s = .next t) : t.Inv := by
  obtain ⟨hex, _⟩ := s.inv_iff.mp h
  rcases readAddress_cases b s with ⟨a, _, hcnt, he⟩ | ⟨_, he⟩ <;> rw [he] at ht <;> cases ht
  refine (State.inv_iff _).mpr ⟨hex, ?_⟩
  by_cases hlast : s.pCnt + 1 = 5
  · rw [if_pos hlast]
    trivial
  · have hnext : (s.pCnt + 1).toNat < 5 := by bv_omega
    rw [if_neg hlast, hs]
    exact hnext

theorem readByteCount_inv {s : State} (b : Byte) (h : s.exchangeInv) : (readByteCount b s).Inv := by
  rcases readByteCount_cases b s with ⟨_, he⟩ | ⟨hb, he⟩ <;> rw [he]
  · exact (State.inv_iff _).mpr ⟨h, trivial⟩
  · exact (State.inv_iff _).mpr ⟨h, Nat.zero_lt_two, hb⟩

theorem readStatus_inv {s t : State} {b : Byte} (h : s.Inv) (hs : s.pState = .readStatus)
    (ht : readStatus b s = .next t) : t.Inv := by
  obtain ⟨hex, hp⟩ := s.inv_iff.mp h
  rw [State.parsingInv, hs] at hp
  obtain ⟨_, hbc⟩ := hp
  rcases readStatus_cases b s with ⟨_, he⟩ | ⟨_, he⟩ | ⟨_, he⟩ <;> rw [he] at ht <;> cases ht
  · refine (State.inv_iff _).mpr ⟨hex, ?_⟩
    rw [State.parsingInv, hs]
    exact ⟨Nat.one_lt_two, hbc⟩
  · refine (State.inv_iff _).mpr ⟨hex, ?_⟩
    by_cases htwo : s.pBc = 2
    · rw [if_pos htwo]
      exact hbc
    · have hthree : 3 ≤ s.pBc.toNat := by bv_omega
      rw [if_neg htwo]
      exact ⟨hthree, Nat.sub_pos_of_lt hthree⟩

theorem readData_inv {s t : State} {b : Byte} (h : s.Inv) (hs : s.pState = .readData)
    (ht : readData b s = .next t) : t.Inv := by
  obtain ⟨⟨hline, hsession, hlen, hreq, hres, hpd, htx⟩, hp⟩ := s.inv_iff.mp h
  rw [State.parsingInv, hs] at hp
  obtain ⟨hbc, hcnt⟩ := hp
  rcases readData_cases b s with ⟨htwo, _, he⟩ | ⟨_, he⟩ | ⟨_, _, he⟩ <;> rw [he] at ht <;> cases ht
  refine (State.inv_iff _).mpr ⟨⟨hline, hsession, hlen, hreq, hres, Memory.wf_write _ b hpd, htx⟩, ?_⟩
  by_cases hlast : s.pCnt + 1 = s.pBc - 2
  · rw [if_pos hlast]
    exact htwo
  · have hnext : (s.pCnt + 1).toNat < s.pBc.toNat - 2 := by bv_omega
    rw [if_neg hlast, hs]
    exact ⟨hbc, hnext⟩

theorem readChecksum_inv {s t : State} {b : Byte} (h : s.exchangeInv) (ht : readChecksum b s = .next t) : t.Inv := by
  rcases readChecksum_cases b s with ⟨_, he⟩ | ⟨_, he⟩ <;> rw [he] at ht
  · have hcomplete : State.exchangeInv { s with pState := .complete } := h
    exact completeFrame_inv hcomplete ht
  · cases ht
    exact (State.inv_iff _).mpr ⟨h, trivial⟩

/-- One byte, in the state the parser is in. -/
theorem parseByte_inv {s t : State} {b : Byte} (h : s.Inv) (ht : parseByte b s = .next t) : t.Inv := by
  obtain ⟨hex, _⟩ := s.inv_iff.mp h
  rcases parseByte_cases b s with ⟨_, he⟩ | ⟨_, he⟩ | ⟨hs, he⟩ | ⟨_, he⟩ | ⟨_, he⟩ | ⟨hs, he⟩ | ⟨hs, he⟩ | ⟨_, he⟩ |
    ⟨_, he⟩ <;> rw [he] at ht
  case inl => cases ht; exact seekPreamble_inv b h
  · cases ht; exact readDelimiter_inv b hex
  · exact readAddress_inv h hs ht
  · cases ht; exact (State.inv_iff _).mpr ⟨hex, trivial⟩
  · cases ht; exact readByteCount_inv b hex
  · exact readStatus_inv h hs ht
  · exact readData_inv h hs ht
  · exact readChecksum_inv hex ht
  · exact completeFrame_inv hex ht

theorem rxbyte_inv {s t : State} {b : Byte} (h : s.Inv) (ht : exec (.rxbyte b) s = .next t) : t.Inv := by
  change receiveByte b s = .next t at ht
  rcases receiveByte_cases b s with ⟨_, he⟩ | ⟨_, he⟩ <;> rw [he] at ht
  · have hlogged : State.Inv { s with outs := .evRxdump [b] :: s.outs } := h
    exact parseByte_inv hlogged ht
  · cases ht
    exact h

/-! ## A host operation keeps the invariant -/

theorem openPort_inv {s : State} (h : s.Inv) (hs : s.sState = .idle) : (openPort s).Inv := by
  obtain ⟨hex, _⟩ := s.inv_iff.mp h
  obtain ⟨_, harmed, hphase, hzero, hbuf⟩ := (exchangeInv_idle_iff hs).mp hex
  rcases openPort_cases s with ⟨_, he⟩ | ⟨_, _, he⟩ | ⟨_, _, _, _, he⟩ <;> rw [he]
  · exact h
  · exact (State.inv_iff _).mpr ⟨(exchangeInv_idle_iff (by exact hs)).mpr ⟨rfl, harmed, hphase, hzero, hbuf⟩,
      trivial⟩
  · exact h

theorem closePort_inv {s : State} (h : s.Inv) (hs : s.sState = .idle) : (closePort s).Inv := by
  obtain ⟨hex, _⟩ := s.inv_iff.mp h
  obtain ⟨htx, _, hphase, _, hbuf⟩ := (exchangeInv_idle_iff hs).mp hex
  rcases closePort_cases s with ⟨_, he⟩ | ⟨_, he⟩ <;> rw [he]
  · exact (State.inv_iff _).mpr ⟨(exchangeInv_idle_iff (by exact hs)).mpr ⟨htx, rfl, hphase, nofun, hbuf⟩,
      trivial⟩
  · exact h

/-- In `IDLE` the invariant is blind to `REQ_OP`: no automatic zero exchange is under way. -/
theorem recordOp_inv {s : State} (op : HostOp) (h : s.Inv) (hs : s.sState = .idle) : (recordOp op s).Inv := by
  obtain ⟨hex, hp⟩ := s.inv_iff.mp h
  exact (State.inv_iff _).mpr ⟨(exchangeInv_idle_iff (by exact hs)).mpr ((exchangeInv_idle_iff hs).mp hex), hp⟩

/-- In `IDLE` with the port open an exchange may start. -/
theorem betweenAttempts_of_idle {s : State} (h : s.exchangeInv) (hs : s.sState = .idle) (ho : s.opened = true) :
    s.BetweenAttempts := by
  obtain ⟨htx, harmed, hphase, hzero, hbuf⟩ := (exchangeInv_idle_iff hs).mp h
  exact ⟨ho, htx, harmed, by simp [hphase], hzero, hbuf⟩

theorem startExchange_inv {s : State} {c : Command} (h : s.BetweenAttempts) (hc : c.data.length ≤ 255) :
    (startExchange c s).Inv :=
  (State.inv_iff _).mpr ⟨h.exchangeInv_startExchange hc, trivial⟩

theorem sendRequest_inv {s : State} {cmd len : Byte} {data : List Byte} (h : s.Inv) (hs : s.sState = .idle) :
    (sendRequest cmd len data s).Inv := by
  obtain ⟨hex, _⟩ := s.inv_iff.mp h
  have ⟨_, _, hbuf⟩ := hex
  have ready (ho : s.opened = true) (phase : Bool) :
      State.BetweenAttempts { storeRequest cmd len data s with sPhase := phase } :=
    { betweenAttempts_of_idle hex hs ho with
      phase := fun _ => rfl
      buffers := bufferInv_storeRequest hbuf cmd len data }
  rcases sendRequest_cases cmd len data s with ⟨ho, _, he⟩ | ⟨ho, _, he⟩ | ⟨_, he⟩ <;> rw [he]
  · exact startExchange_inv (ready ho true) (by simp)
  · exact startExchange_inv (ready ho false) (buildCommand_fits _)
  · exact h

theorem sendZero_inv {s : State} (h : s.Inv) (hs : s.sState = .idle) : (sendZero s).Inv := by
  obtain ⟨hex, _⟩ := s.inv_iff.mp h
  rcases sendZero_cases s with ⟨ho, he⟩ | ⟨_, he⟩ <;> rw [he]
  · have ready : State.BetweenAttempts { s with reqOp := 4, sPhase := false } :=
      { betweenAttempts_of_idle hex hs ho with phase := nofun }
    exact startExchange_inv ready (by simp)
  · exact h

theorem hostop_inv {s t : State} {w : HostWord} {bytes : List Byte} (h : s.Inv)
    (ht : exec (.hostop w bytes) s = .next t) : t.Inv := by
  obtain ⟨hs, hcases⟩ := execHostop_cases ht
  have recorded (op : HostOp) := recordOp_inv op h hs
  rcases hcases with ⟨_, rfl⟩ | ⟨_, rfl⟩ | ⟨_, rfl⟩ | ⟨_, _, _, _, rfl⟩ | ⟨_, rfl⟩ |
    ⟨v, _, rfl⟩ | ⟨v, _, rfl⟩ | ⟨v, _, rfl⟩ | ⟨v, _, rfl⟩
  case inl => exact h
  · exact openPort_inv h hs
  · exact closePort_inv h hs
  · exact sendRequest_inv h hs
  · exact sendZero_inv h hs
  · exact recorded (.cfgPreamble v)
  · exact recorded (.cfgMaxRetries v)
  · exact recorded (.cfgTimeout v)
  · exact recorded (.cfgAutoZero v)

/-! ## Groups of registers that few events write -/

/-- The configuration registers (spec/10_state.md R24 to R27). -/
def State.configRegs (s : State) : Byte × Byte × BitVec 16 × Bool :=
  (s.cfgPreamble, s.cfgMaxRetries, s.cfgTimeoutMs, s.cfgAutoZero)

/-- The address and its two flags (spec/10_state.md R29, R32). -/
def State.addressRegs (s : State) : Addr5 × Bool × Bool := (s.curAddr, s.curAddrValid, s.zeroDone)

/-- The result registers (spec/10_state.md R22). -/
def State.resultRegs (s : State) : Bool × Addr5 × Byte × Status2 × Byte × Memory :=
  (s.resLong, s.resAddr, s.resCmd, s.resStatus, s.resLen, s.resData)

theorem configRegs_eq_iff {s t : State} : t.configRegs = s.configRegs ↔
    t.cfgPreamble = s.cfgPreamble ∧ t.cfgMaxRetries = s.cfgMaxRetries ∧ t.cfgTimeoutMs = s.cfgTimeoutMs ∧
      t.cfgAutoZero = s.cfgAutoZero := by
  simp [State.configRegs]

theorem addressRegs_eq_iff {s t : State} : t.addressRegs = s.addressRegs ↔
    t.curAddr = s.curAddr ∧ t.curAddrValid = s.curAddrValid ∧ t.zeroDone = s.zeroDone := by
  simp [State.addressRegs]

theorem resultRegs_eq_iff {s t : State} : t.resultRegs = s.resultRegs ↔
    t.resLong = s.resLong ∧ t.resAddr = s.resAddr ∧ t.resCmd = s.resCmd ∧ t.resStatus = s.resStatus ∧
      t.resLen = s.resLen ∧ t.resData = s.resData := by
  simp [State.resultRegs]

/-- Configuration, receiver-enable line, address and results are as before. -/
def KeepsRegs (s t : State) : Prop :=
  t.configRegs = s.configRegs ∧ t.rxEnLine = s.rxEnLine ∧ t.addressRegs = s.addressRegs ∧
    t.resultRegs = s.resultRegs

theorem KeepsRegs.refl (s : State) : KeepsRegs s s := ⟨rfl, rfl, rfl, rfl⟩

theorem SameButProgress.keepsRegs {s t : State} (h : SameButProgress s t) : KeepsRegs s t := by
  rw [show t = _ from h]
  exact .refl s

theorem EndOfAttempt.keepsRegs {s t : State} (h : EndOfAttempt s t) : KeepsRegs s t :=
  h.1.keepsRegs

theorem startExchange_keepsRegs (c : Command) (s : State) : KeepsRegs s (startExchange c s) := by
  rw [startExchange_eq]
  exact .refl s

/-! ## The sequencer's events write none of them -/

theorem tickInSettle_keepsRegs (s : State) : KeepsRegs s (tickInSettle s) := by
  rcases tickInSettle_cases s with ⟨_, he⟩ | ⟨_, he⟩ <;> rw [he] <;> exact .refl s

theorem tickInGuard_keepsRegs {s t : State} (h : tickInGuard s = .next t) : KeepsRegs s t := by
  rcases tickInGuard_cases s with ⟨_, he⟩ | ⟨_, he⟩ <;> rw [he] at h
  · cases h
    exact .refl s
  · rcases beginWrite_cases { s with sElapsed := sat16Succ s.sElapsed } with ⟨_, hw⟩ | ⟨_, hw⟩ <;>
      rw [hw] at h <;> cases h
    exact .refl s

theorem tickInHold_keepsRegs (s : State) : KeepsRegs s (tickInHold s) := by
  rcases tickInHold_cases s with ⟨_, he⟩ | ⟨_, he⟩ <;> rw [he]
  · exact .refl s
  · exact (enterWait_frame { s with sTxElapsed := sat16Succ s.sTxElapsed, txEn := false }).keepsRegs

theorem tickInWait_keepsRegs (s : State) : KeepsRegs s (tickInWait s) := by
  rcases tickInWait_cases s with ⟨_, he⟩ | ⟨_, he⟩ <;> rw [he]
  · exact .refl s
  · exact (timeoutWait_frame { s with sElapsed := sat16Succ s.sElapsed }).keepsRegs

theorem tick_keepsRegs {s t : State} (h : exec .tick s = .next t) : KeepsRegs s t := by
  rcases exec_tick_cases s with ⟨_, he⟩ | ⟨_, he⟩ | ⟨_, he⟩ | ⟨_, he⟩ | ⟨_, he⟩ | ⟨_, he⟩ <;> rw [he] at h
  case inl => cases h; exact .refl _
  · cases h; exact tickInSettle_keepsRegs s
  · exact tickInGuard_keepsRegs h
  · cases h; exact .refl s
  · cases h; exact tickInHold_keepsRegs s
  · cases h; exact tickInWait_keepsRegs s

theorem txdone_keepsRegs {s t : State} (h : exec .txdone s = .next t) : KeepsRegs s t := by
  change execTxdone s = .next t at h
  rcases execTxdone_cases s with ⟨_, _, he⟩ | ⟨_, _, he⟩ | ⟨_, he⟩ <;> rw [he] at h <;> cases h
  · exact .refl s
  · exact (enterWait_frame { s with txEn := false }).keepsRegs

theorem xfault_keepsRegs {s t : State} (h : exec .xfault s = .next t) : KeepsRegs s t := by
  rcases execXfault_cases s with ⟨_, he⟩ | ⟨_, he⟩ <;> rw [he] at h <;> cases h
  · exact .refl _
  · exact (retryOr_frame .none { s with txEn := false, handlerArmed := false }).keepsRegs

/-! ## A received byte writes the address by learning, the results by latching -/

/-- What a received byte may write: the address together with both flags, and the results of an armed attempt whose
latch is clear (spec/10_state.md R23, R29, R32). -/
def ReceivedWrites (s t : State) : Prop :=
  t.configRegs = s.configRegs ∧ t.rxEnLine = s.rxEnLine ∧
  (t.addressRegs = s.addressRegs ∨ (t.curAddrValid = true ∧ t.zeroDone = true)) ∧
  (t.resultRegs = s.resultRegs ∨ (s.handlerArmed = true ∧ s.respValid = false))

theorem ReceivedWrites.refl (s : State) : ReceivedWrites s s := ⟨rfl, rfl, .inl rfl, .inl rfl⟩

theorem ReceivedWrites.trans_keepsRegs {s u t : State} (h : ReceivedWrites s u) (hk : KeepsRegs u t) :
    ReceivedWrites s t := by
  obtain ⟨hconfig, hrx, haddr, hres⟩ := h
  obtain ⟨hconfig', hrx', haddr', hres'⟩ := hk
  obtain ⟨_, hvalid, hzero⟩ := addressRegs_eq_iff.mp haddr'
  refine ⟨hconfig'.trans hconfig, hrx'.trans hrx, ?_, ?_⟩
  · rwa [haddr', hvalid, hzero]
  · rwa [hres']

/-- Latching, before or after an address has been learned. -/
theorem latch_receivedWrites {s u : State} (f : CommandResult)
    (hu : u = s ∨ ∃ a, u = { s with curAddr := a, curAddrValid := true, zeroDone := true }) :
    ReceivedWrites s (latch f u) := by
  rcases latch_cases f u with ⟨harmed, hclear, he⟩ | ⟨_, he⟩ <;> rw [he] <;> rcases hu with rfl | ⟨a, rfl⟩
  · exact ⟨rfl, rfl, .inl rfl, .inr ⟨harmed, hclear⟩⟩
  · exact ⟨rfl, rfl, .inr ⟨rfl, rfl⟩, .inr ⟨harmed, hclear⟩⟩
  · exact .refl u
  · exact ⟨rfl, rfl, .inr ⟨rfl, rfl⟩, .inl rfl⟩

theorem notifyFrame_receivedWrites (f : CommandResult) (s : State) : ReceivedWrites s (notifyFrame f s) := by
  obtain ⟨u, hu, hw⟩ := notifyFrame_cases f s
  have hlearned : u = s ∨ ∃ a, u = { s with curAddr := a, curAddrValid := true, zeroDone := true } := by
    rcases hu with ⟨_, rfl⟩ | ⟨_, rfl⟩
    · rcases learnFrom_frame f s with he | ⟨_, _, he⟩
      · exact .inl he
      · exact .inr ⟨_, he⟩
    · exact .inl rfl
  have hlatched := latch_receivedWrites f hlearned
  rcases hw with ⟨_, _, he⟩ | ⟨_, he⟩ <;> rw [he]
  · exact hlatched.trans_keepsRegs (resolveWait_frame _).keepsRegs
  · exact hlatched

theorem completeFrame_receivedWrites {s t : State} (h : completeFrame s = .next t) : ReceivedWrites s t := by
  rcases completeFrame_cases s with ⟨_, he⟩ | ⟨_, he⟩ <;> rw [he] at h <;> cases h
  exact notifyFrame_receivedWrites _ s

theorem readStatus_receivedWrites {s t : State} {b : Byte} (h : readStatus b s = .next t) : ReceivedWrites s t := by
  rcases readStatus_cases b s with ⟨_, he⟩ | ⟨_, he⟩ | ⟨_, he⟩ <;> rw [he] at h <;> cases h <;> exact .refl s

theorem readData_receivedWrites {s t : State} {b : Byte} (h : readData b s = .next t) : ReceivedWrites s t := by
  rcases readData_cases b s with ⟨_, _, he⟩ | ⟨_, he⟩ | ⟨_, _, he⟩ <;> rw [he] at h <;> cases h
  exact .refl s

theorem readAddress_receivedWrites {s t : State} {b : Byte} (h : readAddress b s = .next t) : ReceivedWrites s t := by
  rcases readAddress_cases b s with ⟨_, _, _, he⟩ | ⟨_, he⟩ <;> rw [he] at h <;> cases h
  exact .refl s

theorem readChecksum_receivedWrites {s t : State} {b : Byte} (h : readChecksum b s = .next t) :
    ReceivedWrites s t := by
  rcases readChecksum_cases b s with ⟨_, he⟩ | ⟨_, he⟩ <;> rw [he] at h
  · have hw : ReceivedWrites { s with pState := .complete } t := completeFrame_receivedWrites h
    exact hw
  · cases h
    exact .refl s

/-- Only the byte that completes a frame writes anything but parser registers. -/
theorem parseByte_receivedWrites {s t : State} {b : Byte} (h : parseByte b s = .next t) : ReceivedWrites s t := by
  rcases parseByte_cases b s with ⟨_, he⟩ | ⟨_, he⟩ | ⟨_, he⟩ | ⟨_, he⟩ | ⟨_, he⟩ | ⟨_, he⟩ | ⟨_, he⟩ | ⟨_, he⟩ |
    ⟨_, he⟩ <;> rw [he] at h
  case inl =>
    cases h
    rcases seekPreamble_cases b s with ⟨_, he⟩ | ⟨_, he⟩ <;> rw [he] <;> exact .refl s
  · cases h; exact .refl s
  · exact readAddress_receivedWrites h
  · cases h; exact .refl s
  · cases h
    rcases readByteCount_cases b s with ⟨_, he⟩ | ⟨_, he⟩ <;> rw [he] <;> exact .refl s
  · exact readStatus_receivedWrites h
  · exact readData_receivedWrites h
  · exact readChecksum_receivedWrites h
  · exact completeFrame_receivedWrites h

theorem rxbyte_receivedWrites {s t : State} {b : Byte} (h : exec (.rxbyte b) s = .next t) : ReceivedWrites s t := by
  change receiveByte b s = .next t at h
  rcases receiveByte_cases b s with ⟨_, he⟩ | ⟨_, he⟩ <;> rw [he] at h
  · have hw : ReceivedWrites { s with outs := .evRxdump [b] :: s.outs } t := parseByte_receivedWrites h
    exact hw
  · cases h
    exact .refl s

/-! ## A host word writes one configuration register, or clears the address flags by `CLOSE` -/

/-- What the operation of a host word may write: a `CFGWR` its own register, `CLOSE` the two address flags, `OPEN`
the receiver-enable line, which it makes inactive (spec/43_session.md R181, R183, R184). -/
structure HostWrites (w : HostWord) (s t : State) : Prop where
  preamble : t.cfgPreamble = s.cfgPreamble ∨ decodeHostOp w = some (.cfgPreamble t.cfgPreamble)
  maxRetries : t.cfgMaxRetries = s.cfgMaxRetries ∨ decodeHostOp w = some (.cfgMaxRetries t.cfgMaxRetries)
  timeout : t.cfgTimeoutMs = s.cfgTimeoutMs ∨ decodeHostOp w = some (.cfgTimeout t.cfgTimeoutMs)
  autoZero : t.cfgAutoZero = s.cfgAutoZero ∨ decodeHostOp w = some (.cfgAutoZero t.cfgAutoZero)
  rxLine : s.rxEnLine = false → t.rxEnLine = false
  address : t.addressRegs = s.addressRegs ∨
    (decodeHostOp w = some .opClose ∧ t.addressRegs = (s.curAddr, false, false))
  results : t.resultRegs = s.resultRegs

theorem KeepsRegs.hostWrites {s t : State} (w : HostWord) (h : KeepsRegs s t) : HostWrites w s t := by
  obtain ⟨hconfig, hrx, haddr, hres⟩ := h
  obtain ⟨hpre, hmax, htimeout, hauto⟩ := configRegs_eq_iff.mp hconfig
  exact ⟨.inl hpre, .inl hmax, .inl htimeout, .inl hauto, fun hoff => hrx.trans hoff, .inl haddr, hres⟩

theorem HostWrites.refl (w : HostWord) (s : State) : HostWrites w s s := (KeepsRegs.refl s).hostWrites w

theorem openPort_hostWrites (w : HostWord) (s : State) : HostWrites w s (openPort s) := by
  rcases openPort_cases s with ⟨_, he⟩ | ⟨_, _, he⟩ | ⟨_, _, _, _, he⟩ <;> rw [he]
  · exact { HostWrites.refl w s with }
  · exact { HostWrites.refl w s with rxLine := fun _ => rfl }
  · exact { HostWrites.refl w s with }

theorem closePort_hostWrites {w : HostWord} (hw : decodeHostOp w = some .opClose) (s : State) :
    HostWrites w s (closePort s) := by
  rcases closePort_cases s with ⟨_, he⟩ | ⟨_, he⟩ <;> rw [he]
  · exact { HostWrites.refl w s with address := .inr ⟨hw, rfl⟩ }
  · exact { HostWrites.refl w s with }

theorem sendRequest_keepsRegs (cmd len : Byte) (data : List Byte) (s : State) :
    KeepsRegs s (sendRequest cmd len data s) := by
  rcases sendRequest_cases cmd len data s with ⟨_, _, he⟩ | ⟨_, _, he⟩ | ⟨_, he⟩ <;> rw [he]
  · exact startExchange_keepsRegs _ { storeRequest cmd len data s with sPhase := true }
  · exact startExchange_keepsRegs _ { storeRequest cmd len data s with sPhase := false }
  · exact .refl s

theorem sendZero_keepsRegs (s : State) : KeepsRegs s (sendZero s) := by
  rcases sendZero_cases s with ⟨_, he⟩ | ⟨_, he⟩ <;> rw [he]
  · exact startExchange_keepsRegs _ { s with reqOp := 4, sPhase := false }
  · exact .refl s

theorem hostop_hostWrites {s t : State} {w : HostWord} {bytes : List Byte}
    (h : exec (.hostop w bytes) s = .next t) : HostWrites w s t := by
  obtain ⟨_, hcases⟩ := execHostop_cases h
  rcases hcases with ⟨_, rfl⟩ | ⟨_, rfl⟩ | ⟨hd, rfl⟩ | ⟨_, _, _, _, rfl⟩ | ⟨_, rfl⟩ |
    ⟨v, hd, rfl⟩ | ⟨v, hd, rfl⟩ | ⟨v, hd, rfl⟩ | ⟨v, hd, rfl⟩
  case inl => exact { HostWrites.refl w s with }
  · exact openPort_hostWrites w s
  · exact closePort_hostWrites hd s
  · exact (sendRequest_keepsRegs _ _ _ s).hostWrites w
  · exact (sendZero_keepsRegs s).hostWrites w
  · exact { HostWrites.refl w s with preamble := .inr hd }
  · exact { HostWrites.refl w s with maxRetries := .inr hd }
  · exact { HostWrites.refl w s with timeout := .inr hd }
  · exact { HostWrites.refl w s with autoZero := .inr hd }

/-! ## What a step writes of them -/

theorem step_writes {s t : State} (h : step s = .next t) :
    KeepsRegs s t ∨
    (∃ b rest, s.schedule = .rxbyte b :: rest ∧ ReceivedWrites s t) ∨
    (∃ w bytes rest, s.schedule = .hostop w bytes :: rest ∧ HostWrites w s t) := by
  have dequeued {rest} (hk : KeepsRegs { s with schedule := rest } t) : KeepsRegs s t := hk
  rcases step_cases s with ⟨_, he⟩ | ⟨b, rest, hs, he⟩ | ⟨rest, _, he⟩ | ⟨rest, _, he⟩ | ⟨rest, _, he⟩ |
    ⟨_, rest, _, he⟩ | ⟨w, bytes, rest, hs, he⟩ <;> rw [he] at h
  · exact .inl (tick_keepsRegs h)
  · have hw := rxbyte_receivedWrites h
    exact .inr (.inl ⟨b, rest, hs, hw⟩)
  · exact .inl (dequeued (tick_keepsRegs h))
  · exact .inl (dequeued (txdone_keepsRegs h))
  · exact .inl (dequeued (xfault_keepsRegs h))
  · cases h
    exact .inl (.refl s)
  · have hw := hostop_hostWrites h
    exact .inr (.inr ⟨w, bytes, rest, hs, { hw with }⟩)

/-- The address and its flags stay, are learned with both flags set, or lose both flags to `CLOSE`. -/
theorem step_writes_address {s t : State} (h : step s = .next t) :
    t.addressRegs = s.addressRegs ∨
    (∃ b rest, s.schedule = .rxbyte b :: rest ∧ t.curAddrValid = true ∧ t.zeroDone = true) ∨
    (∃ w bytes rest, s.schedule = .hostop w bytes :: rest ∧ decodeHostOp w = some .opClose ∧
      t.addressRegs = (s.curAddr, false, false)) := by
  rcases step_writes h with ⟨_, _, haddr, _⟩ | ⟨b, rest, hs, _, _, haddr, _⟩ | ⟨w, bytes, rest, hs, hw⟩
  · exact .inl haddr
  · exact haddr.imp_right fun hset => .inl ⟨b, rest, hs, hset⟩
  · exact hw.address.imp_right fun ⟨hd, hcleared⟩ => .inr ⟨w, bytes, rest, hs, hd, hcleared⟩

/-! ## The model's faults -/

/-- Below 2 the byte count has no data length: `Complete` stops. -/
theorem completeFrame_of_byteCount_lt {s : State} (h : s.pBc.toNat < 2) :
    completeFrame s = .fault .byteCountBelowTwo := by
  rcases completeFrame_cases s with ⟨hle, _⟩ | ⟨_, he⟩
  · omega
  · exact he

/-- A frame longer than `TXBUF` is not written. -/
theorem beginWrite_of_tooLong {s : State} (h : 519 < s.txLen.toNat) :
    beginWrite s = .fault (.outOfRange .txBuf s.txLen.toNat) := by
  rcases beginWrite_cases s with ⟨hle, _⟩ | ⟨_, he⟩
  · omega
  · exact he

end Sys2Proof.Machine

namespace Sys2Proof.Proofs

open Sys2Proof Sys2Proof.Machine

/-- Settles O47: a step handles one event, and each event's operation keeps the invariant. Taking the event off the
schedule and sampling the transport's answer change nothing that the invariant speaks of. -/
theorem invariantKeptByEveryStep : Obligations.InvariantKeptByEveryStep := by
  intro s t h ht
  have dequeued (rest : List Input) : State.Inv { s with schedule := rest } := h
  rcases step_cases s with ⟨_, he⟩ | ⟨_, rest, _, he⟩ | ⟨rest, _, he⟩ | ⟨rest, _, he⟩ | ⟨rest, _, he⟩ |
    ⟨_, rest, _, he⟩ | ⟨_, _, rest, _, he⟩ <;> rw [he] at ht
  · exact tick_inv h ht
  · exact rxbyte_inv (dequeued rest) ht
  · exact tick_inv (dequeued rest) ht
  · exact txdone_inv (dequeued rest) ht
  · exact xfault_inv (dequeued rest) ht
  · cases ht
    exact h
  · exact hostop_inv (dequeued rest) ht

/-- Settles O2: every item holds of the reset values, and the buffers list nothing. -/
theorem resetMeetsInvariant : Obligations.ResetMeetsInvariant := by
  refine (State.inv_iff _).mpr ⟨(exchangeInv_idle_iff rfl).mpr ⟨rfl, rfl, rfl, nofun, ?_, reset_memory_wf⟩,
    trivial⟩
  decide

/-- Settles O55: of the events only a host word writes a configuration register, its own. -/
theorem configurationWrittenOnlyByCfgwr : Obligations.ConfigurationWrittenOnlyByCfgwr := by
  intro s t h
  rcases step_writes h with ⟨hconfig, hrx, _⟩ | ⟨_, _, _, hconfig, hrx, _⟩ | ⟨w, bytes, rest, hs, hw⟩
  case inr.inr =>
    have handled {op : HostOp} (hd : decodeHostOp w = some op) :
        ∃ w bytes rest, s.schedule = .hostop w bytes :: rest ∧ decodeHostOp w = some op :=
      ⟨w, bytes, rest, hs, hd⟩
    exact ⟨hw.preamble.imp_right handled, hw.maxRetries.imp_right handled, hw.timeout.imp_right handled,
      hw.autoZero.imp_right handled, hw.rxLine⟩
  all_goals
    obtain ⟨hpre, hmax, htimeout, hauto⟩ := configRegs_eq_iff.mp hconfig
    exact ⟨.inl hpre, .inl hmax, .inl htimeout, .inl hauto, hrx.trans⟩

/-- Settles O56: a byte that is learned sets both flags with the address; of the host's words only `CLOSE` touches the
flags, and it clears them. -/
theorem addressWrittenOnlyByLearning : Obligations.AddressWrittenOnlyByLearning := by
  intro s t h
  rcases step_writes_address h with hkept | ⟨b, rest, hs, hvalid, hzero⟩ | ⟨w, bytes, rest, hs, hd, hcleared⟩
  · obtain ⟨haddr, hvalid, hzero⟩ := addressRegs_eq_iff.mp hkept
    exact ⟨.inl haddr, fun hv => .inl (hvalid.trans hv), fun hz => .inl (hzero.trans hz),
      fun ⟨hoff, hon⟩ => absurd (hvalid.symm.trans hon) (by simp [hoff]),
      fun ⟨hoff, hon⟩ => absurd (hzero.symm.trans hon) (by simp [hoff])⟩
  · exact ⟨.inr ⟨b, rest, hs, hvalid, hzero⟩, fun _ => .inl hvalid, fun _ => .inl hzero,
      fun _ => ⟨b, rest, hs⟩, fun _ => ⟨b, rest, hs⟩⟩
  · obtain ⟨haddr, hvalid, hzero⟩ : t.curAddr = s.curAddr ∧ t.curAddrValid = false ∧ t.zeroDone = false := by
      simpa [State.addressRegs] using hcleared
    have closed : ∃ w bytes rest, s.schedule = .hostop w bytes :: rest ∧ decodeHostOp w = some .opClose :=
      ⟨w, bytes, rest, hs, hd⟩
    exact ⟨.inl haddr, fun _ => .inr closed, fun _ => .inr closed,
      fun ⟨_, hon⟩ => absurd hon (by simp [hvalid]), fun ⟨_, hon⟩ => absurd hon (by simp [hzero])⟩

/-- Settles O58: the sequencer's events and the host's words keep the results; a received byte writes them only while
armed with the latch clear. -/
theorem resultsWrittenOnlyWhileArmed : Obligations.ResultsWrittenOnlyWhileArmed := by
  intro s t h
  rw [← resultRegs_eq_iff]
  rcases step_writes h with ⟨_, _, _, hres⟩ | ⟨b, rest, hs, _, _, _, hres⟩ | ⟨_, _, _, _, hw⟩
  · exact .inl hres
  · exact hres.imp_right fun ⟨harmed, hclear⟩ => ⟨harmed, hclear, b, rest, hs⟩
  · exact .inl hw.results

/-- Settles O11: each clause is the faulting case of its handler, the others excluded by the index or count. -/
theorem outOfRangeFaults : Obligations.OutOfRangeFaults := by
  refine ⟨?address, ?status, ?byteCount, ?data, ?frame⟩
  case address =>
    intro s b hcnt
    rcases readAddress_cases b s with ⟨_, _, hlt, _⟩ | ⟨_, he⟩
    · omega
    · exact he
  case status =>
    intro s b hcnt
    rcases readStatus_cases b s with ⟨h0, _⟩ | ⟨h1, _⟩ | ⟨_, he⟩
    · simp [h0] at hcnt
    · simp [h1] at hcnt
    · exact he
  case byteCount =>
    intro s b hbc
    refine ⟨?_, completeFrame_of_byteCount_lt hbc, if_pos hbc, ?_⟩
    · rcases readData_cases b s with ⟨htwo, _, _⟩ | ⟨_, he⟩ | ⟨htwo, _, _⟩
      · omega
      · exact he
      · omega
    · exact (if_pos rfl).trans (completeFrame_of_byteCount_lt (s := { s with pState := .complete }) hbc)
  case data =>
    intro s b hbc hcnt
    rcases readData_cases b s with ⟨_, hlt, _⟩ | ⟨hlt, _⟩ | ⟨_, _, he⟩
    · omega
    · omega
    · exact he
  case frame =>
    intro s hlen
    refine ⟨beginWrite_of_tooLong hlen, ?_, fun hms => ?_⟩
    · rcases txFrame_cases s with ⟨hle, _⟩ | ⟨_, hf⟩
      · omega
      · change txWrite s = _
        simp only [txWrite, hf]
    · rcases tickInGuard_cases s with ⟨hlt, _⟩ | ⟨_, he⟩
      · rw [sat16Succ_toNat] at hlt
        exact absurd hms (Nat.not_le.mpr hlt)
      · exact he.trans (beginWrite_of_tooLong (s := { s with sElapsed := sat16Succ s.sElapsed }) hlen)

end Sys2Proof.Proofs

/-! The frame of an exchange: its layout in `TXBUF` (spec/20_memory.md R61), and the events that keep it
(spec/20_memory.md R75). -/

namespace Sys2Proof.Machine

/-! ## The parts of a request frame -/

/-- `ENCODE` accepts as many data bytes as the count can say (spec/40_codec.md R115). -/
theorem exec_encode_of_fits {c : Command} (h : c.data.length ≤ 255) (s : State) :
    exec (.encode c) s = .next (encodeInto c s) :=
  if_pos h

theorem requestFrame_getElem?_preamble {c : Command} {k : Nat} (hk : k < c.preambleLength.toNat) :
    (requestFrame c)[k]? = some Config.fill := by
  rw [requestFrame, List.append_assoc, List.getElem?_append_left (by simpa using hk)]
  simp [hk]

theorem requestFrame_getElem?_body {c : Command} {k : Nat} (hk : k < (requestBody c).length) :
    (requestFrame c)[c.preambleLength.toNat + k]? = (requestBody c)[k]? := by
  rw [requestFrame, List.getElem?_append_left (by simpa using hk), List.getElem?_append_right (by simp)]
  simp

theorem requestFrame_getElem?_checksum (c : Command) :
    (requestFrame c)[c.preambleLength.toNat + (requestBody c).length]? = some (xor8 (requestBody c)) := by
  rw [requestFrame, List.getElem?_append_right (by simp)]
  simp

theorem requestBody_getElem?_delimiter (c : Command) : (requestBody c)[0]? = some (reqDelimiter c.address) := rfl

theorem requestBody_getElem?_address {c : Command} {k : Nat} (hk : k < (addrField c.address).length) :
    (requestBody c)[1 + k]? = (addrField c.address)[k]? := by
  rw [requestBody, Nat.add_comm, List.getElem?_cons_succ, List.getElem?_append_left hk]

/-- Command number, count and data follow the address field. -/
theorem requestBody_getElem?_tail (c : Command) (k : Nat) :
    (requestBody c)[1 + (addrField c.address).length + k]? =
      (c.commandNumber :: BitVec.ofNat 8 c.data.length :: c.data)[k]? := by
  rw [requestBody, Nat.add_assoc, Nat.add_comm, List.getElem?_cons_succ, List.getElem?_append_right (by omega),
    Nat.add_sub_cancel_left]

/-! ## What `TXBUF` reads after `ENCODE` -/

section
variable {s : State} {c : Command}

/-- Within the frame `TXBUF` reads the frame. -/
theorem read_encodeInto_of_getElem? (h : Memory.wf s.txBuf = true) {k : Nat} {b : Byte}
    (hb : (requestFrame c)[k]? = some b) : Memory.read (encodeInto c s).txBuf k = b := by
  obtain ⟨hk, _⟩ := List.getElem?_eq_some_iff.mp hb
  rw [encodeInto_stored c h k, if_pos (by omega), Nat.sub_zero, List.getD_eq_getElem?_getD, hb, Option.getD_some]

theorem read_encodeInto_body (h : Memory.wf s.txBuf = true) {k : Nat} {b : Byte}
    (hb : (requestBody c)[k]? = some b) :
    Memory.read (encodeInto c s).txBuf (c.preambleLength.toNat + k) = b := by
  obtain ⟨hk, _⟩ := List.getElem?_eq_some_iff.mp hb
  exact read_encodeInto_of_getElem? h ((requestFrame_getElem?_body hk).trans hb)

theorem read_encodeInto_address (h : Memory.wf s.txBuf = true) {k : Nat} {b : Byte}
    (hb : (addrField c.address)[k]? = some b) :
    Memory.read (encodeInto c s).txBuf (c.preambleLength.toNat + (1 + k)) = b := by
  obtain ⟨hk, _⟩ := List.getElem?_eq_some_iff.mp hb
  exact read_encodeInto_body h ((requestBody_getElem?_address hk).trans hb)

theorem read_encodeInto_tail (h : Memory.wf s.txBuf = true) {k : Nat} {b : Byte}
    (hb : (c.commandNumber :: BitVec.ofNat 8 c.data.length :: c.data)[k]? = some b) :
    Memory.read (encodeInto c s).txBuf (c.preambleLength.toNat + (1 + (addrField c.address).length + k)) = b :=
  read_encodeInto_body h ((requestBody_getElem?_tail c k).trans hb)

/-- From the delimiter through the last data byte `TXBUF` holds what the checksum is taken of. -/
theorem readBytes_encodeInto_body (h : Memory.wf s.txBuf = true) :
    Memory.readBytes (encodeInto c s).txBuf c.preambleLength.toNat (requestBody c).length = requestBody c := by
  apply List.ext_getElem (by simp)
  intro k _ hk
  rw [Memory.getElem_readBytes]
  exact read_encodeInto_body h (List.getElem?_eq_getElem hk)

end

/-! ## What keeps the frame of an exchange -/

/-- Within one exchange, a requested command's or the automatic zero command's as long as it lasts, the frame to send
is the same before and after. -/
def KeepsFrame (s t : State) : Prop :=
  s.sPhase = false ∨ t.sPhase = true → t.txBuf = s.txBuf ∧ t.txLen = s.txLen

theorem KeepsFrame.refl (s : State) : KeepsFrame s s := fun _ => ⟨rfl, rfl⟩

theorem EndOfAttempt.keepsFrame {s t : State} (h : EndOfAttempt s t) : KeepsFrame s t := by
  obtain ⟨_, _, hframe⟩ := h
  exact hframe

theorem tickInSettle_keepsFrame (s : State) : KeepsFrame s (tickInSettle s) := by
  rcases tickInSettle_cases s with ⟨_, he⟩ | ⟨_, he⟩ <;> rw [he] <;> exact .refl s

theorem tickInGuard_keepsFrame {s t : State} (h : tickInGuard s = .next t) : KeepsFrame s t := by
  rcases tickInGuard_cases s with ⟨_, he⟩ | ⟨_, he⟩ <;> rw [he] at h
  · cases h
    exact .refl s
  · rcases beginWrite_cases { s with sElapsed := sat16Succ s.sElapsed } with ⟨_, hw⟩ | ⟨_, hw⟩ <;>
      rw [hw] at h <;> cases h
    exact .refl s

theorem tickInHold_keepsFrame (s : State) : KeepsFrame s (tickInHold s) := by
  rcases tickInHold_cases s with ⟨_, he⟩ | ⟨_, he⟩ <;> rw [he]
  · exact .refl s
  · exact (enterWait_frame { s with sTxElapsed := sat16Succ s.sTxElapsed, txEn := false }).keepsFrame

theorem tickInWait_keepsFrame (s : State) : KeepsFrame s (tickInWait s) := by
  rcases tickInWait_cases s with ⟨_, he⟩ | ⟨_, he⟩ <;> rw [he]
  · exact .refl s
  · exact (timeoutWait_frame { s with sElapsed := sat16Succ s.sElapsed }).keepsFrame

theorem tick_keepsFrame {s t : State} (h : exec .tick s = .next t) : KeepsFrame s t := by
  rcases exec_tick_cases s with ⟨_, he⟩ | ⟨_, he⟩ | ⟨_, he⟩ | ⟨_, he⟩ | ⟨_, he⟩ | ⟨_, he⟩ <;> rw [he] at h
  case inl => cases h; exact .refl _
  · cases h; exact tickInSettle_keepsFrame s
  · exact tickInGuard_keepsFrame h
  · cases h; exact .refl s
  · cases h; exact tickInHold_keepsFrame s
  · cases h; exact tickInWait_keepsFrame s

theorem txdone_keepsFrame {s t : State} (h : exec .txdone s = .next t) : KeepsFrame s t := by
  change execTxdone s = .next t at h
  rcases execTxdone_cases s with ⟨_, _, he⟩ | ⟨_, _, he⟩ | ⟨_, he⟩ <;> rw [he] at h <;> cases h
  · exact .refl s
  · exact (enterWait_frame { s with txEn := false }).keepsFrame

theorem xfault_keepsFrame {s t : State} (h : exec .xfault s = .next t) : KeepsFrame s t := by
  rcases execXfault_cases s with ⟨_, he⟩ | ⟨_, he⟩ <;> rw [he] at h <;> cases h
  · exact .refl _
  · exact (retryOr_frame .none { s with txEn := false, handlerArmed := false }).keepsFrame

/-! ### A received byte -/

/-- `t` is `s` but for the parser registers `P_*` (spec/10_state.md R36 to R42). -/
def SameButParser (s t : State) : Prop :=
  t = { s with
    pState := t.pState
    pDelim := t.pDelim
    pLong := t.pLong
    pAddr := t.pAddr
    pCmd := t.pCmd
    pBc := t.pBc
    pStatus := t.pStatus
    pData := t.pData
    pCnt := t.pCnt
    pXor := t.pXor }

/-- A byte writes parser registers only, unless it completes a frame. -/
theorem parseByte_sameButParser_or_completes {s t : State} {b : Byte} (h : parseByte b s = .next t) :
    SameButParser s t ∨ ∃ u, SameButParser s u ∧ completeFrame u = .next t := by
  rcases parseByte_cases b s with ⟨_, he⟩ | ⟨_, he⟩ | ⟨_, he⟩ | ⟨_, he⟩ | ⟨_, he⟩ | ⟨_, he⟩ | ⟨_, he⟩ | ⟨_, he⟩ |
    ⟨_, he⟩ <;> rw [he] at h
  case inl =>
    cases h
    rcases seekPreamble_cases b s with ⟨_, he⟩ | ⟨_, he⟩ <;> rw [he] <;> exact .inl rfl
  · cases h; exact .inl rfl
  · rcases readAddress_cases b s with ⟨_, _, _, he⟩ | ⟨_, he⟩ <;> rw [he] at h <;> cases h
    exact .inl rfl
  · cases h; exact .inl rfl
  · cases h
    rcases readByteCount_cases b s with ⟨_, he⟩ | ⟨_, he⟩ <;> rw [he] <;> exact .inl rfl
  · rcases readStatus_cases b s with ⟨_, he⟩ | ⟨_, he⟩ | ⟨_, he⟩ <;> rw [he] at h <;> cases h <;> exact .inl rfl
  · rcases readData_cases b s with ⟨_, _, he⟩ | ⟨_, he⟩ | ⟨_, _, he⟩ <;> rw [he] at h <;> cases h
    exact .inl rfl
  · rcases readChecksum_cases b s with ⟨_, he⟩ | ⟨_, he⟩ <;> rw [he] at h
    · exact .inr ⟨{ s with pState := .complete }, rfl, h⟩
    · cases h; exact .inl rfl
  · exact .inr ⟨s, rfl, h⟩

/-- The phase of the exchange and its frame. -/
def State.frameRegs (s : State) : Bool × Memory × BitVec 10 := (s.sPhase, s.txBuf, s.txLen)

theorem frameRegs_eq_iff {s t : State} : t.frameRegs = s.frameRegs ↔
    t.sPhase = s.sPhase ∧ t.txBuf = s.txBuf ∧ t.txLen = s.txLen := by
  simp [State.frameRegs]

theorem SameButParser.frameRegs {s t : State} (h : SameButParser s t) : t.frameRegs = s.frameRegs := by
  rw [show t = _ from h]
  rfl

theorem KeepsFrame.of_frameRegs {s t : State} (h : t.frameRegs = s.frameRegs) : KeepsFrame s t :=
  fun _ => (frameRegs_eq_iff.mp h).2

/-- What kept phase and frame before may come first. -/
theorem KeepsFrame.after_frameRegs {s u t : State} (h : u.frameRegs = s.frameRegs) (hk : KeepsFrame u t) :
    KeepsFrame s t := by
  obtain ⟨hphase, hbuf, hlen⟩ := frameRegs_eq_iff.mp h
  unfold KeepsFrame at hk ⊢
  rwa [← hphase, ← hbuf, ← hlen]

@[simp] theorem learnFrom_frameRegs (f : CommandResult) (s : State) : (learnFrom f s).frameRegs = s.frameRegs := by
  rcases learnFrom_cases f s with ⟨_, he⟩ | ⟨_, he⟩ <;> simp [he, State.frameRegs]

@[simp] theorem latch_frameRegs (f : CommandResult) (s : State) : (latch f s).frameRegs = s.frameRegs := by
  rcases latch_cases f s with ⟨_, _, he⟩ | ⟨_, he⟩ <;> simp [he, State.frameRegs]

/-- `NOTIFY` keeps the frame while it learns and latches; in `WAIT` it then ends the attempt. -/
theorem notifyFrame_keepsFrame (f : CommandResult) (s : State) : KeepsFrame s (notifyFrame f s) := by
  obtain ⟨u, hu, hw⟩ := notifyFrame_cases f s
  have hlatched : (latch f u).frameRegs = s.frameRegs := by
    rcases hu with ⟨_, rfl⟩ | ⟨_, rfl⟩ <;> simp
  rcases hw with ⟨_, _, he⟩ | ⟨_, he⟩ <;> rw [he]
  · exact .after_frameRegs hlatched (resolveWait_frame _).keepsFrame
  · exact .of_frameRegs hlatched

theorem completeFrame_keepsFrame {s t : State} (h : completeFrame s = .next t) : KeepsFrame s t := by
  rcases completeFrame_cases s with ⟨_, he⟩ | ⟨_, he⟩ <;> rw [he] at h <;> cases h
  exact notifyFrame_keepsFrame _ s

theorem parseByte_keepsFrame {s t : State} {b : Byte} (h : parseByte b s = .next t) : KeepsFrame s t := by
  rcases parseByte_sameButParser_or_completes h with hsame | ⟨u, hsame, hdone⟩
  · exact .of_frameRegs hsame.frameRegs
  · exact .after_frameRegs hsame.frameRegs (completeFrame_keepsFrame hdone)

theorem rxbyte_keepsFrame {s t : State} {b : Byte} (h : exec (.rxbyte b) s = .next t) : KeepsFrame s t := by
  change receiveByte b s = .next t at h
  rcases receiveByte_cases b s with ⟨_, he⟩ | ⟨_, he⟩ <;> rw [he] at h
  · have hk : KeepsFrame { s with outs := .evRxdump [b] :: s.outs } t := parseByte_keepsFrame h
    exact hk
  · cases h
    exact .refl s

end Sys2Proof.Machine

namespace Sys2Proof.Proofs

open Sys2Proof Sys2Proof.Machine

/-- Settles O57: each event but a host operation keeps the frame unless it ends the automatic zero exchange; taking it
off the schedule changes neither phase nor frame. -/
theorem retrySendsTheSameBytes : Obligations.RetrySendsTheSameBytes := by
  intro s t h hphase hhost
  suffices hk : KeepsFrame s t from hk hphase
  have dequeued {rest} (hk : KeepsFrame { s with schedule := rest } t) : KeepsFrame s t := hk
  rcases step_cases s with ⟨_, he⟩ | ⟨b, rest, _, he⟩ | ⟨rest, _, he⟩ | ⟨rest, _, he⟩ | ⟨rest, _, he⟩ |
    ⟨_, rest, _, he⟩ | ⟨w, bytes, rest, hs, _⟩
  case inr.inr.inr.inr.inr.inr => exact absurd hs (hhost w bytes rest)
  all_goals rw [he] at h
  · exact tick_keepsFrame h
  · exact dequeued (rxbyte_keepsFrame h)
  · exact dequeued (tick_keepsFrame h)
  · exact dequeued (txdone_keepsFrame h)
  · exact dequeued (xfault_keepsFrame h)
  · cases h
    exact .refl s

/-- Settles O19: `TXBUF` reads as the request frame, whose parts stand at these offsets; the address field takes as
many bytes as the layout says. -/
theorem requestFrameLayout : Obligations.RequestFrameLayout := by
  intro s c hwf hfits
  refine ⟨encodeInto c s, exec_encode_of_fits hfits s, ?_⟩
  intro p a n
  have ha : (addrField c.address).length = a := addrField_length c.address
  have hbody : (requestBody c).length = 3 + a + n := requestBody_length c
  have tail {j : Nat} (k : Nat) {b : Byte} (hj : p + (1 + a + k) = j)
      (hb : (c.commandNumber :: BitVec.ofNat 8 n :: c.data)[k]? = some b) :
      Memory.read (encodeInto c s).txBuf j = b :=
    hj ▸ ha ▸ read_encodeInto_tail hwf hb
  refine ⟨?preamble, ?delimiter, ?address, ?command, ?count, ?data, ?checksum, ?length⟩
  case preamble => exact fun k hk => read_encodeInto_of_getElem? hwf (requestFrame_getElem?_preamble hk)
  case delimiter =>
    refine read_encodeInto_body hwf ((requestBody_getElem?_delimiter c).trans ?_)
    cases c.address <;> rfl
  case address =>
    intro x hx
    have field (k : Nat) {b : Byte} (hb : x.toList[k]? = some b) :
        Memory.read (encodeInto c s).txBuf (p + (1 + k)) = b :=
      read_encodeInto_address hwf (by rwa [hx])
    exact ⟨field 0 rfl, field 1 rfl, field 2 rfl, field 3 rfl, field 4 rfl⟩
  case command => exact tail 0 (by omega) rfl
  case count =>
    have hcount : Memory.read (encodeInto c s).txBuf (p + 2 + a) = BitVec.ofNat 8 n :=
      tail 1 (by omega) rfl
    rw [hcount, BitVec.toNat_ofNat]
    exact Nat.mod_eq_of_lt (Nat.lt_succ_of_le hfits)
  case data =>
    intro k hk
    have hdata : c.data[k]? = some c.data[k] := List.getElem?_eq_getElem hk
    rw [hdata, tail (k + 2) (by omega) hdata]
  case checksum =>
    rw [← hbody, readBytes_encodeInto_body hwf]
    refine read_encodeInto_of_getElem? hwf ((congrArg _ ?_).trans (requestFrame_getElem?_checksum c))
    omega
  case length =>
    rw [encodeInto_txLen_toNat hfits, requestFrame_length]
    change p + 4 + a + n = p + a + n + 4
    omega

end Sys2Proof.Proofs

/-! Decoding undoes encoding, format by format (spec/30_encoding.md R80 to R98). -/

namespace Sys2Proof

open Machine

/-! ## Host words -/

/-- A word of one row is no word of a row that does not overlap it. -/
theorem rowMatches_eq_false {a b : HostRow} {w : HostWord} (hb : rowMatches b w = true)
    (h : rowsOverlap a b = false) : rowMatches a w = false := by
  by_contra ha
  have ha : w &&& a.mask = a.pattern := by simpa [rowMatches] using ha
  have hb : w &&& b.mask = b.pattern := by simpa [rowMatches] using hb
  have hab : rowsOverlap a b = true := by
    rw [rowsOverlap, ← ha, ← hb, beq_iff_eq, BitVec.and_assoc, BitVec.and_assoc, BitVec.and_comm a.mask]
  rw [h] at hab
  cases hab

/-- The row of spec/30_encoding.md R97 that an operation's word belongs to. -/
def HostOp.row : HostOp → HostRow
  | .opOpen => rowOpen
  | .opClose => rowClose
  | .opSend _ _ => rowSend
  | .opSendz => rowSendz
  | .cfgPreamble _ => rowCfgPreamble
  | .cfgMaxRetries _ => rowCfgMaxRetries
  | .cfgTimeout _ => rowCfgTimeout
  | .cfgAutoZero _ => rowCfgAutoZero

/-- The same operation with the operands that stand in the fields of `w`. -/
def HostOp.withFields (w : HostWord) : HostOp → HostOp
  | .opOpen => .opOpen
  | .opClose => .opClose
  | .opSend _ _ => .opSend (w.extractLsb' 8 8) (w.extractLsb' 16 8)
  | .opSendz => .opSendz
  | .cfgPreamble _ => .cfgPreamble (w.extractLsb' 16 8)
  | .cfgMaxRetries _ => .cfgMaxRetries (w.extractLsb' 16 8)
  | .cfgTimeout _ => .cfgTimeout (w.extractLsb' 16 16)
  | .cfgAutoZero _ => .cfgAutoZero (w.getLsbD 16)

/-- A word is read as an operation exactly when it matches the operation's row and holds its operands: no other
row takes the word first. -/
theorem decodeHostOp_eq_some_iff {w : HostWord} {op : HostOp} :
    decodeHostOp w = some op ↔ rowMatches op.row w = true ∧ op.withFields w = op := by
  constructor
  case mp =>
    intro h
    rw [decodeHostOp] at h
    split_ifs at h with hm hm hm hm hm hm hm hm <;> cases h <;> exact ⟨hm, rfl⟩
  case mpr =>
    rintro ⟨hm, hf⟩
    rw [← hf]
    cases op <;> rw [HostOp.row] at hm <;>
      simp (disch := decide) [decodeHostOp, HostOp.withFields, hm, rowMatches_eq_false hm]

/-- Whatever the operands, a word that the encoder writes matches its operation's row. -/
theorem rowMatches_encodeHostOp (op : HostOp) : rowMatches op.row (encodeHostOp op) = true := by
  rw [rowMatches, beq_iff_eq]
  cases op with
  | opOpen => exact Laws.EncodedFormat.hostOpen.2.2
  | opClose => exact Laws.EncodedFormat.hostClose.2.2
  | opSend cmd len => exact (Laws.EncodedFormat.hostSend cmd len []).2.2
  | opSendz => exact Laws.EncodedFormat.hostSendz.2.2
  | cfgPreamble v => exact (Laws.EncodedFormat.cfgwrPreamble v).2.2
  | cfgMaxRetries v => exact (Laws.EncodedFormat.cfgwrMaxRetries v).2.2
  | cfgTimeout v => exact (Laws.EncodedFormat.cfgwrTimeout v).2.2
  | cfgAutoZero v => exact (Laws.EncodedFormat.cfgwrAutoZero v).2.2

/-- A field between higher and lower bits is read back. -/
theorem extractLsb'_field {a n p : Nat} (hi : BitVec a) (v : BitVec n) (lo : BitVec p) :
    (hi ++ v ++ lo).extractLsb' p n = v := by
  rw [BitVec.extractLsb'_append_eq_of_le le_rfl, Nat.sub_self, BitVec.extractLsb'_append_eq_right]

theorem withFields_encodeHostOp (op : HostOp) : op.withFields (encodeHostOp op) = op := by
  cases op with
  | opOpen => rfl
  | opClose => rfl
  | opSendz => rfl
  | opSend cmd len =>
    have hcmd : (encodeHostOp (.opSend cmd len)).extractLsb' 8 8 = cmd := extractLsb'_field _ cmd _
    have hlen : (encodeHostOp (.opSend cmd len)).extractLsb' 16 8 = len :=
      (BitVec.extractLsb'_append_eq_of_le (by decide)).trans (extractLsb'_field _ len _)
    rw [HostOp.withFields, hcmd, hlen]
  | cfgPreamble v => exact congrArg HostOp.cfgPreamble (extractLsb'_field _ v _)
  | cfgMaxRetries v => exact congrArg HostOp.cfgMaxRetries (extractLsb'_field _ v _)
  | cfgTimeout v => exact congrArg HostOp.cfgTimeout BitVec.extractLsb'_append_eq_left
  | cfgAutoZero v => cases v <;> rfl

theorem decodeHostOp_encodeHostOp (op : HostOp) : decodeHostOp (encodeHostOp op) = some op :=
  decodeHostOp_eq_some_iff.mpr ⟨rowMatches_encodeHostOp op, withFields_encodeHostOp op⟩

theorem getLsbD_eq_of_field {w v : HostWord} {a n k : Nat} (h : w.extractLsb' a n = v.extractLsb' a n) (ha : a ≤ k)
    (hk : k < a + n) : w.getLsbD k = v.getLsbD k := by
  have hbit := congrArg (·.getLsbD (k - a)) h
  simpa [BitVec.getLsbD_extractLsb', show k - a < n by omega, Nat.add_sub_cancel' ha] using hbit

/-- Two words of one operation's row with the same operands are the same word: each bit is fixed by the row's mask or
stands in a field. -/
theorem eq_of_row_of_fields {w v : HostWord} {op : HostOp} (hw : rowMatches op.row w = true)
    (hv : rowMatches op.row v = true) (hf : op.withFields w = op.withFields v) : w = v := by
  rw [rowMatches, beq_iff_eq] at hw hv
  apply BitVec.eq_of_getLsbD_eq
  intro k hk
  cases hm : op.row.mask.getLsbD k with
  | true =>
    have hbit : (w &&& op.row.mask).getLsbD k = (v &&& op.row.mask).getLsbD k := by rw [hw, hv]
    simpa [hm] using hbit
  | false =>
    cases op with
    | opOpen =>
      have full : ∀ k < 32, rowOpen.mask.getLsbD k ≠ false := by decide
      exact absurd hm (full k hk)
    | opClose =>
      have full : ∀ k < 32, rowClose.mask.getLsbD k ≠ false := by decide
      exact absurd hm (full k hk)
    | opSendz =>
      have full : ∀ k < 32, rowSendz.mask.getLsbD k ≠ false := by decide
      exact absurd hm (full k hk)
    | opSend cmd len =>
      obtain ⟨hcmd, hlen⟩ := HostOp.opSend.inj hf
      have free : ∀ k < 32, rowSend.mask.getLsbD k = false → 8 ≤ k ∧ k < 24 := by decide
      obtain ⟨hlo, hhi⟩ := free k hk hm
      by_cases h16 : k < 16
      · exact getLsbD_eq_of_field hcmd hlo h16
      · exact getLsbD_eq_of_field hlen (by omega) hhi
    | cfgPreamble v =>
      have free : ∀ k < 32, rowCfgPreamble.mask.getLsbD k = false → 16 ≤ k ∧ k < 24 := by decide
      obtain ⟨hlo, hhi⟩ := free k hk hm
      exact getLsbD_eq_of_field (HostOp.cfgPreamble.inj hf) hlo hhi
    | cfgMaxRetries v =>
      have free : ∀ k < 32, rowCfgMaxRetries.mask.getLsbD k = false → 16 ≤ k ∧ k < 24 := by decide
      obtain ⟨hlo, hhi⟩ := free k hk hm
      exact getLsbD_eq_of_field (HostOp.cfgMaxRetries.inj hf) hlo hhi
    | cfgTimeout v =>
      have free : ∀ k < 32, rowCfgTimeout.mask.getLsbD k = false → 16 ≤ k := by decide
      exact getLsbD_eq_of_field (HostOp.cfgTimeout.inj hf) (free k hk hm) hk
    | cfgAutoZero v =>
      have free : ∀ k < 32, rowCfgAutoZero.mask.getLsbD k = false → k = 16 := by decide
      rw [free k hk hm]
      exact HostOp.cfgAutoZero.inj hf

/-- No bit of a matching word is ignored. -/
theorem encodeHostOp_withFields {w : HostWord} {op : HostOp} (h : rowMatches op.row w = true) :
    encodeHostOp (op.withFields w) = w := by
  have hrow : (op.withFields w).row = op.row := by cases op <;> rfl
  have hfields : op.withFields (encodeHostOp (op.withFields w)) = op.withFields w := by
    have hread := withFields_encodeHostOp (op.withFields w)
    cases op <;> exact hread
  exact eq_of_row_of_fields (hrow ▸ rowMatches_encodeHostOp (op.withFields w)) h hfields

/-- A `SEND` with as many operand bytes as its word says, read back. -/
theorem decodeHostWord_send {cmd len : Byte} {data : List Byte} (h : data.length = len.toNat) :
    decodeHostWord (encodeHostOp (.opSend cmd len)) data = .ok (.hostSend cmd len data) := by
  simp only [decodeHostWord, decodeHostOp_encodeHostOp, h, if_true]

theorem decodeHostWord_of_no_row {w : HostWord} (h : decodeHostOp w = none) (bytes : List Byte) :
    decodeHostWord w bytes = .error .badop := by
  simp only [decodeHostWord, h]

/-! ## Bytes and codes -/

theorem byteOf_long_ne_fill {t : BitVec 7} (h : t ≠ 0x7F) : byteOf true t ≠ Config.fill :=
  (byteOf_long_eq_fill t).not.mpr h

theorem decodeDelim_byteOf_true {t : BitVec 7} (h : longDelimiterBits t = true) :
    decodeDelim (byteOf true t) = .delimLong t := by
  rw [decodeDelim, if_neg (byteOf_long_ne_fill (bne_iff_ne.mp h)), if_pos (byteOf_long t), lowBits_byteOf]

theorem decodeDelim_byteOf_false (t : BitVec 7) : decodeDelim (byteOf false t) = .delimShort t := by
  rw [decodeDelim, if_neg (byteOf_short_ne_fill t), byteOf_short, if_neg Bool.false_ne_true, lowBits_byteOf]

theorem decodeStatus1_byteOf_true (x : BitVec 7) : decodeStatus1 (byteOf true x) = .status1Comm x := by
  have hbit : (byteOf true x).getLsbD 7 = true := byteOf_long x
  rw [decodeStatus1, if_pos hbit, lowBits_byteOf]

theorem decodeStatus1_byteOf_false (x : BitVec 7) :
    decodeStatus1 (byteOf false x) = .status1CmdSpecific x := by
  have hbit : (byteOf false x).getLsbD 7 = false := byteOf_short x
  rw [decodeStatus1, hbit, if_neg Bool.false_ne_true, lowBits_byteOf]

/-- The code of a parser state selects that state's handler; 0xFF is no delimiter to read. -/
theorem decodePState_code {p : PState} {b : Byte} (h : (parserRow p b).wellFormed = true) :
    decodePState p.code b = .ok (parserRow p b) := by
  cases p with
  | readDelimiter => exact if_neg (bne_iff_ne.mp h)
  | _ => rfl

theorem decodeSState_code (q : SState) : decodeSState q.code = .ok (sequencerRow q) := by
  cases q <;> rfl

/-! ## Frames -/

/-- The preamble ends at the first byte that is not 0xFF. -/
theorem splitPreamble_replicate (n : Nat) {d : Byte} (rest : List Byte) (h : d ≠ Config.fill) :
    splitPreamble (List.replicate n Config.fill ++ d :: rest) = (n, d :: rest) := by
  induction n with
  | zero => exact if_neg h
  | succ n ih => rw [List.replicate_succ, List.cons_append, splitPreamble, if_pos rfl, ih]

theorem takeAddr_append (a : Addr5) (rest : List Byte) : takeAddr (a.toList ++ rest) = some (a, rest) := rfl

/-- The bytes of a request behind the address field. -/
def requestTail (c : Command) : List Byte :=
  c.commandNumber :: BitVec.ofNat 8 c.data.length :: (c.data ++ [xor8 (requestBody c)])

/-- The four bytes of a response between the address field and the data. -/
def responseHeader (f : CommandResult) : List Byte :=
  [f.commandNumber, BitVec.ofNat 8 (f.data.length + 2), f.responseCode.s0, f.responseCode.s1]

/-- The bytes of a response behind the address field. -/
def responseTail (d : Byte) (f : CommandResult) : List Byte :=
  responseHeader f ++ (f.data ++ [xor8 (responseBody d f)])

theorem requestFrame_eq (c : Command) :
    requestFrame c = List.replicate c.preambleLength.toNat Config.fill ++
      reqDelimiter c.address :: (addrField c.address ++ requestTail c) := by
  simp [requestFrame, requestBody, requestTail]

theorem responseBody_eq (d : Byte) (f : CommandResult) :
    responseBody d f = (d :: addrField f.address) ++ (responseHeader f ++ f.data) := by
  simp [responseBody, responseHeader]

theorem responseFrame_eq (pre : Nat) (d : Byte) (f : CommandResult) :
    responseFrame pre d f =
      List.replicate pre Config.fill ++ d :: (addrField f.address ++ responseTail d f) := by
  simp [responseFrame, responseBody, responseTail, responseHeader]

theorem toNat_ofNat_byte {n : Nat} (h : n ≤ 255) : (BitVec.ofNat 8 n).toNat = n := by
  rw [BitVec.toNat_ofNat, Nat.mod_eq_of_lt (by omega)]

/-- The byte count of a response counts its two status bytes and its data (spec/30_encoding.md R87). -/
theorem responseCount_toNat {f : CommandResult} (h : f.data.length ≤ 253) :
    (BitVec.ofNat 8 (f.data.length + 2)).toNat = f.data.length + 2 :=
  toNat_ofNat_byte (by omega)

theorem decodeRequestTail_requestTail {c : Command} (hs : c.status = []) (hl : c.data.length ≤ 255) :
    decodeRequestTail c.preambleLength c.address (requestTail c) = .ok c := by
  have hcount := toNat_ofNat_byte hl
  obtain ⟨pre, addr, cmd, st, data⟩ := c
  cases hs
  simp only [decodeRequestTail, requestTail, hcount, List.drop_left, List.take_left, if_true]

theorem decodeResponseTail_responseTail {d : Byte} {f : CommandResult} (hl : f.data.length ≤ 253) :
    decodeResponseTail d f.address (responseTail d f) = .ok f := by
  have hcount := responseCount_toNat hl
  have hmin : ¬ f.data.length + 2 < 2 := by omega
  simp only [decodeResponseTail, responseTail, responseHeader, List.cons_append, List.nil_append, hcount, if_neg hmin,
    Nat.add_sub_cancel, List.drop_left, List.take_left, if_true]

theorem reqDelimiter_ne_fill (a : Option Addr5) : reqDelimiter a ≠ Config.fill := by
  cases a
  · exact (by decide : Config.delimReqShort ≠ Config.fill)
  · exact (by decide : Config.delimReqLong ≠ Config.fill)

/-- The row of the opcode table that a Command's frame belongs to. -/
def Command.row (c : Command) : Instr :=
  match c.address with
  | some a => .reqLong c.preambleLength a c.commandNumber c.data
  | none => .reqShort c.preambleLength c.commandNumber c.data

/-- The row of the opcode table that a result's frame with delimiter `d` after `pre` preamble bytes belongs to. -/
def CommandResult.row (pre : Nat) (d : Byte) (f : CommandResult) : Instr :=
  match f.address with
  | some a => .rspLong pre (lowBits d) a f.commandNumber f.responseCode f.data
  | none => .rspShort pre (lowBits d) f.commandNumber f.responseCode f.data

/-- A request frame is read back, with an address and without. -/
theorem decodeRequest_requestFrame {c : Command} (hs : c.status = []) (hl : c.data.length ≤ 255) :
    decodeRequest (requestFrame c) = .ok c.row := by
  have hpre : ¬ 255 < c.preambleLength.toNat := by have := c.preambleLength.isLt; omega
  have htail := decodeRequestTail_requestTail hs hl
  rw [decodeRequest, requestFrame_eq, splitPreamble_replicate _ _ (reqDelimiter_ne_fill _), if_neg hpre,
    BitVec.ofNat_toNat, BitVec.setWidth_eq]
  cases ha : c.address with
  | none =>
    have hshort : Config.delimReqShort ≠ Config.delimReqLong := by decide
    rw [ha] at htail
    simp [reqDelimiter, addrField, hshort, htail, Command.row, ha]
  | some a =>
    rw [ha] at htail
    simp [reqDelimiter, addrField, takeAddr_append, htail, Command.row, ha]

/-- A response frame is read back in the form that its delimiter says. -/
theorem decodeResponse_responseFrame (pre : Nat) {d : Byte} {f : CommandResult} (hd : d ≠ Config.fill)
    (hlong : Config.isLong d = f.address.isSome) (hl : f.data.length ≤ 253) :
    decodeResponse (responseFrame pre d f) = .ok (f.row pre d) := by
  have htail := decodeResponseTail_responseTail (d := d) hl
  rw [decodeResponse, responseFrame_eq, splitPreamble_replicate _ _ hd]
  cases ha : f.address with
  | none =>
    rw [ha] at htail hlong
    simp [addrField, hlong, htail, CommandResult.row, ha]
  | some a =>
    rw [ha] at htail hlong
    simp [addrField, hlong, takeAddr_append, htail, CommandResult.row, ha]

end Sys2Proof

namespace Sys2Proof.Proofs

open Sys2Proof Sys2Proof.Machine

/-- Settles O6, format by format; the operations of format INTERNAL have no encoding. -/
theorem decodeEncodeAgree : Obligations.DecodeEncodeAgree := by
  intro i e hwf he
  cases i <;> cases he
  case hostOpen | hostClose | hostSendz | cfgwrPreamble | cfgwrMaxRetries | cfgwrTimeout | cfgwrAutoZero =>
    simp only [decode, decodeHostWord, decodeHostOp_encodeHostOp]
  case hostSend cmd len data => exact decodeHostWord_send (beq_iff_eq.mp hwf)
  case delimPreamble | delimReqLong | delimReqShort => rfl
  case delimLong t => exact congrArg Except.ok (decodeDelim_byteOf_true hwf)
  case delimShort t => exact congrArg Except.ok (decodeDelim_byteOf_false t)
  case status1Comm x => exact congrArg Except.ok (decodeStatus1_byteOf_true x)
  case status1CmdSpecific x => exact congrArg Except.ok (decodeStatus1_byteOf_false x)
  case rxReadDelimiter b => exact decodePState_code (p := .readDelimiter) hwf
  case rxSeekPreamble | rxReadAddress | rxReadCommand | rxReadByteCount | rxReadStatus | rxReadData |
      rxReadChecksum | rxComplete =>
    exact decodePState_code rfl
  case tickIdle | tickSettle | tickGuard | tickWrite | tickHold | tickWait => exact decodeSState_code _
  case reqLong pre addr cmd data => exact decodeRequest_requestFrame rfl (of_decide_eq_true hwf)
  case reqShort pre cmd data => exact decodeRequest_requestFrame rfl (of_decide_eq_true hwf)
  case rspLong pre t addr cmd status data =>
    obtain ⟨ht, hl⟩ := Bool.and_eq_true_iff.mp hwf
    have hd : byteOf true t ≠ Config.fill := byteOf_long_ne_fill (bne_iff_ne.mp ht)
    have h := decodeResponse_responseFrame pre (f := ⟨some addr, cmd, status, data⟩) hd (byteOf_long t)
      (of_decide_eq_true hl)
    rwa [CommandResult.row, lowBits_byteOf] at h
  case rspShort pre t cmd status data =>
    have h := decodeResponse_responseFrame pre (f := ⟨none, cmd, status, data⟩) (byteOf_short_ne_fill t)
      (byteOf_short t) (of_decide_eq_true hwf)
    rwa [CommandResult.row, lowBits_byteOf] at h
  case doneOpened | doneClosed | doneSuccess | doneCommfault | doneNone | doneCfgOk | doneErrNotExisting |
      doneErrAlreadyOpen | doneErrUnknown | doneErrNotOpen | doneBadop => rfl

/-- Settles O7: a matching word is the encoder's word of the operands in its fields. -/
theorem hostWordHasOneReading : Obligations.HostWordHasOneReading := by
  intro w op h
  obtain ⟨hrow, hfields⟩ := decodeHostOp_eq_some_iff.mp h
  rw [← hfields]
  exact encodeHostOp_withFields hrow

/-- Settles O5: each word that decodes is the encoder's word of a well-formed operation (O6), `V65` with its 255 operand
bytes among them; each rejected host word matches no row. -/
theorem hostWordVectorsDecode : Obligations.HostWordVectorsDecode := by
  have reads {i : Instr} {e : Encoded} (hwf : i.wellFormed = true) (he : encode i = some e) : decode e = .ok i :=
    decodeEncodeAgree i e hwf he
  have rejects {w : HostWord} (h : decodeHostOp w = none) : decode (.hostw w []) = .error .badop :=
    decodeHostWord_of_no_row h []
  refine ⟨reads rfl rfl, reads rfl rfl, reads rfl rfl, reads rfl rfl, reads rfl rfl, reads ?_ rfl, reads rfl rfl,
    reads rfl rfl, reads rfl rfl, reads rfl rfl, reads rfl rfl, reads rfl rfl,
    rejects rfl, rejects rfl, rejects rfl, rejects rfl, rejects rfl, rejects rfl, rejects rfl, rejects rfl,
    reads rfl rfl, reads rfl rfl, reads rfl rfl, reads rfl rfl, reads rfl rfl, reads rfl rfl, reads rfl rfl,
    reads rfl rfl, reads rfl rfl, reads rfl rfl⟩
  exact beq_iff_eq.mpr List.length_replicate

end Sys2Proof.Proofs

/-! Receiving a response frame byte by byte (spec/41_parser.md R131 to R141), as events and as a chunk. -/

namespace Sys2Proof.Machine

/-! ## Receiving does not look at the events to come -/

/-- The same state with other events to come. -/
def State.withSchedule (q : List Input) (s : State) : State := { s with schedule := q }

/-- `State.withSchedule` as the last of several meanings. -/
def reschedule (q : List Input) (s : State) : Result := .next (s.withSchedule q)

section
variable (q : List Input) (s : State)

@[simp] theorem withSchedule_pState : (s.withSchedule q).pState = s.pState := rfl

@[simp] theorem withSchedule_pAddr : (s.withSchedule q).pAddr = s.pAddr := rfl

@[simp] theorem withSchedule_pStatus : (s.withSchedule q).pStatus = s.pStatus := rfl

@[simp] theorem withSchedule_pCnt : (s.withSchedule q).pCnt = s.pCnt := rfl

theorem finishWith_withSchedule (code : FinishCode) :
    finishWith code (s.withSchedule q) = (finishWith code s).withSchedule q := by
  rw [finishWith, finishWith, apply_ite (State.withSchedule q)]
  rfl

theorem retryOr_withSchedule (code : RetryCode) :
    retryOr code (s.withSchedule q) = (retryOr code s).withSchedule q := by
  rw [retryOr, retryOr, apply_ite (State.withSchedule q), finishWith_withSchedule]
  rfl

theorem classifyByte_withSchedule (b : Byte) :
    classifyByte b (s.withSchedule q) = (classifyByte b s).withSchedule q := by
  rw [classifyByte, classifyByte, apply_ite (State.withSchedule q), finishWith_withSchedule]
  exact congrArg (fun u => if isCommStatus b = true then u else _)
    (retryOr_withSchedule q (emit (.evCommfault (commFlags b)) s) .commfault)

theorem resolveWait_withSchedule : resolveWait (s.withSchedule q) = (resolveWait s).withSchedule q :=
  classifyByte_withSchedule q { s with handlerArmed := false } s.resStatus.s0

theorem learnFrom_withSchedule (f : CommandResult) :
    learnFrom f (s.withSchedule q) = (learnFrom f s).withSchedule q := by
  rw [learnFrom, learnFrom]
  cases learnedAddr f.data <;> rfl

theorem latch_withSchedule (f : CommandResult) : latch f (s.withSchedule q) = (latch f s).withSchedule q := by
  rw [latch, latch, apply_ite (State.withSchedule q)]
  rfl

theorem notifyFrame_withSchedule (f : CommandResult) :
    notifyFrame f (s.withSchedule q) = (notifyFrame f s).withSchedule q := by
  simp only [notifyFrame, apply_ite (State.withSchedule q), learnFrom_withSchedule]
  rw [← apply_ite (State.withSchedule q), latch_withSchedule, resolveWait_withSchedule]
  rfl

theorem seekPreamble_withSchedule (b : Byte) :
    seekPreamble b (s.withSchedule q) = (seekPreamble b s).withSchedule q := by
  rw [seekPreamble, seekPreamble, apply_ite (State.withSchedule q)]
  rfl

theorem readAddress_withSchedule (b : Byte) :
    readAddress b (s.withSchedule q) = andThen (readAddress b s) (reschedule q) := by
  rw [readAddress, readAddress, withSchedule_pAddr, withSchedule_pCnt]
  cases setAddr s.pAddr s.pCnt.toNat b <;> rfl

theorem readByteCount_withSchedule (b : Byte) :
    readByteCount b (s.withSchedule q) = (readByteCount b s).withSchedule q := by
  rw [readByteCount, readByteCount, apply_ite (State.withSchedule q)]
  rfl

theorem readStatus_withSchedule (b : Byte) :
    readStatus b (s.withSchedule q) = andThen (readStatus b s) (reschedule q) := by
  rw [readStatus, readStatus, withSchedule_pStatus, withSchedule_pCnt]
  cases setStatus s.pStatus s.pCnt.toNat b with
  | none => rfl
  | some st =>
    rw [andThen_next, reschedule, apply_ite (State.withSchedule q)]
    rfl

theorem readData_withSchedule (b : Byte) :
    readData b (s.withSchedule q) = andThen (readData b s) (reschedule q) := by
  rw [readData, readData, apply_ite (andThen · (reschedule q)), apply_ite (andThen · (reschedule q))]
  rfl

theorem completeFrame_withSchedule :
    completeFrame (s.withSchedule q) = andThen (completeFrame s) (reschedule q) := by
  rw [completeFrame, completeFrame, apply_ite (andThen · (reschedule q)), notifyFrame_withSchedule]
  rfl

theorem readChecksum_withSchedule (b : Byte) :
    readChecksum b (s.withSchedule q) = andThen (readChecksum b s) (reschedule q) := by
  rw [readChecksum, readChecksum, apply_ite (andThen · (reschedule q)), ← completeFrame_withSchedule]
  rfl

theorem parseByte_withSchedule (b : Byte) :
    parseByte b (s.withSchedule q) = andThen (parseByte b s) (reschedule q) := by
  rw [parseByte, parseByte, withSchedule_pState]
  cases s.pState with
  | seekPreamble => exact congrArg Host.Outcome.next (seekPreamble_withSchedule q s b)
  | readDelimiter => rfl
  | readAddress => exact readAddress_withSchedule q s b
  | readCommand => rfl
  | readByteCount => exact congrArg Host.Outcome.next (readByteCount_withSchedule q s b)
  | readStatus => exact readStatus_withSchedule q s b
  | readData => exact readData_withSchedule q s b
  | readChecksum => exact readChecksum_withSchedule q s b
  | complete => exact completeFrame_withSchedule q s

theorem receiveByte_withSchedule (b : Byte) :
    receiveByte b (s.withSchedule q) = andThen (receiveByte b s) (reschedule q) := by
  rw [receiveByte, receiveByte, apply_ite (andThen · (reschedule q)), ← parseByte_withSchedule]
  rfl

end

/-- Bytes delivered as events, one step each, do what they do as one chunk (spec/41_parser.md R143). -/
theorem run_rxbytes (bytes : List Byte) (rest : List Input) (s : State) :
    Host.Core.run Sys2Proof.core bytes.length (s.withSchedule (bytes.map Input.rxbyte ++ rest)) =
      receiveBytes bytes (s.withSchedule rest) := by
  induction bytes generalizing s with
  | nil => rfl
  | cons b bs ih =>
    have hstep : step (s.withSchedule ((b :: bs).map Input.rxbyte ++ rest)) =
        receiveByte b (s.withSchedule (bs.map Input.rxbyte ++ rest)) :=
      step_of_eventInstr_some (nextInput_cons rfl) (eventInstr_rxbyte b)
    rw [List.length_cons, run_succ, hstep, receiveBytes, receiveByte_withSchedule, receiveByte_withSchedule rest]
    cases receiveByte b s with
    | next t => exact ih t
    | fault e => rfl
    | refused e => rfl

/-! ## The parts of a response frame, received -/

@[simp] theorem rxDumps_nil : rxDumps [] = [] := rfl

theorem rxDumps_append (l m : List Byte) : rxDumps (l ++ m) = rxDumps m ++ rxDumps l := by
  simp [rxDumps]

theorem rxDumps_cons (b : Byte) (l : List Byte) : rxDumps (b :: l) = rxDumps l ++ [.evRxdump [b]] :=
  rxDumps_append [b] l

theorem receiveBytes_append (l m : List Byte) (s : State) :
    receiveBytes (l ++ m) s = andThen (receiveBytes l s) (receiveBytes m) := by
  induction l generalizing s with
  | nil => rfl
  | cons b l ih =>
    rw [List.cons_append, receiveBytes, receiveBytes]
    cases receiveByte b s with
    | next t => exact ih t
    | fault e => rfl
    | refused e => rfl

section
variable {s : State}

theorem receiveByte_of_opened (ho : s.opened = true) (b : Byte) :
    receiveByte b s = parseByte b { s with outs := .evRxdump [b] :: s.outs } := if_pos ho

theorem seekPreamble_of_ne_fill {d : Byte} (hd : d ≠ Config.fill) : seekPreamble d s = readDelimiter d s := if_neg hd

theorem receiveBytes_preamble (n : Nat) (ho : s.opened = true) (hp : s.pState = .seekPreamble) :
    receiveBytes (List.replicate n Config.fill) s =
      .next { s with outs := rxDumps (List.replicate n Config.fill) ++ s.outs } := by
  induction n generalizing s with
  | zero => rfl
  | succ n ih =>
    have hb : receiveByte Config.fill s = .next { s with outs := .evRxdump [Config.fill] :: s.outs } := by
      rw [receiveByte_of_opened ho]
      simp [parseByte, hp, seekPreamble]
    rw [List.replicate_succ, receiveBytes, hb, andThen_next, rxDumps_cons, List.append_assoc]
    exact ih ho hp

theorem receiveBytes_delimiter {d : Byte} (hd : d ≠ Config.fill) (ho : s.opened = true)
    (hp : s.pState = .seekPreamble) :
    receiveBytes [d] s = .next (readDelimiter d { s with outs := rxDumps [d] ++ s.outs }) := by
  rw [receiveBytes, receiveByte_of_opened ho]
  simp [parseByte, hp, seekPreamble_of_ne_fill hd, receiveBytes, rxDumps, readDelimiter]

theorem receiveBytes_address (a : Addr5) (ho : s.opened = true) (hp : s.pState = .readAddress) (hc : s.pCnt = 0) :
    receiveBytes a.toList s = .next { s with
      pAddr := a
      pXor := s.pXor ^^^ xor8 a.toList
      pCnt := 5
      pState := .readCommand
      outs := rxDumps a.toList ++ s.outs } := by
  simp [Addr5.toList, receiveBytes, receiveByte, ho, emit, parseByte, hp, readAddress, hc, setAddr, xor8, rxDumps,
    BitVec.xor_assoc]

/-- Command number, byte count and the two status bytes; without data bytes the checksum is next. -/
theorem receiveBytes_header {f : CommandResult} (hl : f.data.length ≤ 253) (ho : s.opened = true)
    (hp : s.pState = .readCommand) :
    receiveBytes (responseHeader f) s = .next { s with
      pCmd := f.commandNumber
      pBc := BitVec.ofNat 8 (f.data.length + 2)
      pStatus := f.responseCode
      pXor := s.pXor ^^^ xor8 (responseHeader f)
      pCnt := 0
      pState := if f.data = [] then .readChecksum else .readData
      outs := rxDumps (responseHeader f) ++ s.outs } := by
  have hmin : ¬ f.data.length + 2 < 2 := by omega
  have hempty : BitVec.ofNat 8 (f.data.length + 2) = 2#8 ↔ f.data = [] := by
    rw [← List.length_eq_zero_iff]
    bv_omega
  simp [responseHeader, receiveBytes, receiveByte, ho, emit, parseByte, hp, readCommand, readByteCount,
    responseCount_toNat hl, hmin, readStatus, setStatus, hempty, xor8, rxDumps, BitVec.xor_assoc]

theorem receiveByte_data {b : Byte} (ho : s.opened = true) (hp : s.pState = .readData) (hbc : 2 ≤ s.pBc.toNat)
    (hc : s.pCnt.toNat < 253) :
    receiveByte b s = .next { s with
      pData := s.pData.write s.pCnt.toNat b
      pXor := s.pXor ^^^ b
      pCnt := s.pCnt + 1
      pState := if s.pCnt + 1 = s.pBc - 2 then .readChecksum else .readData
      outs := .evRxdump [b] :: s.outs } := by
  have hfits : ¬ s.pBc.toNat < 2 ∧ ¬ Config.rspDataMax ≤ s.pCnt.toNat := ⟨Nat.not_lt.mpr hbc, Nat.not_le.mpr hc⟩
  simp only [receiveByte_of_opened ho, parseByte, hp, readData, hfits, if_false]

/-- The data bytes from index `k` on; the last one is told by the byte count. -/
theorem receiveBytes_data (data : List Byte) {k : Nat} (hk : k + data.length ≤ 253) (ho : s.opened = true)
    (hbc : s.pBc = BitVec.ofNat 8 (k + data.length + 2)) (hc : s.pCnt = BitVec.ofNat 8 k)
    (hp : s.pState = if data = [] then .readChecksum else .readData) :
    receiveBytes data s = .next { s with
      pData := s.pData.writeBytes k data
      pXor := s.pXor ^^^ xor8 data
      pCnt := BitVec.ofNat 8 (k + data.length)
      pState := .readChecksum
      outs := rxDumps data ++ s.outs } := by
  induction data generalizing s k with
  | nil =>
    have hp : s.pState = .readChecksum := hp
    simp [receiveBytes, Memory.writeBytes, xor8, rxDumps, ← hc, ← hp]
  | cons b data ih =>
    have hlen : k + (b :: data).length = k + 1 + data.length := by rw [List.length_cons]; omega
    rw [hlen] at hk hbc
    have hcount : s.pCnt.toNat = k := by rw [hc, toNat_ofNat_byte (by omega)]
    have hbytes : 2 ≤ s.pBc.toNat := by rw [hbc, toNat_ofNat_byte (by omega)]; omega
    have hnext : s.pCnt + 1 = BitVec.ofNat 8 (k + 1) := by rw [hc]; bv_omega
    have hlast : BitVec.ofNat 8 (k + 1) = s.pBc - 2 ↔ data = [] := by
      rw [hbc, ← List.length_eq_zero_iff]
      bv_omega
    rw [receiveBytes, receiveByte_data ho hp hbytes (by omega), andThen_next, hcount, hnext]
    simp only [hlast]
    rw [hlen, xor8_cons, ← BitVec.xor_assoc, rxDumps_cons, List.append_assoc]
    exact ih hk ho hbc rfl rfl

/-- The checksum byte that agrees completes the frame. -/
theorem receiveBytes_checksum {x : Byte} (hx : s.pXor = x) (ho : s.opened = true) (hp : s.pState = .readChecksum) :
    receiveBytes [x] s = completeFrame { s with pState := .complete, outs := .evRxdump [x] :: s.outs } := by
  have hnil (r : Result) : andThen r (receiveBytes []) = r := by cases r <;> rfl
  rw [receiveBytes, hnil, receiveByte_of_opened ho, parseByte]
  simp only [hp]
  exact if_pos hx.symm

/-- The frame received up to its delimiter and address field. -/
theorem receiveBytes_start (pre : Nat) {d : Byte} {a : Option Addr5} (hd : d ≠ Config.fill)
    (hlong : Config.isLong d = a.isSome) (ho : s.opened = true) (hp : s.pState = .seekPreamble) :
    receiveBytes (List.replicate pre Config.fill ++ d :: addrField a) s = .next { s with
      pDelim := d
      pLong := Config.isLong d
      pAddr := a.getD s.pAddr
      pXor := xor8 (d :: addrField a)
      pCnt := if a.isSome then 5 else 0
      pState := .readCommand
      outs := rxDumps (List.replicate pre Config.fill ++ d :: addrField a) ++ s.outs } := by
  rw [← List.singleton_append, receiveBytes_append, receiveBytes_preamble pre ho hp, andThen_next,
    receiveBytes_append, receiveBytes_delimiter hd ?opened ?seeks, andThen_next]
  case opened => exact ho
  case seeks => exact hp
  cases a with
  | none => simp [addrField, receiveBytes, readDelimiter, hlong, rxDumps_append, xor8]
  | some a =>
    rw [addrField, receiveBytes_address a ?opened ?state rfl]
    case opened => exact ho
    case state => exact if_pos hlong
    simp [readDelimiter, hlong, rxDumps_append, xor8_cons, rxDumps_cons]

/-- The parser with the whole of a frame read, before its notification. -/
def frameRead (pre : Nat) (d : Byte) (f : CommandResult) (s : State) : State :=
  { s with
    pDelim := d
    pLong := f.address.isSome
    pAddr := f.address.getD s.pAddr
    pCmd := f.commandNumber
    pBc := BitVec.ofNat 8 (f.data.length + 2)
    pStatus := f.responseCode
    pData := s.pData.writeBytes 0 f.data
    pCnt := BitVec.ofNat 8 f.data.length
    pXor := xor8 (responseBody d f)
    pState := .complete
    outs := rxDumps (responseFrame pre d f) ++ s.outs }

/-- Every byte of a frame goes where R133 to R140 say, and the checksum agrees. -/
theorem receiveBytes_responseFrame (pre : Nat) {d : Byte} {f : CommandResult} (hd : d ≠ Config.fill)
    (hlong : Config.isLong d = f.address.isSome) (hl : f.data.length ≤ 253) (ho : s.opened = true)
    (hp : s.pState = .seekPreamble) :
    receiveBytes (responseFrame pre d f) s = completeFrame (frameRead pre d f s) := by
  have hparts : responseFrame pre d f = (List.replicate pre Config.fill ++ d :: addrField f.address) ++
      (responseHeader f ++ (f.data ++ [xor8 (responseBody d f)])) := by
    rw [responseFrame_eq, responseTail, ← List.cons_append, List.append_assoc]
  have hxor : xor8 (d :: addrField f.address) ^^^ xor8 (responseHeader f) ^^^ xor8 f.data =
      xor8 (responseBody d f) := by
    rw [responseBody_eq, xor8_append, xor8_append, BitVec.xor_assoc]
  rw [hparts, receiveBytes_append, receiveBytes_start pre hd hlong ho hp, andThen_next, receiveBytes_append,
    receiveBytes_header hl ?opened rfl, andThen_next, receiveBytes_append,
    receiveBytes_data f.data (k := 0) ?fits ?opened' ?count rfl rfl, andThen_next,
    receiveBytes_checksum ?agrees ?opened'' rfl]
  case opened | opened' | opened'' => exact ho
  case fits => omega
  case count => rw [Nat.zero_add]
  case agrees => exact hxor
  simp only [frameRead, hparts, hlong, hxor, Nat.zero_add, rxDumps_append, List.append_assoc]
  rfl

end

/-! ## The end of a frame -/

/-- Learning, latching and waking leave the status that the parser read. -/
theorem notifyFrame_pStatus (f : CommandResult) (s : State) : (notifyFrame f s).pStatus = s.pStatus := by
  obtain ⟨u, hu, hwake⟩ := notifyFrame_cases f s
  have hlearn : u.pStatus = s.pStatus := by
    rcases hu with ⟨_, rfl⟩ | ⟨_, rfl⟩
    · rcases learnFrom_cases f s with ⟨_, h⟩ | ⟨_, h⟩ <;> rw [h]
    · rfl
  have hlatch : (latch f u).pStatus = u.pStatus := by
    rcases latch_cases f u with ⟨_, _, h⟩ | ⟨_, h⟩ <;> rw [h]
  rw [← hlearn, ← hlatch]
  rcases hwake with ⟨_, _, h⟩ | ⟨_, h⟩ <;> rw [h]
  have hframe : SameButProgress (latch f u) (resolveWait (latch f u)) := (resolveWait_frame _).1
  rw [hframe]

/-- A frame with a byte count of at least 2 completes, and the parser seeks the next preamble. -/
theorem completeFrame_seeks {s : State} (h : 2 ≤ s.pBc.toNat) :
    ∃ t, completeFrame s = .next t ∧ t.pState = .seekPreamble ∧ t.pStatus = s.pStatus := by
  rcases completeFrame_cases s with ⟨_, he⟩ | ⟨hlt, _⟩
  · exact ⟨_, he, rfl, notifyFrame_pStatus _ s⟩
  · omega

/-- A whole response frame, received by an open block that seeks a preamble, completes. -/
theorem receiveBytes_responseFrame_seeks {s : State} (pre : Nat) {d : Byte} {f : CommandResult} (hd : d ≠ Config.fill)
    (hlong : Config.isLong d = f.address.isSome) (hl : f.data.length ≤ 253) (ho : s.opened = true)
    (hp : s.pState = .seekPreamble) :
    ∃ t, receiveBytes (responseFrame pre d f) s = .next t ∧ t.pState = .seekPreamble ∧
      t.pStatus = f.responseCode := by
  rw [receiveBytes_responseFrame pre hd hlong hl ho hp]
  apply completeFrame_seeks
  rw [frameRead, responseCount_toNat hl]
  exact Nat.le_add_left 2 _

end Sys2Proof.Machine

namespace Sys2Proof.Proofs

open Sys2Proof Sys2Proof.Machine

/-- Settles O50: a row hands its frame's bytes to the receiver in one chunk; delivery as events does the same, and the
whole frame completes. -/
theorem responseRowsDeliverTheirBytes : Obligations.ResponseRowsDeliverTheirBytes := by
  intro s pre cmd st data hl
  have delivered (frame : List Byte) : receiveBytes frame s = Host.Core.run Sys2Proof.core frame.length
      { s with schedule := frame.map Input.rxbyte ++ s.schedule } := (run_rxbytes frame s.schedule s).symm
  constructor
  case left =>
    intro x a frame
    have hrow : exec (.rspLong pre x a cmd st data) s = receiveBytes frame s := if_pos hl
    rw [hrow]
    refine ⟨delivered frame, fun ho hp hx => ?_⟩
    exact receiveBytes_responseFrame_seeks pre (byteOf_long_ne_fill hx) (byteOf_long x) hl ho hp
  case right =>
    intro x frame
    have hrow : exec (.rspShort pre x cmd st data) s = receiveBytes frame s := if_pos hl
    rw [hrow]
    refine ⟨delivered frame, fun ho hp => ?_⟩
    exact receiveBytes_responseFrame_seeks pre (byteOf_short_ne_fill x) (byteOf_short x) hl ho hp

/-- Settles O24: a received delimiter acts in `SeekPreamble`, where its bit 7 is looked at; a transmitted one is given
back. -/
theorem delimiterRows : Obligations.DelimiterRows := by
  intro s
  refine ⟨?preamble, ?long, ?short, rfl, rfl⟩
  case preamble => exact congrArg Host.Outcome.next (if_pos rfl)
  case long =>
    intro x hx
    refine (congrArg Host.Outcome.next (seekPreamble_of_ne_fill (byteOf_long_ne_fill hx))).trans ?_
    rw [readDelimiter, byteOf_long]
    rfl
  case short =>
    intro x
    refine (congrArg Host.Outcome.next (seekPreamble_of_ne_fill (byteOf_short_ne_fill x))).trans ?_
    rw [readDelimiter, byteOf_short]
    rfl

/-- Settles O33: `complete` adds the event of its code to the log, and each row completes with its own code. -/
theorem completionCodesEmit : Obligations.CompletionCodesEmit := by
  intro s
  have emits (code : DoneCode) : complete code s = .next { s with outs := .done code :: s.outs } := rfl
  exact ⟨emits .opened, emits .closed, emits .success, emits .commfault, emits .none, emits .cfgOk,
    emits .errNotExisting, emits .errAlreadyOpen, emits .errUnknown, emits .errNotOpen, emits .badop⟩

end Sys2Proof.Proofs

/-! The frame codec: the laws of the checksum (spec/40_codec.md R111), what `ENCODE` writes (R114), and what `DECODE`
gives of a response frame received whole (R116, R118). -/

namespace Sys2Proof.Machine

/-! ## The checksum -/

theorem xor8_singleton (b : Byte) : xor8 [b] = b := (xor8_cons b []).trans BitVec.xor_zero

/-- A receiver that runs the checksum over the checksum byte too is left with 0. -/
theorem xor8_append_xor8 (l : List Byte) : xor8 (l ++ [xor8 l]) = 0 := by
  rw [xor8_append, xor8_singleton]
  exact BitVec.xor_self

theorem xor8_perm {l m : List Byte} (h : l.Perm m) : xor8 l = xor8 m := by
  induction h with
  | nil => rfl
  | cons b _ ih => rw [xor8_cons, xor8_cons, ih]
  | swap a b l => simp only [xor8_cons, ← BitVec.xor_assoc, BitVec.xor_comm b a]
  | trans _ _ ih₁ ih₂ => exact ih₁.trans ih₂

/-- Bits flipped in one byte are flipped in the checksum. -/
theorem xor8_set_xor {l : List Byte} {i : Nat} (h : i < l.length) (m : Byte) :
    xor8 (l.set i (l.getD i 0 ^^^ m)) = xor8 l ^^^ m := by
  induction l generalizing i with
  | nil => cases h
  | cons b l ih =>
    cases i with
    | zero =>
      rw [List.set_cons_zero, List.getD_cons_zero, xor8_cons, xor8_cons, BitVec.xor_assoc, BitVec.xor_comm m,
        BitVec.xor_assoc]
    | succ i =>
      rw [List.set_cons_succ, List.getD_cons_succ, xor8_cons, xor8_cons, ih (Nat.lt_of_succ_lt_succ h),
        BitVec.xor_assoc]

/-! ## The optional address in a frame -/

theorem reqDelimiter_eq_ite (a : Option Addr5) :
    reqDelimiter a = if a.isSome then Config.delimReqLong else Config.delimReqShort := by
  cases a <;> rfl

theorem addrField_eq_getD (a : Option Addr5) : addrField a = (a.map Addr5.toList).getD [] := by
  cases a <;> rfl

/-! ## Encoding a Command, and reading a frame back -/

/-- The row of a Command's frame does what `ENCODE` of the Command does (log entry 15). -/
theorem exec_row_eq_exec_encode {c : Command} (h : c.status = []) (s : State) :
    exec c.row s = exec (.encode c) s := by
  obtain ⟨pre, addr, cmd, st, data⟩ := c
  cases h
  cases addr <;> rfl

/-- `NOTIFY` takes as many data bytes as a byte count can say (spec/60_exceptions.md R225). -/
theorem exec_notify_of_fits {f : CommandResult} (h : f.data.length ≤ 253) (s : State) :
    exec (.notify f) s = .next (notifyFrame f s) :=
  if_pos h

/-- `DECODE` of the registers that a frame was read into gives the fields that the frame was built from. -/
theorem decodeRegs_frameRead (pre : Nat) (d : Byte) {f : CommandResult} {s : State} (hl : f.data.length ≤ 253)
    (hwf : Memory.wf s.pData = true) : decodeRegs (frameRead pre d f s) = f := by
  have haddr : (if f.address.isSome then some (f.address.getD s.pAddr) else none) = f.address := by
    cases f.address <;> rfl
  have hdata : (decodeRegs (frameRead pre d f s)).data = f.data := by
    simp only [decodeRegs, frameRead, responseCount_toNat hl, Nat.add_sub_cancel, Memory.readBytes_writeBytes hwf]
  calc decodeRegs (frameRead pre d f s)
    _ = ⟨if f.address.isSome then some (f.address.getD s.pAddr) else none, f.commandNumber, f.responseCode,
          (decodeRegs (frameRead pre d f s)).data⟩ := rfl
    _ = f := by rw [haddr, hdata]

/-- A frame read whole is notified once, with its fields, and then the parser is reset (spec/41_parser.md R141). -/
theorem completeFrame_frameRead (pre : Nat) (d : Byte) {f : CommandResult} {s : State} (hl : f.data.length ≤ 253)
    (hwf : Memory.wf s.pData = true) :
    completeFrame (frameRead pre d f s) = .next (parserReset (notifyFrame f (frameRead pre d f s))) := by
  have hcount : (frameRead pre d f s).pBc.toNat = f.data.length + 2 := responseCount_toNat hl
  rw [completeFrame, if_neg (by omega), decodeRegs_frameRead pre d hl hwf]

end Sys2Proof.Machine

namespace Sys2Proof.Proofs

open Sys2Proof Sys2Proof.Machine

/-- Settles O49: the run is the receipt of the frame as a chunk, which fills the parser registers with the frame and
completes it; what `DECODE` then gives to `NOTIFY` is the result the frame was built from. -/
theorem responseFrameRoundTrip : Obligations.ResponseFrameRoundTrip := by
  intro s pre delim f rest body frame ho hp hwf hl hd hlong hs
  have hbody : body = responseBody delim f := by
    simp [body, responseBody, addrField_eq_getD]
  have hframe : frame = responseFrame pre delim f := by
    simp only [frame, hbody]
    rfl
  have hstart : s.withSchedule (frame.map Input.rxbyte ++ rest) = s := by
    rw [← hs]
    rfl
  have hchunk : Host.Core.run Sys2Proof.core frame.length s = receiveBytes frame (s.withSchedule rest) :=
    hstart ▸ run_rxbytes frame rest s
  have hread : receiveBytes frame (s.withSchedule rest) =
      completeFrame (frameRead pre delim f (s.withSchedule rest)) :=
    hframe ▸ receiveBytes_responseFrame pre hd hlong.symm hl ho hp
  refine ⟨frameRead pre delim f (s.withSchedule rest), _, exec_notify_of_fits hl _, ?run, ?stored, ?count,
    ?registers⟩
  case run => exact (hchunk.trans hread).trans (completeFrame_frameRead pre delim hl hwf)
  case stored => exact Memory.read_writeBytes hwf 0 f.data
  case count => exact responseCount_toNat hl
  case registers =>
    rw [hbody, hframe]
    rfl

/-- Settles O18: the frame, written out part by part, is the one `ENCODE` stores; a request frame row answers what
`ENCODE` of its Command does. -/
theorem encodeWritesFrame : Obligations.EncodeWritesFrame := by
  intro s c hwf hfits delim addr body frame
  have hbody : requestBody c = body := by
    simp [requestBody, reqDelimiter_eq_ite, addrField_eq_getD, body, delim, addr]
  have hframe : requestFrame c = frame := by
    rw [requestFrame, hbody]
    rfl
  have hrow (hst : c.status = []) : exec c.row s = .next (encodeInto c s) :=
    (exec_row_eq_exec_encode hst s).trans (exec_encode_of_fits hfits s)
  refine ⟨encodeInto c s, exec_encode_of_fits hfits s, hframe ▸ encodeInto_stored c hwf, rfl,
    hframe ▸ encodeInto_txLen_toNat hfits, ?long, ?short⟩
  case long =>
    intro a ha hst
    rw [← hrow hst, Command.row, ha]
  case short =>
    intro ha hst
    rw [← hrow hst, Command.row, ha]

/-- Settles O20: the first two laws are the fold itself, the others rest on how `xor8` splits a sequence. -/
theorem checksumLaws : Obligations.ChecksumLaws :=
  ⟨fun _ => rfl, rfl, xor8_singleton, xor8_append_xor8, fun _ _ h => xor8_perm h, fun _ _ m h => xor8_set_xor h m⟩

/-- Settles O21: each operation gives its value back, and `giveBack` writes the field `ret` alone. -/
theorem valueOperationsReturn : Obligations.ValueOperationsReturn := by
  intro s
  have returns (r : Returned) : (.next (giveBack r s) : Result) = .next { s with ret := r } := rfl
  exact ⟨fun bytes => returns (.byte (xor8 bytes)), returns (.command (zeroCommand s)),
    returns (.command (buildCommand s)), fun b => returns (.flags (commFlags b)),
    fun n => returns (.duration (holdMs n))⟩

/-- Settles O22: the byte count does not borrow, and the result given back is read off the parser registers. -/
theorem decodeReturnsParserRegisters : Obligations.DecodeReturnsParserRegisters := by
  intro s hcount
  have hfits : ¬ s.pBc.toNat < 2 := Nat.not_lt.mpr hcount
  calc exec .decode s
    _ = .next (giveBack (.result (decodeRegs s)) s) := if_neg hfits
    _ = _ := rfl

end Sys2Proof.Proofs

/-! A frame with a byte changed behind the byte count: its checksum disagrees and the parser drops it
(spec/41_parser.md R140, R144). -/

namespace Sys2Proof

/-- The result with byte `k` of the two status bytes and the data, those that the byte count counts, replaced by `v`. -/
def CommandResult.replaceByte (f : CommandResult) (k : Nat) (v : Byte) : CommandResult :=
  match k with
  | 0 => { f with responseCode := { f.responseCode with s0 := v } }
  | 1 => { f with responseCode := { f.responseCode with s1 := v } }
  | k + 2 => { f with data := f.data.set k v }

section
variable (d : Byte) (f : CommandResult) (k : Nat) (v : Byte)

@[simp] theorem replaceByte_address : (f.replaceByte k v).address = f.address := by
  match k with
  | 0 | 1 | _ + 2 => rfl

@[simp] theorem replaceByte_data_length : (f.replaceByte k v).data.length = f.data.length := by
  match k with
  | 0 | 1 => rfl
  | _ + 2 => exact List.length_set

/-- In the frame the counted bytes begin behind delimiter, address field, command number and byte count. -/
theorem responseBody_replaceByte :
    responseBody d (f.replaceByte k v) = (responseBody d f).set (3 + (addrField f.address).length + k) v := by
  have hindex : 3 + (addrField f.address).length + k = (addrField f.address).length + (k + 2) + 1 := by omega
  rw [hindex, responseBody, responseBody, List.set_cons_succ, List.set_append_right _ _ (Nat.le_add_right ..),
    Nat.add_sub_cancel_left, replaceByte_address, replaceByte_data_length]
  match k with
  | 0 | 1 | _ + 2 => rfl

end

/-- A single replaced byte changes the checksum. -/
theorem xor8_set_ne {l : List Byte} {i : Nat} {v : Byte} (hi : i < l.length) (hv : l[i]? ≠ some v) :
    xor8 (l.set i v) ≠ xor8 l := by
  intro heq
  have hbyte : l.getD i 0 ^^^ (l.getD i 0 ^^^ v) = v := by rw [← BitVec.xor_assoc, BitVec.xor_self, BitVec.zero_xor]
  have hflip : xor8 (l.set i v) = xor8 l ^^^ (l.getD i 0 ^^^ v) := by
    rw [← Machine.xor8_set_xor hi, hbyte]
  have hsame : l.getD i 0 = v := BitVec.xor_eq_zero_iff.mp (xor_left_eq_self_iff.mp (hflip.symm.trans heq))
  apply hv
  rw [← hsame, List.getD_eq_getElem?_getD, List.getElem?_eq_getElem hi, Option.getD_some]

section
variable {d : Byte} {f : CommandResult} {v : Byte}

/-- Body and checksum with a byte changed behind the byte count are the body of another result, with the same address
and as much data, and a byte that is not its checksum. -/
theorem responseBody_checksum_set {i : Nat} (hcounted : 3 + (addrField f.address).length ≤ i)
    (hi : i < (responseBody d f ++ [xor8 (responseBody d f)]).length)
    (hv : (responseBody d f ++ [xor8 (responseBody d f)])[i]? ≠ some v) :
    ∃ (g : CommandResult) (x : Byte), g.address = f.address ∧ g.data.length = f.data.length ∧
      x ≠ xor8 (responseBody d g) ∧
      (responseBody d f ++ [xor8 (responseBody d f)]).set i v = responseBody d g ++ [x] := by
  rw [List.length_append, List.length_singleton] at hi
  rcases Nat.lt_succ_iff_lt_or_eq.mp hi with hbody | rfl
  case inl =>
    obtain ⟨k, rfl⟩ := Nat.exists_eq_add_of_le hcounted
    rw [List.getElem?_append_left hbody] at hv
    refine ⟨f.replaceByte k v, xor8 (responseBody d f), replaceByte_address .., replaceByte_data_length .., ?_, ?_⟩
    · rw [responseBody_replaceByte]
      exact (xor8_set_ne hbody hv).symm
    · rw [responseBody_replaceByte, List.set_append_left _ _ hbody]
  case inr =>
    refine ⟨f, v, rfl, rfl, ?_, by simp⟩
    rintro rfl
    simp at hv

/-- The same of the whole frame, preamble included. -/
theorem responseFrame_set {pre i : Nat} (hcounted : pre + 3 + (addrField f.address).length ≤ i)
    (hi : i < (responseFrame pre d f).length) (hv : (responseFrame pre d f)[i]? ≠ some v) :
    ∃ (g : CommandResult) (x : Byte), g.address = f.address ∧ g.data.length = f.data.length ∧
      x ≠ xor8 (responseBody d g) ∧
      (responseFrame pre d f).set i v = List.replicate pre Config.fill ++ (responseBody d g ++ [x]) := by
  obtain ⟨j, rfl⟩ := Nat.exists_eq_add_of_le (show (List.replicate pre Config.fill).length ≤ i by simp; omega)
  rw [responseFrame, List.append_assoc] at hi hv ⊢
  rw [List.length_append, Nat.add_lt_add_iff_left] at hi
  rw [List.getElem?_append_right (Nat.le_add_right ..), Nat.add_sub_cancel_left] at hv
  rw [List.length_replicate, Nat.add_assoc, Nat.add_le_add_iff_left] at hcounted
  obtain ⟨g, x, haddr, hlen, hx, hset⟩ := responseBody_checksum_set hcounted hi hv
  refine ⟨g, x, haddr, hlen, hx, ?_⟩
  rw [List.set_append_right _ _ (Nat.le_add_right ..), Nat.add_sub_cancel_left, hset]

end

end Sys2Proof

namespace Sys2Proof.Machine

section
variable {s : State}

/-- Bytes that stand next in the schedule are delivered as a chunk would be. -/
theorem run_of_schedule_eq {bytes : List Byte} {rest : List Input} (h : s.schedule = bytes.map Input.rxbyte ++ rest) :
    Host.Core.run Sys2Proof.core bytes.length s = receiveBytes bytes (s.withSchedule rest) := by
  have hstart : s.withSchedule (bytes.map Input.rxbyte ++ rest) = s := by
    rw [← h]
    rfl
  exact hstart ▸ run_rxbytes bytes rest s

/-- The parser with a frame read up to its checksum, which comes next. -/
def bodyRead (pre : Nat) (d : Byte) (f : CommandResult) (s : State) : State :=
  { frameRead pre d f s with
    pState := .readChecksum
    outs := rxDumps (List.replicate pre Config.fill ++ responseBody d f) ++ s.outs }

theorem receiveBytes_responseBody (pre : Nat) {d : Byte} {f : CommandResult} (hd : d ≠ Config.fill)
    (hlong : Config.isLong d = f.address.isSome) (hl : f.data.length ≤ 253) (ho : s.opened = true)
    (hp : s.pState = .seekPreamble) :
    receiveBytes (List.replicate pre Config.fill ++ responseBody d f) s = .next (bodyRead pre d f s) := by
  have hparts : List.replicate pre Config.fill ++ responseBody d f =
      (List.replicate pre Config.fill ++ d :: addrField f.address) ++ (responseHeader f ++ f.data) := by
    rw [responseBody_eq, List.append_assoc]
  have hxor : xor8 (d :: addrField f.address) ^^^ xor8 (responseHeader f) ^^^ xor8 f.data =
      xor8 (responseBody d f) := by
    rw [responseBody_eq, xor8_append, xor8_append, BitVec.xor_assoc]
  rw [hparts, receiveBytes_append, receiveBytes_start pre hd hlong ho hp, andThen_next, receiveBytes_append,
    receiveBytes_header hl ?opened rfl, andThen_next, receiveBytes_data f.data (k := 0) ?fits ?opened' ?count rfl rfl]
  case opened | opened' => exact ho
  case fits => omega
  case count => rw [Nat.zero_add]
  simp only [bodyRead, frameRead, hparts, hlong, hxor, Nat.zero_add, rxDumps_append, List.append_assoc]

/-- A checksum byte that disagrees drops the frame. -/
theorem receiveBytes_wrong_checksum {x : Byte} (hx : x ≠ s.pXor) (ho : s.opened = true)
    (hp : s.pState = .readChecksum) :
    receiveBytes [x] s = .next { s with pState := .seekPreamble, outs := rxDumps [x] ++ s.outs } := by
  have hdrop : parseByte x { s with outs := .evRxdump [x] :: s.outs } =
      .next { s with pState := .seekPreamble, outs := .evRxdump [x] :: s.outs } := by
    simp only [parseByte, hp]
    exact if_neg hx
  rw [receiveBytes, receiveByte_of_opened ho, hdrop]
  rfl

/-- A frame whose last byte is not its checksum is read to its end and dropped. -/
theorem receiveBytes_corrupted (pre : Nat) {d x : Byte} {f : CommandResult} (hd : d ≠ Config.fill)
    (hlong : Config.isLong d = f.address.isSome) (hl : f.data.length ≤ 253) (ho : s.opened = true)
    (hp : s.pState = .seekPreamble) (hx : x ≠ xor8 (responseBody d f)) :
    receiveBytes (List.replicate pre Config.fill ++ (responseBody d f ++ [x])) s = .next
      { frameRead pre d f s with
        pState := .seekPreamble
        outs := rxDumps (List.replicate pre Config.fill ++ (responseBody d f ++ [x])) ++ s.outs } := by
  rw [← List.append_assoc, receiveBytes_append, receiveBytes_responseBody pre hd hlong hl ho hp, andThen_next,
    receiveBytes_wrong_checksum (s := bodyRead pre d f s) hx ho rfl, rxDumps_append _ [x], List.append_assoc]
  rfl

end

end Sys2Proof.Machine

namespace Sys2Proof.Proofs

open Sys2Proof Sys2Proof.Machine

/-- Settles O51: the changed frame is one whose last byte is not its checksum, so its bytes are read as a frame's and
then dropped; delivery as events does what delivery as a chunk does. -/
theorem corruptedFrameDropped : Obligations.CorruptedFrameDropped := by
  intro s pre delim f i v rest frame bad ho hp hl hd hlong hcounted hi hv hs
  rw [← addrField_length] at hcounted
  obtain ⟨g, x, haddr, hlen, hx, hbad⟩ := responseFrame_set hcounted hi hv
  have hglong : Config.isLong delim = g.address.isSome := haddr ▸ hlong.symm
  have hdropped := receiveBytes_corrupted (s := s.withSchedule rest) pre hd hglong (hlen ▸ hl) ho hp hx
  rw [← hbad] at hdropped
  exact ⟨_, (run_of_schedule_eq hs).trans hdropped, rfl⟩

end Sys2Proof.Proofs

/-! What each state of the parser does with a byte (spec/41_parser.md R131 to R142), and that it looks at the parser
registers alone (R130, R143). -/

namespace Sys2Proof.Machine

/-! ## The parser's states, one by one -/

theorem setAddr_toList {a a' : Addr5} {i : Nat} {b : Byte} (h : setAddr a i b = some a') :
    a'.toList = a.toList.set i b := by
  match i with
  | 0 | 1 | 2 | 3 | 4 => cases h; rfl
  | _ + 5 => cases h

/-- The row that `P_STATE` selects is the handler that the byte goes to. -/
theorem exec_parserRow (b : Byte) (s : State) : exec (parserRow s.pState b) s = parseByte b s := by
  rw [parseByte]
  cases s.pState <;> rfl

theorem completeFrame_completes {s : State} (h : 2 ≤ s.pBc.toNat) : ∃ t, completeFrame s = .next t :=
  ⟨_, if_neg (Nat.not_lt.mpr h)⟩

theorem readAddress_completes {s : State} (b : Byte) (h : s.pCnt.toNat < 5) : ∃ t, readAddress b s = .next t := by
  rcases readAddress_cases b s with ⟨_, _, _, he⟩ | ⟨hge, _⟩
  · exact ⟨_, he⟩
  · omega

theorem readStatus_completes {s : State} (b : Byte) (h : s.pCnt.toNat < 2) : ∃ t, readStatus b s = .next t := by
  rcases readStatus_cases b s with ⟨_, he⟩ | ⟨_, he⟩ | ⟨hge, _⟩
  · exact ⟨_, he⟩
  · exact ⟨_, he⟩
  · omega

theorem readData_completes {s : State} (b : Byte) (hbc : 2 ≤ s.pBc.toNat) (hcnt : s.pCnt.toNat < 253) :
    ∃ t, readData b s = .next t := by
  rcases readData_cases b s with ⟨_, _, he⟩ | ⟨hlt, _⟩ | ⟨_, hge, _⟩
  · exact ⟨_, he⟩
  · omega
  · omega

theorem readChecksum_completes {s : State} (b : Byte) (h : 2 ≤ s.pBc.toNat) : ∃ t, readChecksum b s = .next t := by
  rcases readChecksum_cases b s with ⟨_, he⟩ | ⟨_, he⟩ <;> rw [he]
  · exact completeFrame_completes h
  · exact ⟨_, rfl⟩

/-- Where the invariants of the parser registers hold, no byte makes the parser stop. -/
theorem parseByte_completes {s : State} (b : Byte) (h : s.parsingInv) : ∃ t, parseByte b s = .next t := by
  have hbound := s.pBc.isLt
  rw [State.parsingInv] at h
  rw [parseByte]
  cases hp : s.pState <;> rw [hp] at h
  case seekPreamble | readCommand | readByteCount => exact ⟨_, rfl⟩
  case readAddress => exact readAddress_completes b h
  case readStatus =>
    obtain ⟨hcnt, _⟩ := h
    exact readStatus_completes b hcnt
  case readData =>
    obtain ⟨hbc, hcnt⟩ := h
    exact readData_completes b (by omega) (by omega)
  case readChecksum => exact readChecksum_completes b h
  case readDelimiter | complete => exact h.elim

/-! ## The parser looks at the parser registers alone -/

/-- `u` with the parser registers of `s`. -/
def State.withParserOf (u s : State) : State :=
  { u with
    pState := s.pState
    pDelim := s.pDelim
    pLong := s.pLong
    pAddr := s.pAddr
    pCmd := s.pCmd
    pBc := s.pBc
    pStatus := s.pStatus
    pData := s.pData
    pCnt := s.pCnt
    pXor := s.pXor }

/-- `State.withParserOf` as the last of several meanings. -/
def adoptParser (u s : State) : Result := .next (u.withParserOf s)

theorem SameParser.refl (s : State) : SameParser s s := ⟨rfl, rfl, rfl, rfl, rfl, rfl, rfl, rfl, rfl, rfl⟩

theorem sameParser_withParserOf (u s : State) : SameParser s (u.withParserOf s) := .refl s

theorem SameParser.eq_withParserOf {s u : State} (h : SameParser s u) : u = u.withParserOf s := by
  obtain ⟨hstate, hdelim, hlong, haddr, hcmd, hbc, hstatus, hdata, hcnt, hxor⟩ := h
  rw [State.withParserOf, hstate, hdelim, hlong, haddr, hcmd, hbc, hstatus, hdata, hcnt, hxor]

theorem SameParser.trans {s t u : State} (h : SameParser s t) (h' : SameParser t u) : SameParser s u := by
  rw [h'.eq_withParserOf, h.eq_withParserOf]
  exact sameParser_withParserOf u s

theorem SameParser.symm {s t : State} (h : SameParser s t) : SameParser t s := by
  rw [h.eq_withParserOf]
  exact .refl s

/-- The reset of the parser writes `P_STATE` alone. -/
theorem SameParser.parserReset {s t : State} (h : SameParser s t) : SameParser (parserReset s) (parserReset t) := by
  rw [h.eq_withParserOf]
  exact sameParser_withParserOf (Machine.parserReset t) (Machine.parserReset s)

/-- What goes on in the session may reset the parser, and touches no other parser register. -/
theorem SameButProgress.sameParser_parserReset {s t : State} (h : SameButProgress s t) :
    SameParser (parserReset s) (parserReset t) := by
  rw [show t = _ from h]
  exact .refl (parserReset s)

/-- `NOTIFY` writes session and result registers; of the parser's it can only reset the state. -/
theorem sameParser_notifyFrame (f : CommandResult) (s : State) :
    SameParser (parserReset s) (parserReset (notifyFrame f s)) := by
  obtain ⟨u, hu, hwake⟩ := notifyFrame_cases f s
  have hlearned : SameParser s u := by
    rcases hu with ⟨_, rfl⟩ | ⟨_, rfl⟩
    · rcases learnFrom_cases f s with ⟨_, he⟩ | ⟨_, he⟩ <;> rw [he] <;> exact .refl s
    · exact .refl u
  have hlatched : SameParser u (latch f u) := by
    rcases latch_cases f u with ⟨_, _, he⟩ | ⟨_, he⟩ <;> rw [he] <;> exact .refl u
  have hreset := (hlearned.trans hlatched).parserReset
  rcases hwake with ⟨_, _, he⟩ | ⟨_, he⟩ <;> rw [he]
  · exact hreset.trans (resolveWait_frame _).left.sameParser_parserReset
  · exact hreset

section
variable (u s : State) (b : Byte)

@[simp] theorem withParserOf_pState : (u.withParserOf s).pState = s.pState := rfl

@[simp] theorem withParserOf_pAddr : (u.withParserOf s).pAddr = s.pAddr := rfl

@[simp] theorem withParserOf_pStatus : (u.withParserOf s).pStatus = s.pStatus := rfl

@[simp] theorem withParserOf_pCnt : (u.withParserOf s).pCnt = s.pCnt := rfl

@[simp] theorem withParserOf_pXor : (u.withParserOf s).pXor = s.pXor := rfl

theorem seekPreamble_withParserOf : seekPreamble b (u.withParserOf s) = u.withParserOf (seekPreamble b s) := by
  rw [seekPreamble, seekPreamble, apply_ite (State.withParserOf u)]
  rfl

theorem readAddress_withParserOf : readAddress b (u.withParserOf s) = andThen (readAddress b s) (adoptParser u) := by
  rw [readAddress, readAddress, withParserOf_pAddr, withParserOf_pCnt]
  cases setAddr s.pAddr s.pCnt.toNat b <;> rfl

theorem readByteCount_withParserOf : readByteCount b (u.withParserOf s) = u.withParserOf (readByteCount b s) := by
  rw [readByteCount, readByteCount, apply_ite (State.withParserOf u)]
  rfl

theorem readStatus_withParserOf : readStatus b (u.withParserOf s) = andThen (readStatus b s) (adoptParser u) := by
  rw [readStatus, readStatus, withParserOf_pStatus, withParserOf_pCnt]
  cases setStatus s.pStatus s.pCnt.toNat b with
  | none => rfl
  | some st =>
    rw [andThen_next, adoptParser, apply_ite (State.withParserOf u)]
    rfl

theorem readData_withParserOf : readData b (u.withParserOf s) = andThen (readData b s) (adoptParser u) := by
  rw [readData, readData, apply_ite (andThen · (adoptParser u)), apply_ite (andThen · (adoptParser u))]
  rfl

end

section
variable {s t u : State} {b : Byte}

/-- A meaning that commutes with taking over parser registers leaves the same ones behind. -/
theorem sameParser_of_commutes {r r' : Result} (h : r' = andThen r (adoptParser u)) (ht : r = .next t) :
    ∃ t', r' = .next t' ∧ SameParser t t' := by
  rw [h, ht]
  exact ⟨_, rfl, sameParser_withParserOf u t⟩

/-- The notification differs from block to block; the parser is reset after it in either. -/
theorem completeFrame_sameParser (h : SameParser s u) (ht : completeFrame s = .next t) :
    ∃ t', completeFrame u = .next t' ∧ SameParser t t' := by
  have hbc : s.pBc = u.pBc := by rw [h.eq_withParserOf]; rfl
  rcases completeFrame_cases s with ⟨htwo, he⟩ | ⟨_, he⟩ <;> rw [he] at ht <;> cases ht
  have hs := sameParser_notifyFrame (decodeRegs s) s
  have hu := sameParser_notifyFrame (decodeRegs u) u
  exact ⟨_, if_neg (Nat.not_lt.mpr (hbc ▸ htwo)), hs.symm.trans (h.parserReset.trans hu)⟩

theorem readChecksum_sameParser (h : SameParser s u) (ht : readChecksum b s = .next t) :
    ∃ t', readChecksum b u = .next t' ∧ SameParser t t' := by
  rw [h.eq_withParserOf]
  rcases readChecksum_cases b s with ⟨hb, he⟩ | ⟨hb, he⟩ <;> rw [he] at ht
  · rw [readChecksum, withParserOf_pXor, if_pos hb]
    exact completeFrame_sameParser (sameParser_withParserOf _ { s with pState := .complete }) ht
  · rw [readChecksum, withParserOf_pXor, if_neg hb]
    cases ht
    exact ⟨_, rfl, sameParser_withParserOf _ { s with pState := .seekPreamble }⟩

/-- Two blocks that agree on the parser registers agree on them after the same byte. -/
theorem parseByte_sameParser (h : SameParser s u) (ht : parseByte b s = .next t) :
    ∃ t', parseByte b u = .next t' ∧ SameParser t t' := by
  rw [h.eq_withParserOf]
  have hsame := sameParser_withParserOf u s
  rw [parseByte, withParserOf_pState]
  rw [parseByte] at ht
  cases hp : s.pState <;> rw [hp] at ht
  case seekPreamble =>
    exact sameParser_of_commutes (congrArg Host.Outcome.next (seekPreamble_withParserOf u s b)) ht
  case readDelimiter => exact sameParser_of_commutes (u := u) rfl ht
  case readAddress => exact sameParser_of_commutes (readAddress_withParserOf u s b) ht
  case readCommand => exact sameParser_of_commutes (u := u) rfl ht
  case readByteCount =>
    exact sameParser_of_commutes (congrArg Host.Outcome.next (readByteCount_withParserOf u s b)) ht
  case readStatus => exact sameParser_of_commutes (readStatus_withParserOf u s b) ht
  case readData => exact sameParser_of_commutes (readData_withParserOf u s b) ht
  case readChecksum => exact readChecksum_sameParser hsame ht
  case complete => exact completeFrame_sameParser hsame ht

end

/-! ## Chunks -/

/-- Chunks delivered one after another, after some result, are their bytes delivered after it. -/
theorem foldl_receiveBytes (chunks : List (List Byte)) (r : Result) :
    chunks.foldl (fun r chunk => andThen r (receiveBytes chunk)) r = andThen r (receiveBytes chunks.flatten) := by
  induction chunks generalizing r with
  | nil => cases r <;> rfl
  | cons chunk chunks ih =>
    rw [List.foldl_cons, ih, List.flatten_cons]
    cases r with
    | next s => exact (receiveBytes_append chunk chunks.flatten s).symm
    | fault e => rfl
    | refused e => rfl

end Sys2Proof.Machine

namespace Sys2Proof.Proofs

open Sys2Proof Sys2Proof.Machine

/-- Settles O23: a fill byte is skipped, and any other byte is read as the delimiter in the same handler. -/
theorem seekPreambleTakesDelimiter : Obligations.SeekPreambleTakesDelimiter := by
  intro s
  refine ⟨congrArg Host.Outcome.next (if_pos rfl), fun b hb => ⟨readDelimiter b s, ?_, rfl, rfl⟩⟩
  exact congrArg Host.Outcome.next (seekPreamble_of_ne_fill hb)

/-- Settles O25: `P_ADDR` has the byte at its index, and the count reaches 5 from 4 alone. -/
theorem readAddressAccumulates : Obligations.ReadAddressAccumulates := by
  intro s b hcnt
  have hfifth : s.pCnt + 1 = 5 ↔ s.pCnt = 4 := by bv_omega
  rcases readAddress_cases b s with ⟨a, ha, _, he⟩ | ⟨hge, _⟩
  · refine ⟨_, he, setAddr_toList ha, ?_⟩
    simp only [hfifth]
  · omega

/-- Settles O26: the byte count separates the two clauses of `ReadByteCount`. -/
theorem readCommandAndByteCount : Obligations.ReadCommandAndByteCount := by
  intro s b
  refine ⟨rfl, fun hlt => ?_, fun hle => ?_⟩
  · rcases readByteCount_cases b s with ⟨_, he⟩ | ⟨hle, _⟩
    · exact congrArg Host.Outcome.next he
    · omega
  · rcases readByteCount_cases b s with ⟨hlt, _⟩ | ⟨_, he⟩
    · omega
    · exact congrArg Host.Outcome.next he

/-- Settles O27: the count says which of the two status bytes is read. -/
theorem readStatusAccumulates : Obligations.ReadStatusAccumulates := by
  intro s b
  rcases readStatus_cases b s with ⟨h0, he⟩ | ⟨h1, he⟩ | ⟨h2, _⟩
  · refine ⟨fun _ => he, fun h1 => ?_⟩
    simp [h0] at h1
  · refine ⟨fun h0 => ?_, fun _ => he⟩
    simp [h1] at h0
  · refine ⟨fun h0 => ?_, fun h1 => ?_⟩
    · simp [h0] at h2
    · simp [h1] at h2

/-- Settles O28: one byte written into `P_DATA`, and the count compared with the byte count does not borrow. -/
theorem readDataAccumulates : Obligations.ReadDataAccumulates := by
  intro s b hwf hbc hcnt
  have hlast : s.pCnt + 1 = s.pBc - 2 ↔ s.pCnt.toNat + 1 = s.pBc.toNat - 2 := by bv_omega
  rcases readData_cases b s with ⟨_, _, he⟩ | ⟨hlt, _⟩ | ⟨_, hge, _⟩
  case inl =>
    refine ⟨_, he, Memory.read_writeBytes hwf s.pCnt.toNat [b], ?_⟩
    simp only [hlast]
  · omega
  · omega

/-- Settles O29: with the byte count at least 2 `Complete` is the notification of what `DECODE` reads, then the reset;
the checksum byte alone decides whether it runs. -/
theorem checksumDecidesNotification : Obligations.ChecksumDecidesNotification := by
  intro s b
  have hbound := s.pBc.isLt
  refine ⟨fun hb => if_neg hb, fun hbc => ?_, fun hb hbc => ?_⟩
  · refine ⟨notifyFrame (decodeRegs s) s, exec_notify_of_fits ?_ s, if_neg (by omega)⟩
    rw [Memory.length_readBytes]
    omega
  · obtain ⟨t, ht⟩ := completeFrame_completes (s := { s with pState := .complete }) hbc
    exact ⟨t, ht, (if_pos hb).trans ht⟩

/-- Settles O30: the log event touches no register that selects the row or that the invariants speak of. -/
theorem rxbyteRunsParserState : Obligations.RxbyteRunsParserState := by
  intro s b ho hparser hsize
  obtain ⟨hstatus, hchecksum, _⟩ := hsize
  have hparsing : s.parsingInv := s.parsingInv_iff.mpr ⟨hparser, hstatus, hchecksum⟩
  obtain ⟨t, ht⟩ := parseByte_completes (s := { s with outs := .evRxdump [b] :: s.outs }) b hparsing
  exact ⟨t, (exec_parserRow b { s with outs := .evRxdump [b] :: s.outs }).trans ht,
    (receiveByte_of_opened ho b).trans ht⟩

/-- Settles O31: `NOTIFY` in the order learn, latch, wake, each part by its own cases. -/
theorem notifyLearnsLatchesWakes : Obligations.NotifyLearnsLatchesWakes := by
  intro s f hwf hl
  obtain ⟨u, hu, hwake⟩ := notifyFrame_cases f s
  refine ⟨u, latch f u, notifyFrame f s, ?learned, ?latched, ?woken, exec_notify_of_fits hl s⟩
  case learned =>
    rcases hu with ⟨hzero, rfl⟩ | ⟨hother, rfl⟩
    · rw [if_pos hzero]
      rfl
    · rw [if_neg hother]
  case latched =>
    have hkept : Memory.wf u.resData = true := by
      rcases hu with ⟨_, rfl⟩ | ⟨_, rfl⟩
      · rcases learnFrom_cases f s with ⟨_, he⟩ | ⟨_, he⟩ <;> rw [he] <;> exact hwf
      · exact hwf
    rcases latch_cases f u with ⟨harmed, hclear, he⟩ | ⟨hnot, he⟩
    · rw [if_pos ⟨harmed, hclear⟩, he]
      exact ⟨Memory.read_writeBytes hkept 0 f.data, rfl, toNat_ofNat_byte (by omega)⟩
    · rw [if_neg hnot, he]
  case woken =>
    rcases hwake with ⟨hwait, hvalid, he⟩ | ⟨hnot, he⟩
    · rw [if_pos ⟨hwait, hvalid⟩, he]
      rfl
    · rw [if_neg hnot, he]

/-- Settles O54: chunks are delivered byte by byte, an event delivers one byte, and the log event of a byte touches no
parser register. -/
theorem chunkBoundariesUnobservable : Obligations.ChunkBoundariesUnobservable := by
  refine ⟨fun chunks s => foldl_receiveBytes chunks (.next s), fun _ _ _ hs => run_of_schedule_eq hs, ?_⟩
  intro b s s' t ho ho' hsame ht
  have hlogged : SameParser { s with outs := .evRxdump [b] :: s.outs } { s' with outs := .evRxdump [b] :: s'.outs } :=
    hsame
  obtain ⟨t', ht', hsame'⟩ := parseByte_sameParser hlogged ((receiveByte_of_opened ho b).symm.trans ht)
  exact ⟨t', (receiveByte_of_opened ho' b).trans ht', hsame'⟩

end Sys2Proof.Proofs

/-! The turnaround timer (spec/42_turnaround.md R160 to R172): what a `TICK` does in each state of the sequencer, the
hold time, what an attempt with a silent line does to its end, and which event puts bytes on the TX stream. -/

namespace Sys2Proof.Machine

/-! ## The hold time (spec/42_turnaround.md R161) -/

/-- `HOLD_MS` in numbers: the least count of ms that covers the bytes, and the fixed guard band. -/
theorem holdMs_eq_iff (n h : Nat) :
    holdMs n = h + 50 ↔ 91525 * n ≤ 10000 * h ∧ 10000 * h < 91525 * n + 10000 := by
  have hceil : holdMs n = (91525 * n + 10000 - 1) / 10000 + 50 := rfl
  omega

theorem holdMs_bounds (n : Nat) : 91525 * n + 500000 ≤ 10000 * holdMs n ∧ 10000 * holdMs n < 91525 * n + 510000 := by
  have hfixed : 50 ≤ holdMs n := Nat.le_add_left _ _
  obtain ⟨hcovers, hleast⟩ := (holdMs_eq_iff n (holdMs n - 50)).mp (by omega)
  omega

/-- The hold target of any frame that `TXBUF` can hold fits `S_HOLD_TARGET` (spec/10_state.md R47). -/
theorem holdTarget_toNat {n : Nat} (hn : n ≤ 519) : (BitVec.ofNat 13 (holdMs n)).toNat = holdMs n := by
  obtain ⟨_, hleast⟩ := holdMs_bounds n
  rw [BitVec.toNat_ofNat]
  omega

/-! ## The rows of `TICK`, branch by branch -/

section
variable {α : Type} {row below reached : α} {limit ms : Nat}

theorem eq_of_lt_of_cases (h : (ms < limit ∧ row = below) ∨ (limit ≤ ms ∧ row = reached)) (hlt : ms < limit) :
    row = below := by
  rcases h with ⟨_, he⟩ | ⟨hge, _⟩
  · exact he
  · omega

theorem eq_of_ge_of_cases (h : (ms < limit ∧ row = below) ∨ (limit ≤ ms ∧ row = reached)) (hge : limit ≤ ms) :
    row = reached := by
  rcases h with ⟨hlt, _⟩ | ⟨_, he⟩
  · omega
  · exact he

end

section
variable {s : State}

/-- A `TICK` is the row that `S_STATE` selects. -/
theorem exec_sequencerRow (s : State) : exec (sequencerRow s.sState) s = exec .tick s := by
  change _ = tickOnce s
  rw [tickOnce]
  cases s.sState <;> rfl

theorem exec_tick_eq_row {q : SState} (hq : s.sState = q) : exec .tick s = exec (sequencerRow q) s := by
  rw [← hq, exec_sequencerRow]

theorem exec_tickSettle_of_lt (h : nextMs s.sElapsed < 100) :
    exec .tickSettle s = .next { s with sElapsed := sat16Succ s.sElapsed } :=
  congrArg Host.Outcome.next (eq_of_lt_of_cases (tickInSettle_cases s) ((sat16Succ_toNat _).trans_lt h))

theorem exec_tickSettle_of_ge (h : 100 ≤ nextMs s.sElapsed) : exec .tickSettle s = exec .keyup s :=
  congrArg Host.Outcome.next (eq_of_ge_of_cases (tickInSettle_cases s) (h.trans_eq (sat16Succ_toNat _).symm))

theorem exec_tickGuard_of_lt (h : nextMs s.sElapsed < 5) :
    exec .tickGuard s = .next { s with sElapsed := sat16Succ s.sElapsed } :=
  eq_of_lt_of_cases (tickInGuard_cases s) ((sat16Succ_toNat _).trans_lt h)

theorem exec_tickGuard_of_ge (h : 5 ≤ nextMs s.sElapsed) :
    exec .tickGuard s = exec .startWrite { s with sElapsed := sat16Succ s.sElapsed } :=
  eq_of_ge_of_cases (tickInGuard_cases s) (h.trans_eq (sat16Succ_toNat _).symm)

theorem exec_startWrite_of_fits (h : s.txLen.toNat ≤ 519) :
    exec .startWrite s = .next { s with
      sTxElapsed := 0
      sHoldTarget := BitVec.ofNat 13 (holdMs s.txLen.toNat)
      sState := .write
      outs := .evTxdump (s.txBuf.readBytes 0 s.txLen.toNat) ::
        .txwrite (s.txBuf.readBytes 0 s.txLen.toNat) :: s.outs } := by
  rcases beginWrite_cases s with ⟨_, he⟩ | ⟨hgt, _⟩
  · exact he
  · omega

theorem exec_txwrite_of_fits (h : s.txLen.toNat ≤ 519) :
    exec .txwrite s = .next { s with outs := .txwrite (s.txBuf.readBytes 0 s.txLen.toNat) :: s.outs } := by
  change txWrite s = _
  rcases txFrame_cases s with ⟨_, he⟩ | ⟨hgt, _⟩
  · rw [txWrite, he]
    rfl
  · omega

theorem exec_tickHold_of_lt (h : nextMs s.sTxElapsed < s.sHoldTarget.toNat) :
    exec .tickHold s = .next { s with sTxElapsed := sat16Succ s.sTxElapsed } :=
  congrArg Host.Outcome.next (eq_of_lt_of_cases (tickInHold_cases s) ((sat16Succ_toNat _).trans_lt h))

theorem exec_tickHold_of_ge (h : s.sHoldTarget.toNat ≤ nextMs s.sTxElapsed) :
    exec .tickHold s = exec .enterWait { s with sTxElapsed := sat16Succ s.sTxElapsed, txEn := false } :=
  congrArg Host.Outcome.next (eq_of_ge_of_cases (tickInHold_cases s) (h.trans_eq (sat16Succ_toNat _).symm))

theorem exec_tickWait_of_lt (h : nextMs s.sElapsed < s.cfgTimeoutMs.toNat) :
    exec .tickWait s = .next { s with sElapsed := sat16Succ s.sElapsed } :=
  congrArg Host.Outcome.next (eq_of_lt_of_cases (tickInWait_cases s) ((sat16Succ_toNat _).trans_lt h))

theorem exec_tickWait_of_ge (h : s.cfgTimeoutMs.toNat ≤ nextMs s.sElapsed) :
    exec .tickWait s = exec .timeout { s with sElapsed := sat16Succ s.sElapsed } :=
  congrArg Host.Outcome.next (eq_of_ge_of_cases (tickInWait_cases s) (h.trans_eq (sat16Succ_toNat _).symm))

theorem exec_txdone_of_lt (hs : s.sState = .write) (h : s.sTxElapsed.toNat < s.sHoldTarget.toNat) :
    exec .txdone s = .next { s with sState := .hold } := by
  rcases execTxdone_cases s with ⟨_, _, he⟩ | ⟨_, hge, _⟩ | ⟨hne, _⟩
  · exact he
  · omega
  · exact absurd hs hne

theorem exec_txdone_of_ge (hs : s.sState = .write) (h : s.sHoldTarget.toNat ≤ s.sTxElapsed.toNat) :
    exec .txdone s = exec .enterWait { s with txEn := false } := by
  rcases execTxdone_cases s with ⟨_, hlt, _⟩ | ⟨_, _, he⟩ | ⟨hne, _⟩
  · omega
  · exact he
  · exact absurd hs hne

/-- A row that counts below its limit and goes on at it, where that completes. -/
theorem row_of_limit {row onLimit : Result} {counted u : State} {limit ms : Nat}
    (hlt : ms < limit → row = .next counted) (hge : limit ≤ ms → row = onLimit) (hu : onLimit = .next u) :
    ∃ t, row = .next t ∧ if limit ≤ ms then onLimit = .next t else t = counted := by
  by_cases h : limit ≤ ms
  · exact ⟨u, (hge h).trans hu, (if_pos h).mpr hu⟩
  · exact ⟨counted, hlt (by omega), (if_neg h).mpr rfl⟩

end

/-! ## `TICK` and `TXDONE` do not look at the events to come -/

section
variable (q : List Input) (s : State)

theorem timeoutWait_withSchedule : timeoutWait (s.withSchedule q) = (timeoutWait s).withSchedule q :=
  retryOr_withSchedule q { s with handlerArmed := false } .none

theorem enterWait_withSchedule : enterWait (s.withSchedule q) = (enterWait s).withSchedule q := by
  rw [enterWait, enterWait, apply_ite (State.withSchedule q), apply_ite (State.withSchedule q),
    ← resolveWait_withSchedule, ← timeoutWait_withSchedule]
  rfl

theorem tickInSettle_withSchedule : tickInSettle (s.withSchedule q) = (tickInSettle s).withSchedule q := by
  rw [tickInSettle, tickInSettle, apply_ite (State.withSchedule q)]
  rfl

theorem beginWrite_withSchedule : beginWrite (s.withSchedule q) = andThen (beginWrite s) (reschedule q) := by
  have hframe : txFrame (s.withSchedule q) = txFrame s := rfl
  rw [beginWrite, beginWrite, hframe]
  cases txFrame s <;> rfl

theorem tickInGuard_withSchedule : tickInGuard (s.withSchedule q) = andThen (tickInGuard s) (reschedule q) := by
  rw [tickInGuard, tickInGuard, apply_ite (andThen · (reschedule q)), ← beginWrite_withSchedule]
  rfl

theorem tickInHold_withSchedule : tickInHold (s.withSchedule q) = (tickInHold s).withSchedule q := by
  rw [tickInHold, tickInHold, apply_ite (State.withSchedule q), ← enterWait_withSchedule]
  rfl

theorem tickInWait_withSchedule : tickInWait (s.withSchedule q) = (tickInWait s).withSchedule q := by
  rw [tickInWait, tickInWait, apply_ite (State.withSchedule q), ← timeoutWait_withSchedule]
  rfl

theorem exec_tick_withSchedule : exec .tick (s.withSchedule q) = andThen (exec .tick s) (reschedule q) := by
  change tickOnce (s.withSchedule q) = andThen (tickOnce s) (reschedule q)
  have hstate : (s.withSchedule q).sState = s.sState := rfl
  rw [tickOnce, tickOnce, hstate]
  cases s.sState with
  | idle => rfl
  | settle => exact congrArg Host.Outcome.next (tickInSettle_withSchedule q s)
  | guard => exact tickInGuard_withSchedule q s
  | write => rfl
  | hold => exact congrArg Host.Outcome.next (tickInHold_withSchedule q s)
  | wait => exact congrArg Host.Outcome.next (tickInWait_withSchedule q s)

theorem exec_txdone_withSchedule : exec .txdone (s.withSchedule q) = andThen (exec .txdone s) (reschedule q) := by
  have hreleased : enterWait { s.withSchedule q with txEn := false } =
      (enterWait { s with txEn := false }).withSchedule q :=
    enterWait_withSchedule q { s with txEn := false }
  change execTxdone (s.withSchedule q) = andThen (execTxdone s) (reschedule q)
  rcases execTxdone_cases s with ⟨hs, hlt, he⟩ | ⟨hs, hge, he⟩ | ⟨hs, he⟩ <;> rw [he]
  · exact exec_txdone_of_lt (s := s.withSchedule q) hs hlt
  · exact (exec_txdone_of_ge (s := s.withSchedule q) hs hge).trans (congrArg Host.Outcome.next hreleased)
  · exact if_neg hs

end

/-! ## Runs over a stretch of events -/

/-- The events `es`, whatever comes behind them, take `s` to `t`. The schedules of `s` and `t` do not matter. -/
def Reaches (es : List Input) (s t : State) : Prop :=
  ∀ rest, Host.Core.run Sys2Proof.core es.length (s.withSchedule (es ++ rest)) = .next (t.withSchedule rest)

section
variable {es es' : List Input} {s t u : State}

theorem Reaches.refl (s : State) : Reaches [] s s := fun _ => rfl

theorem Reaches.trans (h : Reaches es s t) (h' : Reaches es' t u) : Reaches (es ++ es') s u := by
  intro rest
  rw [List.append_assoc, List.length_append, run_add (h _)]
  exact h' rest

/-- One event whose operation does not look at the events to come. -/
theorem Reaches.of_exec {e : Input} {i : Instr} (hi : eventInstr e = some i)
    (hq : ∀ q, exec i (s.withSchedule q) = andThen (exec i s) (reschedule q)) (h : exec i s = .next t) :
    Reaches [e] s t := by
  intro rest
  have hstep : step (s.withSchedule ([e] ++ rest)) = exec i (s.withSchedule rest) :=
    step_of_eventInstr_some (nextInput_cons rfl) hi
  rw [List.length_singleton, run_succ, hstep, hq, h]
  rfl

theorem Reaches.tick (h : exec .tick s = .next t) : Reaches [.tick] s t :=
  .of_exec eventInstr_tick (exec_tick_withSchedule · s) h

theorem Reaches.txdone (h : exec .txdone s = .next t) : Reaches [.txdone] s t :=
  .of_exec eventInstr_txdone (exec_txdone_withSchedule · s) h

theorem Reaches.then_tick {k : Nat} (h : Reaches (List.replicate k .tick) s t) (ht : exec .tick t = .next u) :
    Reaches (List.replicate (k + 1) .tick) s u := by
  rw [List.replicate_succ']
  exact h.trans (.tick ht)

/-- A stretch of ms, `f n` being the state after `n` of them. -/
theorem Reaches.ticks {f : Nat → State} {k : Nat} (h : ∀ n < k, exec .tick (f n) = .next (f (n + 1))) :
    Reaches (List.replicate k .tick) (f 0) (f k) := by
  induction k with
  | zero => exact .refl _
  | succ k ih => exact (ih fun n hn => h n (by omega)).then_tick (h k (by omega))

/-! ## Elapsed-time counters -/

/-- An elapsed-time counter `n` ms after it was cleared: it counts to 65535 and stays there. -/
def elapsedMs (n : Nat) : BitVec 16 := BitVec.ofNat 16 (min n 65535)

theorem elapsedMs_toNat (n : Nat) : (elapsedMs n).toNat = min n 65535 := by
  rw [elapsedMs, BitVec.toNat_ofNat]
  omega

theorem nextMs_elapsedMs (n : Nat) : nextMs (elapsedMs n) = min (n + 1) 65535 := by
  rw [nextMs, elapsedMs_toNat]
  omega

theorem sat16Succ_elapsedMs (n : Nat) : sat16Succ (elapsedMs n) = elapsedMs (n + 1) := by
  rw [sat16Succ_eq, nextMs_elapsedMs, elapsedMs]

/-- A counter that has counted to a limit holds the limit. -/
theorem elapsedMs_of_toNat (v : BitVec 16) : elapsedMs v.toNat = v := by
  have hv := v.isLt
  refine BitVec.eq_of_toNat_eq ?_
  rw [elapsedMs_toNat]
  omega

/-- A state that counts its ms, `f v` being it with the counter at `v`, and goes on by `r` at the tick that makes the
counter `m`: from `n` that is the tick number `m - n`. -/
theorem Reaches.counted {f : BitVec 16 → State} {r : BitVec 16 → Result} {n m : Nat}
    (hbelow : ∀ v, nextMs v < m → exec .tick (f v) = .next (f (sat16Succ v)))
    (hlimit : ∀ v, m ≤ nextMs v → exec .tick (f v) = r (sat16Succ v))
    (hn : n < m) (hm : m ≤ 65535) (ht : r (elapsedMs m) = .next t) :
    Reaches (List.replicate (m - n) .tick) (f (elapsedMs n)) t := by
  obtain ⟨k, rfl⟩ : ∃ k, m = n + (k + 1) := ⟨m - n - 1, by omega⟩
  have hcount : ∀ i < k, exec .tick (f (elapsedMs (n + i))) = .next (f (elapsedMs (n + (i + 1)))) := by
    intro i hi
    rw [hbelow _ (by rw [nextMs_elapsedMs]; omega), sat16Succ_elapsedMs, Nat.add_assoc]
  have hlast : exec .tick (f (elapsedMs (n + k))) = .next t := by
    rw [hlimit _ (by rw [nextMs_elapsedMs]; omega), sat16Succ_elapsedMs, Nat.add_assoc, ht]
  rw [Nat.add_sub_cancel_left]
  exact (Reaches.ticks (f := fun i => f (elapsedMs (n + i))) hcount).then_tick hlast

end

/-! ## An attempt on a silent line -/

/-- What an attempt armed in `s` has become `n` ms after its write began, the write still going on. -/
def State.writing (s : State) (n : Nat) : State :=
  { s with
    sState := .write
    txEn := true
    sElapsed := 5
    sTxElapsed := elapsedMs n
    sHoldTarget := BitVec.ofNat 13 (holdMs s.txLen.toNat)
    outs := .evTxdump (s.txBuf.readBytes 0 s.txLen.toNat) ::
      .txwrite (s.txBuf.readBytes 0 s.txLen.toNat) :: s.outs }

/-- What it has become when its line was released `n` ms after the write began and the wait ran to its limit. -/
def State.waitedOut (s : State) (n : Nat) : State :=
  { s.writing n with sState := .wait, txEn := false, sElapsed := s.cfgTimeoutMs }

section
variable {s : State}

/-- 100 ms of `SETTLE` end with the line keyed (spec/42_turnaround.md R163). -/
theorem settle_reaches_guard (hs : s.sState = .settle) (h0 : s.sElapsed = 0) :
    Reaches (List.replicate 100 .tick) s { s with txEn := true, sState := .guard, sElapsed := 0 } := by
  have hcounted : Reaches (List.replicate (100 - 0) .tick) { s with sElapsed := 0 } (keyUp s) :=
    Reaches.counted (f := fun v => { s with sElapsed := v }) (r := fun v => exec .keyup { s with sElapsed := v })
      (fun v hv => (exec_tick_eq_row (s := { s with sElapsed := v }) hs).trans (exec_tickSettle_of_lt hv))
      (fun v hv => (exec_tick_eq_row (s := { s with sElapsed := v }) hs).trans (exec_tickSettle_of_ge hv))
      (by decide) (by decide) rfl
  rwa [← h0] at hcounted

/-- 5 ms of `GUARD` end with the start of the write (spec/42_turnaround.md R164). -/
theorem guard_reaches_write (hl : s.txLen.toNat ≤ 519) :
    Reaches (List.replicate 5 .tick) { s with txEn := true, sState := .guard, sElapsed := 0 } (s.writing 0) :=
  Reaches.counted (f := fun v => { s with txEn := true, sState := .guard, sElapsed := v }) (n := 0)
    (r := fun v => exec .startWrite { s with txEn := true, sState := .guard, sElapsed := v })
    (fun _ hv => (exec_tick_eq_row rfl).trans (exec_tickGuard_of_lt hv))
    (fun _ hv => (exec_tick_eq_row rfl).trans (exec_tickGuard_of_ge hv)) (by decide) (by decide)
    (exec_startWrite_of_fits hl)

/-- `WRITE` counts as long as the transport takes (spec/42_turnaround.md R165). -/
theorem write_counts (s : State) (w : Nat) : Reaches (List.replicate w .tick) (s.writing 0) (s.writing w) := by
  refine Reaches.ticks fun n _ => ?_
  have hcount : exec .tickWrite (s.writing n) = .next { s.writing n with sTxElapsed := sat16Succ (elapsedMs n) } := rfl
  rw [exec_tick_eq_row rfl]
  exact hcount.trans (by rw [sat16Succ_elapsedMs]; rfl)

/-- A write that returns after `w` ms: the line is released `max(HOLD_MS(TX_LEN), w)` ms after it began
(spec/42_turnaround.md R166, R167). -/
theorem txdone_reaches_enterWait (hl : s.txLen.toNat ≤ 519) (w : Nat) :
    Reaches (.txdone :: List.replicate (max (holdMs s.txLen.toNat) w - w) .tick) (s.writing w)
      (enterWait { s.writing (max (holdMs s.txLen.toNat) w) with txEn := false }) := by
  obtain ⟨_, hbound⟩ := holdMs_bounds s.txLen.toNat
  have htarget : (s.writing w).sHoldTarget.toNat = holdMs s.txLen.toNat := holdTarget_toNat hl
  have hcounter : (s.writing w).sTxElapsed.toNat = min w 65535 := elapsedMs_toNat w
  rcases Nat.lt_or_ge w (holdMs s.txLen.toNat) with hlt | hge
  · have hdone : exec .txdone (s.writing w) = .next { s.writing w with sState := .hold } :=
      exec_txdone_of_lt rfl (by rw [htarget, hcounter]; omega)
    have hheld : Reaches (List.replicate (holdMs s.txLen.toNat - w) .tick) { s.writing w with sState := .hold }
        (enterWait { s.writing (holdMs s.txLen.toNat) with txEn := false }) :=
      Reaches.counted (f := fun v => { s.writing w with sState := .hold, sTxElapsed := v })
        (r := fun v => exec .enterWait { s.writing w with sState := .hold, sTxElapsed := v, txEn := false })
        (fun _ hv => (exec_tick_eq_row rfl).trans (exec_tickHold_of_lt (htarget.symm ▸ hv)))
        (fun _ hv => (exec_tick_eq_row rfl).trans (exec_tickHold_of_ge (htarget.symm ▸ hv))) hlt (by omega) rfl
    rw [max_eq_left hlt.le]
    exact (Reaches.txdone hdone).trans hheld
  · rw [max_eq_right hge, Nat.sub_self]
    exact .txdone (exec_txdone_of_ge rfl (by rw [htarget, hcounter]; omega))

/-- The wait for a response that does not come lasts `CFG_TIMEOUT_MS` ms, none where that is 0
(spec/43_session.md R191, R193). -/
theorem enterWait_reaches_timeout (hr : s.respValid = false) :
    Reaches (List.replicate s.cfgTimeoutMs.toNat .tick) (enterWait s)
      (timeoutWait { s with sState := .wait, sElapsed := s.cfgTimeoutMs }) := by
  rcases enterWait_cases s with ⟨hvalid, _⟩ | ⟨_, h0, he⟩ | ⟨_, hne, he⟩
  · rw [hr] at hvalid
    cases hvalid
  · rw [he, h0]
    exact .refl _
  · have hpos : 0 < s.cfgTimeoutMs.toNat := Nat.pos_of_ne_zero fun h => hne (BitVec.eq_of_toNat_eq h)
    have hlimit := s.cfgTimeoutMs.isLt
    rw [he]
    exact Reaches.counted (f := fun v => { s with sState := .wait, sElapsed := v }) (n := 0)
      (m := s.cfgTimeoutMs.toNat) (r := fun v => exec .timeout { s with sState := .wait, sElapsed := v })
      (fun _ hv => (exec_tick_eq_row rfl).trans (exec_tickWait_of_lt hv))
      (fun _ hv => (exec_tick_eq_row rfl).trans (exec_tickWait_of_ge hv)) hpos (by omega)
      (by rw [elapsedMs_of_toNat]; rfl)

theorem silentAttempt_eq (w n timeout : Nat) :
    silentAttempt w n timeout =
      List.replicate 100 .tick ++ List.replicate 5 .tick ++ List.replicate w .tick ++
        (.txdone :: List.replicate (max (holdMs n) w - w) .tick) ++ List.replicate timeout .tick := by
  change List.replicate (100 + 5 + w) _ ++ _ :: List.replicate (_ + timeout) _ = _
  rw [List.replicate_add, List.replicate_add, List.replicate_add, List.append_assoc _ (_ :: _), List.cons_append]

/-- An attempt on a silent line from `ARM` to `TIMEOUT`. -/
theorem silentAttempt_reaches_timeout (hs : s.sState = .settle) (h0 : s.sElapsed = 0) (hr : s.respValid = false)
    (hl : s.txLen.toNat ≤ 519) (w : Nat) :
    Reaches (silentAttempt w s.txLen.toNat s.cfgTimeoutMs.toNat) s
      (timeoutWait (s.waitedOut (max (holdMs s.txLen.toNat) w))) := by
  have hwait : Reaches (List.replicate s.cfgTimeoutMs.toNat .tick)
      (enterWait { s.writing (max (holdMs s.txLen.toNat) w) with txEn := false })
      (timeoutWait (s.waitedOut (max (holdMs s.txLen.toNat) w))) :=
    enterWait_reaches_timeout (s := { s.writing (max (holdMs s.txLen.toNat) w) with txEn := false }) hr
  rw [silentAttempt_eq]
  exact ((((settle_reaches_guard hs h0).trans (guard_reaches_write hl)).trans (write_counts s w)).trans
    (txdone_reaches_enterWait hl w)).trans hwait

theorem ticks_of_silentAttempt (w n timeout : Nat) :
    ((silentAttempt w n timeout).filter (· = Input.tick)).length = 100 + 5 + max (holdMs n) w + timeout := by
  have hparts : ((silentAttempt w n timeout).filter (· = Input.tick)).length =
      Config.settleMs + Config.guardMs + w + (max (holdMs n) w - w + timeout) := by
    simp [silentAttempt]
  have hfixed : Config.settleMs + Config.guardMs = 100 + 5 := rfl
  omega

end

/-! ## The TX stream (spec/42_turnaround.md R165) -/

section
variable {s t : State}

theorem txStream_of_outs_append {log : List Output} (h : t.outs = log ++ s.outs) :
    txStream t = txStream s ++ (log.reverse.map outputBytes).flatten := by
  rw [txStream, h, List.reverse_append, List.map_append, List.flatten_append, txStream]

/-- Log events and completions put no byte on the stream. -/
theorem txStream_of_silent_log (log : List Output) (h : t.outs = log ++ s.outs)
    (hlog : (log.reverse.map outputBytes).flatten = []) : txStream t = txStream s := by
  rw [txStream_of_outs_append h, hlog, List.append_nil]

theorem txStream_of_outs_eq (h : t.outs = s.outs) : txStream t = txStream s :=
  txStream_of_silent_log [] h rfl

theorem EndOfAttempt.txStream_eq (h : EndOfAttempt s t) : txStream t = txStream s := by
  obtain ⟨_, hstream, _⟩ := h
  exact hstream

theorem tickInSettle_txStream (s : State) : txStream (tickInSettle s) = txStream s := by
  rcases tickInSettle_cases s with ⟨_, he⟩ | ⟨_, he⟩ <;> rw [he] <;> exact txStream_of_outs_eq rfl

theorem tickInHold_txStream (s : State) : txStream (tickInHold s) = txStream s := by
  rcases tickInHold_cases s with ⟨_, he⟩ | ⟨_, he⟩ <;> rw [he]
  · exact txStream_of_outs_eq rfl
  · exact (enterWait_frame _).txStream_eq.trans (txStream_of_outs_eq rfl)

theorem tickInWait_txStream (s : State) : txStream (tickInWait s) = txStream s := by
  rcases tickInWait_cases s with ⟨_, he⟩ | ⟨_, he⟩ <;> rw [he]
  · exact txStream_of_outs_eq rfl
  · exact (timeoutWait_frame _).txStream_eq.trans (txStream_of_outs_eq rfl)

/-- `START_WRITE` puts the frame of `TXBUF` on the stream, once, and enters `WRITE`. -/
theorem beginWrite_txStream (h : beginWrite s = .next t) :
    t.sState = .write ∧ t.txEn = s.txEn ∧ txStream t = txStream s ++ Memory.readBytes s.txBuf 0 s.txLen.toNat := by
  rcases beginWrite_cases s with ⟨_, he⟩ | ⟨_, he⟩ <;> rw [he] at h <;> cases h
  refine ⟨rfl, rfl, ?_⟩
  rw [txStream_of_outs_append (s := s) (log := [.evTxdump _, .txwrite _]) rfl]
  simp [outputBytes]

/-- What a step may put on the TX stream: nothing, or, from `GUARD` with the line as it is, the frame of `TXBUF`. -/
def SendsNothingOrFrame (s t : State) : Prop :=
  txStream t = txStream s ∨
  (s.sState = .guard ∧ t.sState = .write ∧ t.txEn = s.txEn ∧
    txStream t = txStream s ++ Memory.readBytes s.txBuf 0 s.txLen.toNat)

theorem tick_sends (h : exec .tick s = .next t) : SendsNothingOrFrame s t := by
  rcases exec_tick_cases s with ⟨_, he⟩ | ⟨_, he⟩ | ⟨hs, he⟩ | ⟨_, he⟩ | ⟨_, he⟩ | ⟨_, he⟩ <;> rw [he] at h
  case inr.inr.inl =>
    rcases tickInGuard_cases s with ⟨_, hg⟩ | ⟨_, hg⟩ <;> rw [hg] at h
    · cases h
      exact .inl (txStream_of_outs_eq rfl)
    · have hwritten := beginWrite_txStream h
      exact .inr ⟨hs, hwritten⟩
  all_goals
    cases h
    refine .inl ?_
  · rfl
  · exact tickInSettle_txStream s
  · exact txStream_of_outs_eq rfl
  · exact tickInHold_txStream s
  · exact tickInWait_txStream s

theorem txdone_txStream (h : exec .txdone s = .next t) : txStream t = txStream s := by
  change execTxdone s = .next t at h
  rcases execTxdone_cases s with ⟨_, _, he⟩ | ⟨_, _, he⟩ | ⟨_, he⟩ <;> rw [he] at h <;> cases h
  · exact txStream_of_outs_eq rfl
  · exact (enterWait_frame _).txStream_eq.trans (txStream_of_outs_eq rfl)

theorem xfault_txStream (h : exec .xfault s = .next t) : txStream t = txStream s := by
  rcases execXfault_cases s with ⟨_, he⟩ | ⟨_, he⟩ <;> rw [he] at h <;> cases h
  · rfl
  · exact (retryOr_frame .none _).txStream_eq.trans (txStream_of_outs_eq rfl)

/-! ### A received byte -/

theorem SameButParser.outs_eq (h : SameButParser s t) : t.outs = s.outs := by
  rw [show t = _ from h]

theorem learnFrom_outs (f : CommandResult) (s : State) : (learnFrom f s).outs = s.outs := by
  rcases learnFrom_cases f s with ⟨_, he⟩ | ⟨_, he⟩ <;> rw [he]

theorem latch_outs (f : CommandResult) (s : State) : (latch f s).outs = s.outs := by
  rcases latch_cases f s with ⟨_, _, he⟩ | ⟨_, he⟩ <;> rw [he]

theorem notifyFrame_txStream (f : CommandResult) (s : State) : txStream (notifyFrame f s) = txStream s := by
  obtain ⟨u, hu, hw⟩ := notifyFrame_cases f s
  have hlatched : txStream (latch f u) = txStream s := by
    refine txStream_of_outs_eq ((latch_outs f u).trans ?_)
    rcases hu with ⟨_, rfl⟩ | ⟨_, rfl⟩
    · exact learnFrom_outs f s
    · rfl
  rcases hw with ⟨_, _, he⟩ | ⟨_, he⟩ <;> rw [he]
  · exact (resolveWait_frame _).txStream_eq.trans hlatched
  · exact hlatched

theorem completeFrame_txStream (h : completeFrame s = .next t) : txStream t = txStream s := by
  rcases completeFrame_cases s with ⟨_, he⟩ | ⟨_, he⟩ <;> rw [he] at h <;> cases h
  exact notifyFrame_txStream _ s

theorem parseByte_txStream {b : Byte} (h : parseByte b s = .next t) : txStream t = txStream s := by
  rcases parseByte_sameButParser_or_completes h with hsame | ⟨u, hsame, hdone⟩
  · exact txStream_of_outs_eq hsame.outs_eq
  · exact (completeFrame_txStream hdone).trans (txStream_of_outs_eq hsame.outs_eq)

theorem rxbyte_txStream {b : Byte} (h : exec (.rxbyte b) s = .next t) : txStream t = txStream s := by
  change receiveByte b s = .next t at h
  rcases receiveByte_cases b s with ⟨_, he⟩ | ⟨_, he⟩ <;> rw [he] at h
  · exact (parseByte_txStream h).trans (txStream_of_silent_log [.evRxdump [b]] rfl rfl)
  · cases h
    rfl

/-! ### A host operation -/

theorem openPort_txStream (s : State) : txStream (openPort s) = txStream s := by
  rcases openPort_cases s with ⟨_, he⟩ | ⟨_, _, he⟩ | ⟨_, _, code, _, he⟩ <;> rw [he]
  · exact txStream_of_silent_log [.done _] rfl rfl
  · exact txStream_of_silent_log [.done _, .subscribe, .cfgport _ _ _ _] rfl rfl
  · exact txStream_of_silent_log [.done code, .cfgport _ _ _ _] rfl rfl

theorem closePort_txStream (s : State) : txStream (closePort s) = txStream s := by
  rcases closePort_cases s with ⟨_, he⟩ | ⟨_, he⟩ <;> rw [he]
  · exact txStream_of_silent_log [.done _, .release, .unsubscribe] rfl rfl
  · exact txStream_of_silent_log [.done _] rfl rfl

/-- `SEND` and `SENDZ` put the frame into `TXBUF` only; with the port closed they complete at once. -/
theorem sendRequest_txStream (cmd len : Byte) (data : List Byte) (s : State) :
    txStream (sendRequest cmd len data s) = txStream s := by
  rcases sendRequest_cases cmd len data s with ⟨_, _, he⟩ | ⟨_, _, he⟩ | ⟨_, he⟩ <;> rw [he]
  · exact txStream_of_outs_eq rfl
  · exact txStream_of_outs_eq rfl
  · exact txStream_of_silent_log [.done _] rfl rfl

theorem sendZero_txStream (s : State) : txStream (sendZero s) = txStream s := by
  rcases sendZero_cases s with ⟨_, he⟩ | ⟨_, he⟩ <;> rw [he]
  · exact txStream_of_outs_eq rfl
  · exact txStream_of_silent_log [.done _] rfl rfl

theorem hostop_txStream {w : HostWord} {bytes : List Byte} (h : exec (.hostop w bytes) s = .next t) :
    txStream t = txStream s := by
  obtain ⟨_, hcases⟩ := execHostop_cases h
  rcases hcases with ⟨_, rfl⟩ | ⟨_, rfl⟩ | ⟨_, rfl⟩ | ⟨_, _, _, _, rfl⟩ | ⟨_, rfl⟩ |
    ⟨_, _, rfl⟩ | ⟨_, _, rfl⟩ | ⟨_, _, rfl⟩ | ⟨_, _, rfl⟩
  case inr.inl => exact openPort_txStream s
  case inr.inr.inl => exact closePort_txStream s
  case inr.inr.inr.inl => exact sendRequest_txStream _ _ _ s
  case inr.inr.inr.inr.inl => exact sendZero_txStream s
  all_goals exact txStream_of_silent_log [.done _] rfl rfl

/-- Every event but the `TICK` that ends the guard leaves the TX stream as it was. -/
theorem step_sends (h : step s = .next t) : SendsNothingOrFrame s t := by
  have dequeued {rest} (ht : txStream t = txStream { s with schedule := rest }) : SendsNothingOrFrame s t :=
    .inl (ht.trans (txStream_of_outs_eq rfl))
  rcases step_cases s with ⟨_, he⟩ | ⟨b, rest, _, he⟩ | ⟨rest, _, he⟩ | ⟨rest, _, he⟩ | ⟨rest, _, he⟩ |
    ⟨_, rest, _, he⟩ | ⟨w, bytes, rest, _, he⟩ <;> rw [he] at h
  case inl => exact tick_sends h
  case inr.inr.inl =>
    have hs : SendsNothingOrFrame { s with schedule := rest } t := tick_sends h
    exact hs
  · exact dequeued (rxbyte_txStream h)
  · exact dequeued (txdone_txStream h)
  · exact dequeued (xfault_txStream h)
  · cases h
    exact .inl (txStream_of_outs_eq rfl)
  · exact dequeued (hostop_txStream h)

end

end Sys2Proof.Machine

namespace Sys2Proof.Proofs

open Sys2Proof Sys2Proof.Machine

/-- Settles O52: the attempt runs through `SETTLE`, `GUARD`, `WRITE`, `HOLD` and `WAIT` to its timeout, which does not
look at the events to come either. -/
theorem silentAttemptDuration : Obligations.SilentAttemptDuration := by
  intro s w rest frame events hs h0 hr hl hsched
  refine ⟨ticks_of_silentAttempt w _ _, ?_⟩
  have hstart : s.withSchedule (events ++ rest) = s := by
    rw [← hsched]
    rfl
  have hrun := silentAttempt_reaches_timeout hs h0 hr hl w rest
  refine ⟨(s.waitedOut (max (holdMs s.txLen.toNat) w)).withSchedule rest, _, hstart ▸ hrun, ?_, rfl,
    holdTarget_toNat hl⟩
  exact congrArg Host.Outcome.next (timeoutWait_withSchedule rest _)

/-- Settles O59: the frame goes out from `GUARD` only, where by the line discipline the line is keyed. -/
theorem transmitsOnlyWhileKeyed : Obligations.TransmitsOnlyWhileKeyed := by
  intro s t hinv h
  refine (step_sends h).imp_right fun ⟨hs, ht, hline, hstream⟩ => ⟨hs, ht, hline.trans ?_, hstream⟩
  obtain ⟨⟨hdiscipline, _, _⟩, _, _⟩ := hinv
  exact hdiscipline.mpr (.inl hs)

/-- Settles O34: `IDLE` and `WRITE` have one branch, `SETTLE` one on each side of 100 ms. -/
theorem tickSettlesThenKeysUp : Obligations.TickSettlesThenKeysUp :=
  fun _ => ⟨rfl, rfl, exec_tickSettle_of_lt, exec_tickSettle_of_ge⟩

/-- Settles O35: the hold target fits its register, so the state after `START_WRITE` holds `HOLD_MS` itself. -/
theorem guardEndsWithTheWrite : Obligations.GuardEndsWithTheWrite := by
  intro s hl frame
  refine ⟨exec_txwrite_of_fits hl, ⟨_, exec_startWrite_of_fits hl, holdTarget_toNat hl, rfl⟩,
    exec_tickGuard_of_lt, fun hge => ?_⟩
  have hwrite := exec_startWrite_of_fits (s := { s with sElapsed := sat16Succ s.sElapsed }) hl
  exact ⟨_, hwrite, (exec_tickGuard_of_ge hge).trans hwrite⟩

/-- Settles O36: the row `HOLD` is `TICK` in `HOLD`; both it and `TXDONE` branch on the hold target. -/
theorem holdEndsAtItsTarget : Obligations.HoldEndsAtItsTarget :=
  fun _ => ⟨fun hlt => ⟨exec_tickHold_of_lt hlt, exec_tickHold_of_lt hlt⟩,
    fun hge => ⟨_, rfl, exec_tickHold_of_ge hge, exec_tickHold_of_ge hge⟩,
    exec_txdone_of_lt, fun hs hge => ⟨_, rfl, exec_txdone_of_ge hs hge⟩⟩

/-- Settles O38: `TICK` is the row of its state; four of the rows have a limit, at which each of them completes. -/
theorem tickHandlesSequencerState : Obligations.TickHandlesSequencerState := by
  intro s hl e x
  have helapsed : e.sElapsed.toNat = nextMs s.sElapsed := sat16Succ_toNat s.sElapsed
  have htxElapsed : x.sTxElapsed.toNat = nextMs s.sTxElapsed := sat16Succ_toNat s.sTxElapsed
  rw [helapsed, htxElapsed]
  cases hq : s.sState with
  | idle => exact ⟨s, exec_tick_eq_row hq, rfl, rfl⟩
  | settle =>
    obtain ⟨t, hrow, hbranch⟩ := row_of_limit exec_tickSettle_of_lt exec_tickSettle_of_ge rfl
    exact ⟨t, (exec_tick_eq_row hq).trans hrow, hrow, hbranch⟩
  | guard =>
    obtain ⟨t, hrow, hbranch⟩ :=
      row_of_limit exec_tickGuard_of_lt exec_tickGuard_of_ge (exec_startWrite_of_fits (s := e) hl)
    exact ⟨t, (exec_tick_eq_row hq).trans hrow, hrow, hbranch⟩
  | write => exact ⟨x, exec_tick_eq_row hq, rfl, rfl⟩
  | hold =>
    obtain ⟨t, hrow, hbranch⟩ := row_of_limit exec_tickHold_of_lt exec_tickHold_of_ge rfl
    exact ⟨t, (exec_tick_eq_row hq).trans hrow, hrow, hbranch⟩
  | wait =>
    obtain ⟨t, hrow, hbranch⟩ := row_of_limit exec_tickWait_of_lt exec_tickWait_of_ge rfl
    exact ⟨t, (exec_tick_eq_row hq).trans hrow, hrow, hbranch⟩

/-- Settles O40: the bounds follow from `HOLD_MS` being a ceiling; the six values are computed. -/
theorem holdTimeIsCeiling : Obligations.HoldTimeIsCeiling := by
  refine ⟨holdMs_eq_iff, fun n hlo hhi => ?_, rfl, rfl, rfl, rfl, rfl, rfl⟩
  obtain ⟨hcovers, hleast⟩ := holdMs_bounds n
  omega

end Sys2Proof.Proofs

/-! The session's operations (spec/43_session.md R180 to R202): what each host operation and each step of the
request/response protocol does, and the exchange of `SENDZ` on a silent line to its end. -/

namespace Sys2Proof.Machine

section
variable {s : State}

/-! ## Accepting and refusing -/

theorem acceptIdle_of_idle (hi : s.sState = .idle) (f : State → Result) : acceptIdle f s = f s := if_pos hi

theorem exec_hostOpen_of_idle (hi : s.sState = .idle) : exec .hostOpen s = .next (openPort s) := if_pos hi

theorem exec_hostClose_of_idle (hi : s.sState = .idle) : exec .hostClose s = .next (closePort s) := if_pos hi

theorem exec_hostSendz_of_idle (hi : s.sState = .idle) : exec .hostSendz s = .next (sendZero s) := if_pos hi

theorem sendChecked_of_length {cmd len : Byte} {data : List Byte} (hl : data.length = len.toNat) (s : State) :
    sendChecked cmd len data s = .next (sendRequest cmd len data s) := if_pos hl

theorem sendChecked_of_length_ne {cmd len : Byte} {data : List Byte} (hl : data.length ≠ len.toNat) (s : State) :
    sendChecked cmd len data s = .refused .operandCount := if_neg hl

theorem exec_hostSend_of_idle {cmd len : Byte} {data : List Byte} (hi : s.sState = .idle)
    (hl : data.length = len.toNat) : exec (.hostSend cmd len data) s = .next (sendRequest cmd len data s) :=
  (acceptIdle_of_idle hi (sendChecked cmd len data)).trans (sendChecked_of_length hl s)

/-- A host word with its operand bytes is an operation only if, for `SEND`, the bytes number `len`. -/
theorem length_eq_of_decode_send {w : HostWord} {bytes : List Byte} {i : Instr} {cmd len : Byte}
    (h : decode (.hostw w bytes) = .ok i) (hd : decodeHostOp w = some (.opSend cmd len)) :
    bytes.length = len.toNat := by
  by_contra hl
  simp [decode, decodeHostWord, hd, hl] at h

/-- In `IDLE` a host word completes, `SEND` if its operand bytes number `len`. -/
theorem hostop_completes {w : HostWord} {bytes : List Byte} (hi : s.sState = .idle)
    (hl : ∀ cmd len, decodeHostOp w = some (.opSend cmd len) → bytes.length = len.toNat) :
    ∃ t, exec (.hostop w bytes) s = .next t := by
  have hrun : exec (.hostop w bytes) s = runHostWord w bytes s := acceptIdle_of_idle hi _
  rw [hrun, runHostWord]
  cases hd : decodeHostOp w with
  | none => exact ⟨_, rfl⟩
  | some op =>
    cases op with
    | opSend cmd len => exact ⟨_, sendChecked_of_length (hl cmd len hd) s⟩
    | _ => exact ⟨_, rfl⟩

/-! ## The end of an attempt, as relations -/

theorem startExchange_started (c : Command) (hwf : Memory.wf s.txBuf = true) :
    ExchangeStarted c s (startExchange c s) :=
  ⟨encodeInto_stored c hwf, rfl⟩

theorem finishWith_finished (code : FinishCode) (hwf : Memory.wf s.txBuf = true) :
    ExchangeFinished (doneOfFinish code) s (finishWith code s) := by
  rcases finishWith_cases code s with ⟨hp, he⟩ | ⟨hp, he⟩ <;> rw [he]
  · exact .inl ⟨hp, rfl⟩
  · rw [startExchange_with_sState _ _ { s with sPhase := false }]
    exact .inr ⟨hp, startExchange_started (s := { s with sPhase := false }) _ hwf⟩

theorem retryOr_retried (code : RetryCode) (hwf : Memory.wf s.txBuf = true) :
    AttemptRetried (doneOfFinish (finishOfRetry code)) s (retryOr code s) := by
  rcases retryOr_cases code s with ⟨h0, he⟩ | ⟨hne, he⟩ <;> rw [he]
  · exact .inl ⟨h0, finishWith_finished _ hwf⟩
  · exact .inr ⟨hne, rfl⟩

theorem classifyByte_retried {b : Byte} (hb : b.getLsbD 7 = true) (hwf : Memory.wf s.txBuf = true) :
    AttemptRetried .commfault { s with outs := .evCommfault (commFlags b) :: s.outs } (classifyByte b s) := by
  have he : classifyByte b s = retryOr .commfault { s with outs := .evCommfault (commFlags b) :: s.outs } := if_pos hb
  rw [he]
  exact retryOr_retried .commfault hwf

theorem classifyByte_finished {b : Byte} (hb : b.getLsbD 7 = false) (hwf : Memory.wf s.txBuf = true) :
    ExchangeFinished .success s (classifyByte b s) := by
  have he : classifyByte b s = finishWith .success s := if_neg (Bool.eq_false_iff.mp hb)
  rw [he]
  exact finishWith_finished .success hwf

/-! ## Sending -/

theorem sendZero_of_opened (ho : s.opened = true) :
    sendZero s = startExchange (zeroCommand s) { s with reqOp := 4, sPhase := false } := if_pos ho

theorem sendZero_of_closed (ho : s.opened = false) : sendZero s = { s with outs := .done .none :: s.outs } :=
  if_neg (Bool.eq_false_iff.mp ho)

theorem sendRequest_of_closed (ho : s.opened = false) (cmd len : Byte) (data : List Byte) :
    sendRequest cmd len data s = { s with outs := .done .none :: s.outs } := if_neg (Bool.eq_false_iff.mp ho)

/-- The command that `BUILD` makes of the operands just stored. -/
theorem buildCommand_storeRequest {cmd len : Byte} {data : List Byte} (hl : data.length = len.toNat)
    (hwf : Memory.wf s.reqData = true) :
    buildCommand (storeRequest cmd len data s) =
      ⟨s.cfgPreamble, if s.curAddrValid then some s.curAddr else none, cmd, [], data⟩ := by
  have hdata : Memory.readBytes (Memory.writeBytes s.reqData 0 data) 0 len.toNat = data :=
    hl ▸ Memory.readBytes_writeBytes hwf 0 data
  exact congrArg (Command.mk s.cfgPreamble _ cmd []) hdata

/-! ## `SENDZ` does not look at the events to come -/

theorem sendZero_withSchedule (q : List Input) (s : State) :
    sendZero (s.withSchedule q) = (sendZero s).withSchedule q := by
  rw [sendZero, sendZero, apply_ite (State.withSchedule q)]
  rfl

theorem exec_hostSendz_withSchedule (q : List Input) (s : State) :
    exec .hostSendz (s.withSchedule q) = andThen (exec .hostSendz s) (reschedule q) := by
  change execHostSendz (s.withSchedule q) = andThen (execHostSendz s) (reschedule q)
  rw [execHostSendz, execHostSendz, acceptIdle, acceptIdle, apply_ite (andThen · (reschedule q)),
    sendZero_withSchedule]
  rfl

/-! ## An exchange on a silent line -/

/-- The exchange of one command has an attempt armed that will write `frame`. -/
structure State.ReadyToSend (frame : List Byte) (s : State) : Prop where
  settling : s.sState = .settle
  fresh : s.sElapsed = 0
  clear : s.respValid = false
  phase : s.sPhase = false
  fits : s.txLen.toNat ≤ 519
  holds : Memory.readBytes s.txBuf 0 s.txLen.toNat = frame

theorem startExchange_readyToSend {c : Command} (hc : c.data.length ≤ 255) (hwf : Memory.wf s.txBuf = true)
    (hp : s.sPhase = false) : (startExchange c s).ReadyToSend (requestFrame c) := by
  have hlen : (startExchange c s).txLen.toNat = (requestFrame c).length := encodeInto_txLen_toNat (s := s) hc
  refine ⟨rfl, rfl, rfl, hp, hlen ▸ requestFrame_fits hc, ?_⟩
  rw [hlen]
  exact Memory.readBytes_writeBytes hwf 0 (requestFrame c)

section
variable {frame : List Byte}

theorem State.ReadyToSend.txLen (h : s.ReadyToSend frame) : s.txLen.toNat = frame.length := by
  rw [← h.holds, Memory.length_readBytes]

theorem State.ReadyToSend.silentAttempt (h : s.ReadyToSend frame) (w : Nat) :
    Reaches (silentAttempt w frame.length s.cfgTimeoutMs.toNat) s
      (timeoutWait (s.waitedOut (max (holdMs frame.length) w))) := by
  rw [← h.txLen]
  exact silentAttempt_reaches_timeout h.settling h.fresh h.clear h.fits w

/-- The retry that `TIMEOUT` arms while the budget lasts. -/
def State.retried (s : State) (n : Nat) : State :=
  arm { s.waitedOut n with handlerArmed := false, retryBudget := s.retryBudget - 1 }

theorem timeoutWait_of_budget (h : s.retryBudget ≠ 0) (n : Nat) : timeoutWait (s.waitedOut n) = s.retried n :=
  if_neg h

/-- A retry writes the frame of the attempt before it (spec/20_memory.md R75). -/
theorem State.ReadyToSend.retried (h : s.ReadyToSend frame) (n : Nat) : (s.retried n).ReadyToSend frame :=
  ⟨rfl, rfl, rfl, h.phase, h.fits, h.holds⟩

/-- From `s`, `n` attempts have written `frame` and the exchange has completed with `NONE`. -/
structure CompletedSilently (frame : List Byte) (n : Nat) (s t : State) : Prop where
  log : t.outs = .done .none :: ((List.replicate n [Output.evTxdump frame, Output.txwrite frame]).flatten ++ s.outs)
  idle : t.sState = .idle
  released : t.txEn = false
  disarmed : t.handlerArmed = false
  spent : t.retryBudget = 0
  address : t.addressRegs = s.addressRegs

/-- The last attempt: no retry is left. -/
theorem State.ReadyToSend.completes (h : s.ReadyToSend frame) (h0 : s.retryBudget = 0) (n : Nat) :
    CompletedSilently frame 1 s (timeoutWait (s.waitedOut n)) := by
  have hfinish : timeoutWait (s.waitedOut n) = finishWith .none { s.waitedOut n with handlerArmed := false } :=
    if_pos h0
  rcases finishWith_cases .none { s.waitedOut n with handlerArmed := false } with ⟨_, he⟩ | ⟨hp, _⟩
  · rw [hfinish, he]
    exact ⟨by rw [← h.holds]; rfl, rfl, rfl, rfl, h0, rfl⟩
  · exact absurd (h.phase.symm.trans hp) nofun

/-- The attempt before the others. -/
theorem CompletedSilently.after_retry {k n : Nat} {t : State} (h : s.ReadyToSend frame)
    (ht : CompletedSilently frame k (s.retried n) t) : CompletedSilently frame (k + 1) s t := by
  have hlog : (s.retried n).outs = [.evTxdump frame, .txwrite frame] ++ s.outs := by rw [← h.holds]; rfl
  refine { ht with log := ?_ }
  rw [ht.log, hlog, List.replicate_succ', List.flatten_concat, List.append_assoc]

/-- With `k` retries left a silent line takes `k + 1` attempts (spec/43_session.md R201). -/
theorem silentAttempts_complete (w : Nat) {k : Nat} (h : s.ReadyToSend frame) (hk : s.retryBudget.toNat = k) :
    ∃ t, Reaches (List.replicate (k + 1) (silentAttempt w frame.length s.cfgTimeoutMs.toNat)).flatten s t ∧
      CompletedSilently frame (k + 1) s t := by
  induction k generalizing s with
  | zero =>
    have h0 : s.retryBudget = 0 := BitVec.eq_of_toNat_eq hk
    refine ⟨timeoutWait (s.waitedOut (max (holdMs frame.length) w)), ?_, h.completes h0 _⟩
    rw [List.replicate_one, List.flatten_singleton]
    exact h.silentAttempt w
  | succ k ih =>
    have hne : s.retryBudget ≠ 0 := by bv_omega
    have hless : (s.retryBudget - 1).toNat = k := by bv_omega
    obtain ⟨t, hrest, ht⟩ := ih (h.retried (max (holdMs frame.length) w)) hless
    refine ⟨t, ?_, ht.after_retry h⟩
    rw [List.replicate_succ, List.flatten_cons]
    exact (timeoutWait_of_budget hne _ ▸ h.silentAttempt w).trans hrest

end

/-! ## `ENTER_WAIT`, branch by branch -/

theorem enterWait_of_latched (hr : s.respValid = true) :
    enterWait s = resolveWait { s with sState := .wait, sElapsed := 0 } := if_pos hr

theorem enterWait_of_noTime (hr : s.respValid = false) (h0 : s.cfgTimeoutMs = 0) :
    enterWait s = timeoutWait { s with sState := .wait, sElapsed := 0 } :=
  (if_neg (Bool.eq_false_iff.mp hr)).trans (if_pos h0)

theorem enterWait_of_time (hr : s.respValid = false) (hne : s.cfgTimeoutMs ≠ 0) :
    enterWait s = { s with sState := .wait, sElapsed := 0 } :=
  (if_neg (Bool.eq_false_iff.mp hr)).trans (if_neg hne)

end

end Sys2Proof.Machine

namespace Sys2Proof.Proofs

open Sys2Proof Sys2Proof.Machine

/-- Settles O53: `SENDZ` makes the first attempt ready with the configured number of retries, and the attempts follow
one another, each writing the same frame, until no retry is left. -/
theorem silentLineAttemptCount : Obligations.SilentLineAttemptCount := by
  intro s w rest frame attempts events hi ho hwf hsched
  have hstart : s.withSchedule (events ++ rest) = s := by
    rw [← hsched]
    rfl
  have hsendz : exec .hostSendz s = .next _ :=
    (exec_hostSendz_of_idle hi).trans (congrArg Host.Outcome.next (sendZero_of_opened ho))
  have hready := startExchange_readyToSend (s := { s with reqOp := 4, sPhase := false }) (c := zeroCommand s)
    (Nat.zero_le _) hwf rfl
  obtain ⟨t, hattempts, ht⟩ := silentAttempts_complete w hready rfl
  have hstarted := Reaches.of_exec (e := .hostop 4 []) (i := .hostSendz) (eventInstr_hostop_of_decode_ok rfl)
    (exec_hostSendz_withSchedule · s) hsendz
  have hrun := hstarted.trans hattempts rest
  obtain ⟨haddr, hvalid, hzero⟩ := addressRegs_eq_iff.mp ht.address
  exact ⟨t.withSchedule rest, hstart ▸ hrun, ht.log, ht.idle, ht.released, ht.disarmed, ht.spent, rfl, haddr, hvalid,
    hzero⟩

/-- Settles O8: `HOSTOP` completes, and does what the decoded row does. -/
theorem hostopRunsItsRow : Obligations.HostopRunsItsRow := by
  intro s w bytes i hi hdec
  obtain ⟨t, ht⟩ := hostop_completes hi fun _ _ => length_eq_of_decode_send hdec
  exact ⟨t, (exec_decoded_hostop hdec s).trans ht, ht⟩

/-- Settles O16: the condition of the automatic zero command decides which exchange starts. -/
theorem sendStartsExchange : Obligations.SendStartsExchange := by
  intro s cmd len data hi hl
  have hexec : exec (.hostSend cmd len data) s = .next (sendRequest cmd len data s) := exec_hostSend_of_idle hi hl
  refine ⟨fun ho => hexec.trans (congrArg Host.Outcome.next (sendRequest_of_closed ho cmd len data)),
    fun ho hreq htx => ⟨_, hexec, ?_⟩⟩
  have hstored := Memory.read_writeBytes hreq 0 data
  rcases sendRequest_cases cmd len data s with ⟨_, hz, he⟩ | ⟨_, hz, he⟩ | ⟨hc, _⟩
  · rw [he]
    refine ⟨hstored, fun _ => startExchange_started _ htx, fun hno => absurd hno ?_⟩
    obtain ⟨hauto, hcmd, hzero⟩ := hz
    simpa [hauto, hzero] using hcmd
  · rw [he, buildCommand_storeRequest hl hreq]
    exact ⟨hstored, fun hyes => absurd hyes hz, fun _ => startExchange_started _ htx⟩
  · exact absurd (ho.symm.trans hc) nofun

/-- Settles O17: the command is `ZERO`'s, whose address is `null` whatever the address register holds. -/
theorem sendzStartsZeroExchange : Obligations.SendzStartsZeroExchange := by
  intro s hi
  have hexec : exec .hostSendz s = .next (sendZero s) := exec_hostSendz_of_idle hi
  refine ⟨fun ho => hexec.trans (congrArg Host.Outcome.next (sendZero_of_closed ho)),
    fun ho htx => ⟨_, hexec, ?_⟩⟩
  rw [sendZero_of_opened ho]
  exact startExchange_started (s := { s with reqOp := 4, sPhase := false }) (zeroCommand s) htx

/-- Settles O41: each code of `RETRY_OR` is the code of `FINISH` and of `DONE` of the same name. -/
theorem retryDecision : Obligations.RetryDecision :=
  fun _ hwf => ⟨⟨_, rfl, retryOr_retried .none hwf⟩, ⟨_, rfl, retryOr_retried .commfault hwf⟩⟩

/-- Settles O42: the phase decides, and each code ends the exchange with the completion code of its name. -/
theorem finishEndsExchange : Obligations.FinishEndsExchange := by
  intro s
  refine ⟨fun hp => ?ends, fun hp hwf code => ⟨_, rfl, ?starts⟩⟩
  case ends =>
    have ends (code : FinishCode) : exec (.finish code) s =
        .next { s with sState := .idle, outs := .done (doneOfFinish code) :: s.outs } := by
      rcases finishWith_cases code s with ⟨_, he⟩ | ⟨hp', _⟩
      · exact congrArg Host.Outcome.next he
      · exact absurd (hp.symm.trans hp') nofun
    exact ⟨ends .success, ends .commfault, ends .none⟩
  case starts =>
    rcases finishWith_finished code hwf with ⟨hp', _⟩ | ⟨_, hstarted⟩
    · exact absurd (hp.symm.trans hp') nofun
    · exact hstarted

/-- Settles O43: the Command's data fits, so `EXCHANGE` accepts it and the length of its frame fits `TX_LEN`. -/
theorem exchangeArmsFirstAttempt : Obligations.ExchangeArmsFirstAttempt :=
  fun s c hwf hc => ⟨startExchange c s, if_pos hc, startExchange_started c hwf, encodeInto_txLen_toNat (s := s) hc⟩

/-- Settles O45: `RESOLVE` is `CLASSIFY` with the handler disarmed, and a byte is its bit 7 before its low bits. -/
theorem firstStatusByteDecides : Obligations.FirstStatusByteDecides := by
  intro s hwf
  have row {b : Byte} {hi : Bool} (hb : b.getLsbD 7 = hi) :
      (.next (classifyByte (byteOf hi (lowBits b)) s) : Result) = .next (classifyByte b s) := by
    rw [← hb, byteOf_lowBits]
  refine ⟨⟨_, rfl, rfl⟩, ?communication, ?commandSpecific⟩
  case communication =>
    rintro b rfl hb
    exact ⟨_, rfl, row hb, classifyByte_retried hb hwf⟩
  case commandSpecific =>
    rintro b rfl hb
    exact ⟨_, rfl, row hb, classifyByte_finished hb hwf⟩

/-- Settles O10: each clause is the branch of its operation that stops or leaves the state alone. -/
theorem eventsWithoutStep : Obligations.EventsWithoutStep := by
  refine ⟨?rxbyte, ?xfault, ?busy, ?operands, ?txdone, ?command, ?result⟩
  case rxbyte =>
    intro s b ho
    exact if_neg (Bool.eq_false_iff.mp ho)
  case xfault =>
    intro s hi
    exact if_pos hi
  case busy =>
    intro s hb
    exact ⟨if_neg hb, if_neg hb, if_neg hb, fun _ _ _ => if_neg hb, fun _ => if_neg hb, fun _ => if_neg hb,
      fun _ => if_neg hb, fun _ => if_neg hb, fun _ _ => if_neg hb⟩
  case operands =>
    intro s cmd len data hi hl
    have hrefused := sendChecked_of_length_ne hl (cmd := cmd) s
    refine ⟨(acceptIdle_of_idle hi (sendChecked cmd len data)).trans hrefused, fun w hd => ?_⟩
    have hrun : exec (.hostop w data) s = runHostWord w data s := acceptIdle_of_idle hi (runHostWord w data)
    rw [hrun, runHostWord, hd]
    exact hrefused
  case txdone =>
    intro s hs
    exact if_neg hs
  case command =>
    intro s c hc
    have refused (a : Option Addr5) (pre cmd : Byte) (st : List Byte) (f : State → State) :
        withCommand ⟨pre, a, cmd, st, c.data⟩ f s = .refused .dataTooLong := if_neg (Nat.not_le.mpr hc)
    exact ⟨refused _ _ _ _ _, refused _ _ _ _ _, fun _ _ _ => refused _ _ _ _ _, fun _ _ => refused _ _ _ _ _⟩
  case result =>
    intro s f hf
    have refused (a : Option Addr5) (pre : Nat) (d cmd : Byte) (st : Status2) :
        receiveResponse pre d ⟨a, cmd, st, f.data⟩ s = .refused .dataTooLong :=
      if_neg (Nat.not_le.mpr hf)
    exact ⟨if_neg (Nat.not_le.mpr hf), fun _ _ _ _ _ => refused _ _ _ _ _, fun _ _ _ _ => refused _ _ _ _ _⟩

/-- Settles O12: an open port decides between the error and the request to the transport, whose four answers are the
statement's four. -/
theorem openAsksTransport : Obligations.OpenAsksTransport := by
  intro s hi
  rw [exec_hostOpen_of_idle hi]
  exact ⟨fun ho => congrArg Host.Outcome.next (if_pos ho),
    fun ho => congrArg Host.Outcome.next (if_neg (Bool.eq_false_iff.mp ho))⟩

/-- Settles O13: an open port decides between the end of the session and the error. -/
theorem closeEndsSession : Obligations.CloseEndsSession := by
  intro s hi
  rw [exec_hostClose_of_idle hi]
  exact ⟨fun ho => congrArg Host.Outcome.next (if_neg (Bool.eq_false_iff.mp ho)),
    fun ho => congrArg Host.Outcome.next (if_pos ho)⟩

/-- Settles O14: the four operations are accepted in `IDLE` and test nothing else. -/
theorem cfgwrWritesOneRegister : Obligations.CfgwrWritesOneRegister := by
  intro s hi
  exact ⟨fun v => acceptIdle_of_idle hi fun s => .next (writePreamble v s),
    fun v => acceptIdle_of_idle hi fun s => .next (writeMaxRetries v s),
    fun v => acceptIdle_of_idle hi fun s => .next (writeTimeout v s),
    fun v => acceptIdle_of_idle hi fun s => .next (writeAutoZero v s)⟩

/-- Settles O15: the first clauses of O17 and O16, together. -/
theorem sendWhileClosedCompletesNone : Obligations.SendWhileClosedCompletesNone := by
  intro s hi ho
  refine ⟨?sendz, fun cmd len data hl => ?send⟩
  case sendz => rw [exec_hostSendz_of_idle hi, sendZero_of_closed ho]
  case send => rw [exec_hostSend_of_idle hi hl, sendRequest_of_closed ho]

/-- Settles O32: twelve data bytes decide. -/
theorem learnTakesFiveBytes : Obligations.LearnTakesFiveBytes := by
  intro s f
  rcases learnFrom_cases f s with ⟨hge, he⟩ | ⟨hlt, he⟩
  · exact ⟨fun _ => congrArg Host.Outcome.next he, fun hlt => absurd hge (Nat.not_le.mpr hlt)⟩
  · exact ⟨fun hge => absurd hge (Nat.not_le.mpr hlt), fun _ => congrArg Host.Outcome.next he⟩

/-- Settles O37: `TIMEOUT` is the retry decision with the handler disarmed; the two sides of the limit are those of the
row of `TICK`. -/
theorem waitTimesOut : Obligations.WaitTimesOut := by
  intro s hwf
  exact ⟨⟨_, rfl, retryOr_retried (s := { s with handlerArmed := false }) .none hwf⟩, exec_tickWait_of_lt,
    fun hge => ⟨_, rfl, exec_tickWait_of_ge hge⟩⟩

/-- Settles O39: `ARM` in one record, and four operations that are one record update. -/
theorem attemptPrimitives : Obligations.AttemptPrimitives :=
  fun s => ⟨congrArg Host.Outcome.next (arm_eq s), rfl, rfl, rfl, rfl⟩

/-- Settles O44: the latch is tested first, then the timeout. -/
theorem enterWaitTestsLatchFirst : Obligations.EnterWaitTestsLatchFirst :=
  fun _ => ⟨fun hr => ⟨_, rfl, congrArg Host.Outcome.next (enterWait_of_latched hr)⟩,
    fun hr h0 => ⟨_, rfl, congrArg Host.Outcome.next (enterWait_of_noTime hr h0)⟩,
    fun hr hne => congrArg Host.Outcome.next (enterWait_of_time hr hne)⟩

end Sys2Proof.Proofs

/-! Events and failures (spec/60_exceptions.md R226 to R231): which events complete, what a step takes off the schedule,
and the two failures that a bad host word and the transport's fault are. -/

namespace Sys2Proof.Machine

section
variable {s t : State}

/-! ## Where the invariant holds, an event completes -/

theorem State.Inv.txLen_le (h : s.Inv) : s.txLen.toNat ≤ 519 := by
  obtain ⟨⟨_, _, hfits, _⟩, _⟩ := s.inv_iff.mp h
  exact hfits

theorem State.Inv.parsingInv (h : s.Inv) : s.parsingInv := (s.inv_iff.mp h).right

/-- Of the handlers of `TICK` only the one that starts the write can fault, on a frame longer than `TXBUF`. -/
theorem tick_completes (h : s.txLen.toNat ≤ 519) : ∃ t, exec .tick s = .next t := by
  obtain ⟨t, ht, _⟩ := Proofs.tickHandlesSequencerState s h
  exact ⟨t, ht⟩

theorem rxbyte_completes (b : Byte) (h : s.parsingInv) : ∃ t, exec (.rxbyte b) s = .next t := by
  change ∃ t, receiveByte b s = .next t
  rcases receiveByte_cases b s with ⟨_, he⟩ | ⟨_, he⟩ <;> rw [he]
  · exact parseByte_completes (s := { s with outs := .evRxdump [b] :: s.outs }) b h
  · exact ⟨s, rfl⟩

theorem txdone_completes (h : s.sState = .write) : ∃ t, exec .txdone s = .next t := by
  rcases execTxdone_cases s with ⟨_, _, he⟩ | ⟨_, _, he⟩ | ⟨hne, _⟩
  · exact ⟨_, he⟩
  · exact ⟨_, he⟩
  · exact absurd h hne

theorem xfault_completes (s : State) : ∃ t, exec .xfault s = .next t := by
  rcases execXfault_cases s with ⟨_, he⟩ | ⟨_, he⟩ <;> exact ⟨_, he⟩

/-! ## No operation of an event writes the schedule -/

/-- An operation that does not look at the events to come leaves them as they are. -/
theorem schedule_eq_of_withSchedule {i : Instr}
    (hq : ∀ q, exec i (s.withSchedule q) = andThen (exec i s) (reschedule q)) (h : exec i s = .next t) :
    t.schedule = s.schedule := by
  have hsame : exec i s = andThen (exec i s) (reschedule s.schedule) := hq s.schedule
  rw [h] at hsame
  have ht : t = t.withSchedule s.schedule := Host.Outcome.next.inj hsame
  rw [ht]
  rfl

theorem EndOfAttempt.schedule_eq (h : EndOfAttempt s t) : t.schedule = s.schedule := by
  obtain ⟨hprogress, _⟩ := h
  rw [hprogress]

theorem xfault_schedule (h : exec .xfault s = .next t) : t.schedule = s.schedule := by
  rcases execXfault_cases s with ⟨_, he⟩ | ⟨_, he⟩ <;> rw [he] at h <;> cases h
  · rfl
  · exact (retryOr_frame .none { s with txEn := false, handlerArmed := false }).schedule_eq

theorem openPort_schedule (s : State) : (openPort s).schedule = s.schedule := by
  rcases openPort_cases s with ⟨_, he⟩ | ⟨_, _, he⟩ | ⟨_, _, _, _, he⟩ <;> rw [he]

theorem closePort_schedule (s : State) : (closePort s).schedule = s.schedule := by
  rcases closePort_cases s with ⟨_, he⟩ | ⟨_, he⟩ <;> rw [he]

theorem sendRequest_schedule (cmd len : Byte) (data : List Byte) (s : State) :
    (sendRequest cmd len data s).schedule = s.schedule := by
  rcases sendRequest_cases cmd len data s with ⟨_, _, he⟩ | ⟨_, _, he⟩ | ⟨_, he⟩ <;> rw [he]
  · exact startExchange_schedule _ _
  · exact startExchange_schedule _ _

theorem sendZero_schedule (s : State) : (sendZero s).schedule = s.schedule := by
  rcases sendZero_cases s with ⟨_, he⟩ | ⟨_, he⟩ <;> rw [he]
  exact startExchange_schedule _ _

theorem hostop_schedule {w : HostWord} {bytes : List Byte} (h : exec (.hostop w bytes) s = .next t) :
    t.schedule = s.schedule := by
  obtain ⟨_, hcases⟩ := execHostop_cases h
  rcases hcases with ⟨_, rfl⟩ | ⟨_, rfl⟩ | ⟨_, rfl⟩ | ⟨_, _, _, _, rfl⟩ | ⟨_, rfl⟩ |
    ⟨_, _, rfl⟩ | ⟨_, _, rfl⟩ | ⟨_, _, rfl⟩ | ⟨_, _, rfl⟩
  case inr.inl => exact openPort_schedule s
  case inr.inr.inl => exact closePort_schedule s
  case inr.inr.inr.inl => exact sendRequest_schedule _ _ _ s
  case inr.inr.inr.inr.inl => exact sendZero_schedule s
  all_goals rfl

/-- A step takes the event it handles off the schedule and leaves the others as they stand. -/
theorem step_schedule (h : step s = .next t) : t.schedule = s.schedule.tail := by
  rcases step_cases s with ⟨hs, he⟩ | ⟨b, rest, hs, he⟩ | ⟨rest, hs, he⟩ | ⟨rest, hs, he⟩ | ⟨rest, hs, he⟩ |
    ⟨_, rest, hs, he⟩ | ⟨_, _, rest, hs, he⟩ <;> rw [he] at h
  case inl =>
    rw [schedule_eq_of_withSchedule (exec_tick_withSchedule · s) h, hs, List.tail_nil]
  all_goals rw [hs, List.tail_cons]
  · exact schedule_eq_of_withSchedule (i := .rxbyte b) (receiveByte_withSchedule · _ b) h
  · exact schedule_eq_of_withSchedule (exec_tick_withSchedule · _) h
  · exact schedule_eq_of_withSchedule (exec_txdone_withSchedule · _) h
  · exact xfault_schedule h
  · cases h
    rfl
  · exact hostop_schedule h

end

end Sys2Proof.Machine

namespace Sys2Proof.Proofs

open Sys2Proof Sys2Proof.Machine

/-- Settles O48: of the invariant, the parser's items keep a received byte from a fault and the size of the frame keeps
a `TICK` from one; the refusals are what `enabled` excludes. Taking the event off the schedule changes none of them. -/
theorem noFatalPath : Obligations.NoFatalPath := by
  intro s h henabled
  have hfits := h.txLen_le
  rcases step_cases s with ⟨_, he⟩ | ⟨b, rest, _, he⟩ | ⟨rest, _, he⟩ | ⟨rest, hs, he⟩ | ⟨rest, _, he⟩ |
    ⟨a, rest, _, he⟩ | ⟨w, bytes, rest, hs, he⟩ <;> rw [he]
  · exact tick_completes hfits
  · exact rxbyte_completes (s := { s with schedule := rest }) b h.parsingInv
  · exact tick_completes (s := { s with schedule := rest }) hfits
  · have hwrite : s.sState = .write := henabled _ _ hs
    exact txdone_completes (s := { s with schedule := rest }) hwrite
  · exact xfault_completes { s with schedule := rest }
  · exact ⟨_, rfl⟩
  · obtain ⟨hidle, hoperands⟩ := henabled _ _ hs
    exact hostop_completes (s := { s with schedule := rest }) hidle hoperands

/-- Settles O60: the events are inserted one by one, each behind those of its rank, and a step handles the head of the
schedule and leaves the rest. -/
theorem cycleEventsInOrder : Obligations.CycleEventsInOrder := by
  refine ⟨fun _ => rfl, fun _ => rfl, rfl, rfl, rfl, fun _ _ => rfl, fun es s => ?_⟩
  obtain ⟨hperm, hsorted, hstable⟩ := foldl_insertByRank es .nil
  refine ⟨cycleOrder es, rfl, hperm, hsorted, hstable, fun e rest hhead => ⟨fun i hi => ?runs, fun t ht => ?leaves⟩⟩
  case runs => exact step_of_eventInstr_some (nextInput_cons (s := offerCycle es s) hhead) hi
  case leaves => rw [step_schedule ht, offerCycle_schedule, hhead, List.tail_cons]

/-- Settles O9: in `IDLE` the word is looked at, and one that no row matches is the cause `BADOP`. -/
theorem badHostWordChangesNothing : Obligations.BadHostWordChangesNothing := by
  intro s w bytes hi hd
  have hrun : exec (.hostop w bytes) s = runHostWord w bytes s := acceptIdle_of_idle hi (runHostWord w bytes)
  rw [hrun, runHostWord, hd]
  rfl

/-- Settles O46: outside `IDLE` the fault is the cause `XFAULT`, the retry decision with the line released and the
handler disarmed. -/
theorem xfaultEndsAttempt : Obligations.XfaultEndsAttempt := by
  intro s hwf hs
  exact ⟨_, if_neg hs, retryOr_retried (s := { s with txEn := false, handlerArmed := false }) .none hwf⟩

end Sys2Proof.Proofs

/-! Reset (spec/70_reset_and_hazards.md R261): the values that the spec gives. -/

namespace Sys2Proof.Proofs

open Sys2Proof Sys2Proof.Machine

/-- Settles O1: each clause is one row of the reset table (R50), the three configuration numbers through the defaults of
R7. -/
theorem resetRegisterValues : Obligations.ResetRegisterValues :=
  ⟨rfl, rfl, rfl, rfl, rfl, rfl, rfl, rfl, rfl, rfl, rfl, rfl, rfl, rfl, rfl⟩

end Sys2Proof.Proofs
